-- ==== Sys2Proof/Word.lean ====
section
/-! DEFINITION. The words of the FTS: bytes and 32-bit words (00_scope.md R8, R9; 20_memory.md R83). -/

namespace Sys2Proof

/-- One byte of a buffer, of the chip FIFO or of a 1-byte host access (R80, R83). -/
abbrev Byte := BitVec 8

/-- A 32-bit register or command word (R8, R120). -/
abbrev Word := BitVec 32

end Sys2Proof
end

