-- ==== Sys2Proof/Syntax.lean ====
section
/-! DEFINITION. The six commands of the FTS (30_encoding.md R123), one constructor per row of
spec/opcode_table.json. -/

namespace Sys2Proof

/-- A decoded command word (R126). -/
inductive Instr where
  /-- SSTART: acquire a session (R150). -/
  | sstart
  /-- SSTOP: release the session (R154). -/
  | sstop
  /-- REQA: exchange a REQA short frame (R220). -/
  | reqa
  /-- WUPA: exchange a WUPA short frame (R221). -/
  | wupa
  /-- ANTICOLL: exchange an anticollision frame of BITS bits (R222). -/
  | anticoll (bits : BitVec 6)
  /-- XCHG: exchange a standard frame with a frame-waiting time of FWT ms (R223). -/
  | xchg (fwt : BitVec 16)
  deriving DecidableEq, Repr

end Sys2Proof
end

