-- ==== Sys2Proof/Machine/Ports.lean ====
section
/-! DEFINITION. The two ports of the FTS and its other inputs as plain data: host-bus accesses and their
responses (20_memory.md R83), chip-port transactions with their answers (R93-R98), and the events that the
agents of 00_scope.md R6 bring about. -/

namespace Sys2Proof.Machine

/-! ## Host bus -/

/-- A host-bus access (R83): a 14-bit byte offset, a size of 1 or 4 bytes, and for a write its value. -/
inductive HostAccess where
  | readByte  (off : BitVec 14)
  | readWord  (off : BitVec 14)
  | writeByte (off : BitVec 14) (v : Byte)
  | writeWord (off : BitVec 14) (v : Word)
  deriving DecidableEq, Repr, Inhabited

/-- What the bus answers to an access (R83, R85). `done`: a write that got no bus error, whether it was
performed, ignored (R53, R88), dropped (R91) or a rejected command (R130): none of these is a bus error. -/
inductive HostResponse where
  | done
  | byte (v : Byte)
  | word (v : Word)
  | busError
  deriving DecidableEq, Repr, Inhabited

/-! ## Chip port -/

/-- A set of chip flags (10_state.md R56): TXE 0, RXS 1, RXE 2, FRM 3, PAR 4, CRC 5, COL 6. -/
abbrev IrqFlags := BitVec 7

/-- The chip commands of R95. -/
inductive ChipCmd where
  | stop | resetRxGain | txReqa | txWupa | txNoCrc | txCrc
  deriving DecidableEq, Repr, Inhabited

/-- The chip fields SEQ writes (R93). -/
inductive ChipField where
  | txNbits | raw | antcl | agcEn | squelchEn
  deriving DecidableEq, Repr, Inhabited

/-- The FIFO_STATUS record of R94. CNT_LO is CNT_LO_BITS = 8 wide (`Config.cntLoBits`). CNT_HI is CNT_HI_BITS wide: a stored snapshot has its upper bits 0. -/
structure FifoStatus where
  cntLo : BitVec 8 := 0
  cntHi : BitVec 8 := 0
  ovr   : Bool := false
  unf   : Bool := false
  nplb  : Bool := false
  deriving DecidableEq, Repr, Inhabited

/-- The COLL_POS record of R94. CBYTE is CBYTE_BITS wide: a stored position has its upper bits 0. -/
structure CollPos where
  cbyte : BitVec 8 := 0
  cbit  : BitVec 3 := 0
  deriving DecidableEq, Repr, Inhabited

/-- The outcomes of `FieldOn()` (R98). -/
inductive FieldAnswer where
  | ok | fieldCollision
  deriving DecidableEq, Repr, Inhabited

/-- One chip-port transaction with its arguments and its answer (00_scope.md R11, 20_memory.md R93-R98). -/
inductive ChipTxn where
  | cmd (c : ChipCmd)
  | write (f : ChipField) (v : Nat)
  | readFifoStatus (answer : FifoStatus)
  | readCollPos (answer : CollPos)
  | fifoWrite (bytes : List Byte)
  | fifoRead (n : Nat) (answer : List Byte)
  | irqClearAll
  | irqRefresh (answer : IrqFlags)
  | modeOn
  | modeOff
  | fieldOn (answer : FieldAnswer)
  | fieldOff
  deriving DecidableEq, Repr, Inhabited

/-- What CHIP would answer to each reading transaction in one SEQ turn (R6: "each answer is a free draw").
The turn's own transaction uses one of them, or none. `fifo` is the byte sequence of a `FifoRead`, first byte
first; DESIGN CHOICE (log 4): a list shorter than the read stands for itself followed by zero bytes, so every
sequence of n bytes is the answer of some list and nothing constrains the answer (safe). -/
structure ChipAnswers where
  irq        : IrqFlags := 0
  field      : FieldAnswer := .ok
  fifoStatus : FifoStatus := {}
  collPos    : CollPos := {}
  fifo       : List Byte := []
  deriving DecidableEq, Repr, Inhabited

/-! ## Events -/

/-- One atomic step of one agent (R6, R100): a host access, one turn of SEQ with the chip's answers, an edge
of `tick`, or one step with `rst` active. `rst` brings the contents TXBUF and RXBUF come up with, "any value
per byte" (10_state.md R59), from index 0 on; DESIGN CHOICE (log 13): bytes a list does not reach are 0x00, so
every contents is that of some list (safe). -/
inductive Event where
  | host (a : HostAccess)
  | seq (answers : ChipAnswers)
  | tick
  | rst (txContents rxContents : List Byte)
  deriving DecidableEq, Repr, Inhabited

end Sys2Proof.Machine
end

