-- ==== Sys2Proof/Config.lean ====
section
/-! DEFINITION. The constants the source fixes (00_scope.md R7, taken as normative: log 16) and the free event
stream. The parameters of R8 that differ from one FTS to another (buffer sizes, field widths, BASE, periods) are held in
`State.hw`, so that a model of any FTS of the family can be run (log 2). -/

namespace Sys2Proof.Config

/-- T_GUARD_MS: guard time after field on (R7, R153). -/
def tGuardMs : Nat := 5

/-- T_IFS_MS: pre-delay before each exchange (R7, R171). -/
def tIfsMs : Nat := 1

/-- FWT_SHORT_MS: frame-waiting time of REQA, WUPA and ANTICOLL (R7, R179). -/
def fwtShortMs : Nat := 5

/-- T_SAFETY_MS: safety timeout of the RX-end poll (R7, R184). -/
def tSafetyMs : Nat := 500

/-- MAX_ANTICOLL_BITS: largest ANTICOLL bit count (R7, R125). -/
def maxAnticollBits : Nat := 40

/-- CRC_LEN: CRC bytes stripped in CRC mode (R7, R242). -/
def crcLen : Nat := 2

/-- CNT_LO_BITS: width of the low part of the received byte count (R7, R187); `FifoStatus.cntLo` has it. -/
def cntLoBits : Nat := 8

/-- The fixed length of a REQA or WUPA frame in bits (R7, R173). -/
def shortFrameBits : Nat := 7

/-- FREE VALUE (log 3): what the outside world does next once `State.inputs` holds no known event. No body:
which agent moves, what the host accesses and what the chip answers is nowhere determined
(93_implementation_defined.md P3, P9, P10). -/
opaque freeEvent : Nat → Machine.Event

end Sys2Proof.Config
end

