-- ==== Sys2Proof/WellFormed.lean ====
section
/-! DEFINITION. Which commands have a legal word: every operand as wide as its field, and an ANTICOLL bit count
within the protocol's range (30_encoding.md R125). -/

namespace Sys2Proof

/-- "`bits` ranges 0..=40 in this protocol" (R125); no other operand is limited beyond its field's width. -/
def Instr.wellFormed : Instr → Bool
  | .anticoll bits => decide (bits.toNat ≤ Config.maxAnticollBits)
  | .sstart => true
  | .sstop => true
  | .reqa => true
  | .wupa => true
  | .xchg _ => true

end Sys2Proof
end

