-- ==== Sys2Proof/Decode.lean ====
section
/-! DEFINITION. The decoder of command words (30_encoding.md R126), total and rejecting by name, and after it the
encoder (R121, R123, R135). -/

namespace Sys2Proof

/-- Why a word is ILLEGAL: a reserved opcode (R124), a 1 in a bit the opcode does not use, or an ANTICOLL bit
count above 40 (R125). -/
inductive IllegalWord where
  | reservedOpcode
  | reservedBits
  | bitsOutOfRange
  deriving DecidableEq, Repr

/-- What `decode` returns: one of the six commands, or ILLEGAL (R126) with its cause. -/
inductive Decoded where
  | instr (i : Instr)
  | illegal (why : IllegalWord)
  deriving DecidableEq, Repr

/-- Field OP of a command word (R121). -/
def opField (w : Word) : BitVec 4 := w.extractLsb' 0 4

/-- Field BITS of a command word (R121). -/
def bitsField (w : Word) : BitVec 6 := w.extractLsb' 8 6

/-- Field FWT of a command word (R121). -/
def fwtField (w : Word) : BitVec 16 := w.extractLsb' 16 16

/-- A command that uses no bit of [31:4] (R123, R125). -/
def decodePlain (w : Word) (i : Instr) : Decoded :=
  if w.extractLsb' 4 28 = 0 then .instr i else .illegal .reservedBits

/-- ANTICOLL uses [13:8] only, and its count is limited (R123, R125). -/
def decodeAnticoll (w : Word) : Decoded :=
  if w.extractLsb' 14 18 = 0 ∧ w.extractLsb' 4 4 = 0 then
    if (bitsField w).toNat ≤ Config.maxAnticollBits then .instr (.anticoll (bitsField w))
    else .illegal .bitsOutOfRange
  else .illegal .reservedBits

/-- XCHG uses [31:16] only (R123, R125). -/
def decodeXchg (w : Word) : Decoded :=
  if w.extractLsb' 4 12 = 0 then .instr (.xchg (fwtField w)) else .illegal .reservedBits

/-- `decode(w)` of R126. -/
def decode (w : Word) : Decoded :=
  if opField w = 0x1 then decodePlain w .sstart
  else if opField w = 0x2 then decodePlain w .sstop
  else if opField w = 0x4 then decodePlain w .reqa
  else if opField w = 0x5 then decodePlain w .wupa
  else if opField w = 0x6 then decodeAnticoll w
  else if opField w = 0x7 then decodeXchg w
  else .illegal .reservedOpcode

/-- A command word's first byte is at the lowest offset of CMD (20_memory.md R86), so the table's numbering of
bits is the word's own. Bits at and above `nbits` are 0. -/
def tableWord (nbits w : Nat) : Word := BitVec.ofNat 32 (w % 2 ^ nbits)

/-- The instruction the decoder reads from a word numbered as spec/opcode_table.json numbers it. -/
def decodeTableWord (nbits w : Nat) : Option Instr :=
  match decode (tableWord nbits w) with
  | .instr i => some i
  | .illegal _ => none

/-- The word of a command: R121's bit string with R123's opcode. -/
def encode : Instr → Word
  | .sstart => 0x00000001
  | .sstop => 0x00000002
  | .reqa => 0x00000004
  | .wupa => 0x00000005
  | .anticoll bits => 0#18 ++ bits ++ 0x06#8
  | .xchg fwt => fwt ++ 0x0007#16

end Sys2Proof
end

