-- ==== Sys2Proof/Machine/State.lean ====
section
/-! DEFINITION. The state of the FTS as plain data (10_state.md), its value after reset (R59, R310), and the
reasons a step can stop. -/

namespace Sys2Proof.Machine

/-- The legal values of the state register `pc` (R30); values 16-31 are never taken. -/
inductive FsmState where
  | idle | sMode | sField | sGuard | ready
  | xPredelay | xReset | xProgram | xDispatch | xTxwait | xRxswait | xPoll | xPostchk | xCount | xExtract
  | tStop
  deriving DecidableEq, Repr

/-- The parameters of R8 an FTS is built with: fixed for the machine, no step changes them (log 2). -/
structure HwParams where
  /-- TXBUF_SIZE, 5..4096. -/
  txbufSize : Nat
  /-- RXBUF_SIZE, 5..4096. -/
  rxbufSize : Nat
  /-- FIFO_SIZE, at least 1: the chip's; only `Chip.Env5` (R289) speaks of it. -/
  fifoSize : Nat
  /-- CNT_HI_BITS, 1..8. -/
  cntHiBits : Nat
  /-- CBYTE_BITS, 3..8. -/
  cbyteBits : Nat
  /-- TXNBITS_BITS, with 8 * TXBUF_SIZE <= 2^TXNBITS_BITS - 1. -/
  txNbitsBits : Nat
  /-- BASE: the host bus address of offset 0 (R35, R80; `HwParams.address` of HostBus.lean). -/
  base : Nat
  /-- TICK_PERIOD in microseconds, decided 1 ms (R286): only ENV2 (`Env2` of Safety.lean) speaks of it. -/
  tickPeriodUs : Nat
  /-- POLL_INTERVAL in microseconds, above 0 (R185): only `YieldLasts` of Safety.lean speaks of it. -/
  pollIntervalUs : Nat
  deriving DecidableEq, Repr

/-- The stored bits of STATUS (R37-R41); BUSY, SESSION and FSM are views of `pc` and `session`. -/
structure StatusBits where
  done   : Bool := false
  cmderr : Bool := false
  accerr : Bool := false
  buserr : Bool := false
  deriving DecidableEq, Repr

/-- The fields of RESULT (R43). -/
structure ResultReg where
  err   : BitVec 4 := 0
  serr  : BitVec 2 := 0
  kind  : Bool := false
  tosrc : Bool := false
  op    : BitVec 4 := 0
  deriving DecidableEq, Repr

/-- The fields of IRQEN (R47). -/
structure IrqEnable where
  doneIe : Bool := false
  errIe  : Bool := false
  deriving DecidableEq, Repr

/-- FIFOSTAT (R50): the copy of SNAP and VALID. -/
structure FifoStatReg where
  snap  : FifoStatus := {}
  valid : Bool := false
  deriving DecidableEq, Repr

/-- COLLPOS (R51): the copy of CPOS and VALID. -/
structure CollPosReg where
  pos   : CollPos := {}
  valid : Bool := false
  deriving DecidableEq, Repr

/-- The request latch REQ (R55). -/
structure Request where
  op    : BitVec 4 := 0
  bits  : BitVec 6 := 0
  fwt   : BitVec 16 := 0
  txlen : BitVec 16 := 0
  rxcap : BitVec 16 := 0
  deriving DecidableEq, Repr

/-- The working registers of an exchange (R58). -/
structure WorkRegs where
  snap  : FifoStatus := {}
  count : BitVec 16 := 0
  full  : BitVec 3 := 0
  rem   : BitVec 3 := 0
  n     : BitVec 16 := 0
  cpos  : CollPos := {}
  deriving DecidableEq, Repr

/-- The bytes of a buffer: (index, byte) cells in canonical form, indices strictly rising and no cell that
holds what an unlisted index reads as (`Memory.blank`, `Memory.wf` of Ops.lean). -/
abbrev Memory := List Host.Cell

/-- The machine: the architectural state of 10_state.md and 20_memory.md, then what it has shown to the outside
(`trace`, `responses`: R6's observable behaviour, log 12) and what the outside does next (`inputs`, `draws`:
log 3). -/
structure State where
  /-- Parameters (R8), shown by HWCFG (R52). -/
  hw : HwParams
  /-- The state register (R30). -/
  pc : FsmState
  /-- The sub-step index (R31). -/
  sub : Nat
  /-- SESSION (R33). -/
  session : Bool
  /-- DONE, CMDERR, ACCERR, BUSERR (R37-R41). -/
  status : StatusBits
  /-- RESULT (R43). -/
  result : ResultReg
  /-- BITCOUNT (R44). -/
  bitcount : Word
  /-- TXLEN.LEN (R45). -/
  txlen : BitVec 16
  /-- RXCAP.CAP (R46). -/
  rxcap : BitVec 16
  /-- IRQEN (R47). -/
  irqen : IrqEnable
  /-- RXCOUNT.COUNT (R48). -/
  rxcount : BitVec 16
  /-- FIFOSTAT (R50). -/
  fifostat : FifoStatReg
  /-- COLLPOS (R51). -/
  collpos : CollPosReg
  /-- The request latch (R55). -/
  req : Request
  /-- The interrupt-flag cache (R56), shown by IRQCACHE (R49). -/
  cache : IrqFlags
  /-- The timer counter (R57). -/
  tmr : BitVec 32
  /-- SNAP, COUNT, FULL, REM, N, CPOS (R58). -/
  work : WorkRegs
  /-- TXBUF (R81), keyed by index. -/
  txbuf : Memory
  /-- RXBUF (R82), keyed by index. -/
  rxbuf : Memory
  /-- The chip-port transactions so far, oldest first (R6, R11). -/
  trace : List ChipTxn
  /-- The host bus's responses so far, oldest first (R83). -/
  responses : List HostResponse
  /-- The events that come next, as far as they are known. -/
  inputs : List Event
  /-- The index of the next free event (`Config.freeEvent`); no claim rests on its value. -/
  draws : Nat
  deriving DecidableEq, Repr

/-- Why a step stops. -/
inductive Fault where
  /-- Raised by a SEQ turn (Machine/Session.lean, Machine/Exchange.lean, Machine/Extract.lean) in a combination
  of `pc`, `sub` and REQ.OP for which no rule lists a transaction or a transition. No legal run reaches one
  (`State.Legal` of Safety.lean). DESIGN CHOICE, safe: the model stops where the spec says nothing (log 10). -/
  | illegalSequencerState
  deriving DecidableEq, Repr

/-- Why a step has no meaning. -/
inductive Refusal where
  /-- Raised by `exec` for an instruction whose meaning is not written; no arm uses it now. Safe. -/
  | notModelled (mnemonic : String)
  deriving DecidableEq, Repr

/-- The three outcomes of a step of this machine. -/
abbrev Outcome := Host.Outcome State Fault Refusal

/-- The parameters State.reset is built with. DESIGN CHOICE (log 2), unsafe for claims about runs from
State.reset alone: buffers of 64 bytes, as 95_test_vectors.md takes them, and the widest fields R8 allows. -/
def HwParams.default : HwParams where
  txbufSize := 64
  rxbufSize := 64
  fifoSize := 65535
  cntHiBits := 8
  cbyteBits := 8
  txNbitsBits := 16
  base := 0
  tickPeriodUs := 1000
  pollIntervalUs := 1

/-- The machine right after reset (R59, R310). The buffers list nothing: what their bytes then read as is a
DESIGN CHOICE (log 1), since R59 leaves them unspecified. -/
def State.reset : State where
  hw := HwParams.default
  pc := .idle
  sub := 0
  session := false
  status := {}
  result := {}
  bitcount := 0
  txlen := 0
  rxcap := 0
  irqen := {}
  rxcount := 0
  fifostat := {}
  collpos := {}
  req := {}
  cache := 0
  tmr := 0
  work := {}
  txbuf := []
  rxbuf := []
  trace := []
  responses := []
  inputs := []
  draws := 0

end Sys2Proof.Machine
end

