-- ==== Sys2Proof/Machine/Flags.lean ====
section
/-! DEFINITION. Flags and register views: the bits of CACHE, the classes of `pc`, the words the host reads from
STATUS, RESULT and the diagnostic registers, and the `irq` output (10_state.md R30-R52; 60_exceptions.md
R282). -/

namespace Sys2Proof.Machine

/-! ## The interrupt-flag cache (R56) -/

abbrev IrqFlags.txe (f : IrqFlags) : Bool := f[0]
abbrev IrqFlags.rxs (f : IrqFlags) : Bool := f[1]
abbrev IrqFlags.rxe (f : IrqFlags) : Bool := f[2]
abbrev IrqFlags.frm (f : IrqFlags) : Bool := f[3]
abbrev IrqFlags.par (f : IrqFlags) : Bool := f[4]
abbrev IrqFlags.crc (f : IrqFlags) : Bool := f[5]
abbrev IrqFlags.col (f : IrqFlags) : Bool := f[6]

/-! ## The state register (R30) -/

/-- The 5-bit code of `pc` (R30), read at STATUS.FSM (R42). -/
def FsmState.code : FsmState → BitVec 5
  | .idle => 0
  | .sMode => 1
  | .sField => 2
  | .sGuard => 3
  | .ready => 4
  | .xPredelay => 5
  | .xReset => 6
  | .xProgram => 7
  | .xDispatch => 8
  | .xTxwait => 9
  | .xRxswait => 10
  | .xPoll => 11
  | .xPostchk => 12
  | .xCount => 13
  | .xExtract => 14
  | .tStop => 15

/-- A command is executing in every state but IDLE and READY (R34). -/
def FsmState.busy : FsmState → Bool
  | .idle => false
  | .ready => false
  | _ => true

/-- The timed states (R57): TMR starts at 0 on entry and counts in them. -/
def FsmState.timed : FsmState → Bool
  | .sGuard => true
  | .xPredelay => true
  | .xRxswait => true
  | .xPoll => true
  | _ => false

/-- BUSY (R34): derived, not stored. -/
abbrev State.busy (s : State) : Bool := s.pc.busy

/-! ## Error codes -/

/-- The ten exchange errors (R131). -/
inductive ExchangeError where
  | timeout | framing | framingLastByteMissingParity | crc | collision | parity
  | responseTooShort | responseTooLong | fifoOverflow | fifoUnderflow
  deriving DecidableEq, Repr

/-- RESULT.ERR of an exchange error (R131). -/
def ExchangeError.code : ExchangeError → BitVec 4
  | .timeout => 1
  | .framing => 2
  | .framingLastByteMissingParity => 3
  | .crc => 4
  | .collision => 5
  | .parity => 6
  | .responseTooShort => 7
  | .responseTooLong => 8
  | .fifoOverflow => 9
  | .fifoUnderflow => 10

/-- RESULT.SERR of FieldCollision, the only start error produced (R132). -/
def serrFieldCollision : BitVec 2 := 1

/-! ## Register words -/

/-- One flag as a bit string, for the words below. -/
def bit (b : Bool) : BitVec 1 := BitVec.ofBool b

/-- STATUS as the host reads it (R37): reserved bits 0. -/
def State.statusWord (s : State) : Word :=
  0#19 ++ s.pc.code ++ 0#2 ++ bit s.status.buserr ++ bit s.status.accerr ++ bit s.status.cmderr
    ++ bit s.status.done ++ bit s.session ++ bit s.busy

/-- STATUS after a host write of v (R37): write 1 to clear, nothing else. -/
def StatusBits.clearBy (b : StatusBits) (v : Word) : StatusBits where
  done := b.done && !v[2]
  cmderr := b.cmderr && !v[3]
  accerr := b.accerr && !v[4]
  buserr := b.buserr && !v[5]

/-- RESULT as the host reads it (R43). -/
def ResultReg.word (r : ResultReg) : Word :=
  0#20 ++ r.op ++ bit r.tosrc ++ bit r.kind ++ r.serr ++ r.err

/-- IRQEN as the host reads it (R47). -/
def IrqEnable.word (e : IrqEnable) : Word := 0#30 ++ bit e.errIe ++ bit e.doneIe

/-- IRQEN as a host write of v leaves it (R47): reserved bits are not stored. -/
def IrqEnable.ofWord (v : Word) : IrqEnable where
  doneIe := v[0]
  errIe := v[1]

/-- FIFOSTAT as the host reads it (R50). -/
def FifoStatReg.word (f : FifoStatReg) : Word :=
  bit f.valid ++ 0#12 ++ bit f.snap.nplb ++ bit f.snap.unf ++ bit f.snap.ovr ++ f.snap.cntHi ++ f.snap.cntLo

/-- COLLPOS as the host reads it (R51). -/
def CollPosReg.word (c : CollPosReg) : Word :=
  bit c.valid ++ 0#15 ++ c.pos.cbyte ++ 0#5 ++ c.pos.cbit

/-- HWCFG (R52): RXBUF_SIZE above TXBUF_SIZE. -/
def HwParams.word (h : HwParams) : Word :=
  BitVec.ofNat 16 h.rxbufSize ++ BitVec.ofNat 16 h.txbufSize

/-! ## The interrupt output -/

/-- `irq` (R282): level-sensitive, a function of STATUS and IRQEN. -/
def State.irq (s : State) : Bool :=
  (s.status.done && s.irqen.doneIe)
    || ((s.status.cmderr || s.status.accerr || s.status.buserr) && s.irqen.errIe)

end Sys2Proof.Machine
end

