-- ==== Sys2Proof/Machine/Ops.lean ====
section
/-! DEFINITION. The operations every meaning and every SEQ step is made of: the bytes of the buffers
(20_memory.md R81-R87), chip-port transactions (R93-R99), moves of the state machine (10_state.md R31, R57),
the acceptance of a command (30_encoding.md R130), and the five classes of abnormal outcome
(60_exceptions.md R270). -/

namespace Sys2Proof.Machine

/-! ## Memory of bytes

DESIGN CHOICE (log 1): R59 leaves a buffer byte unspecified until written; the model reads it as `Memory.blank`.
Statements over all states hold whatever the buffers hold. -/

/-- What an index no cell lists reads as. -/
def Memory.blank : Byte := 0

/-- The byte at an index. -/
def Memory.read : Memory → Nat → Byte
  | [], _ => Memory.blank
  | (k, v) :: m, a => if a = k then v else Memory.read m a

/-- The cells with the byte at an index set, whatever the byte is. -/
def Memory.put : Memory → Nat → Byte → Memory
  | [], a, v => [(a, v)]
  | (k, w) :: m, a, v =>
    if a < k then (a, v) :: (k, w) :: m
    else if a = k then (a, v) :: m
    else (k, w) :: Memory.put m a v

/-- The cells without those of an index. -/
def Memory.erase (m : Memory) (a : Nat) : Memory := m.filter fun c => c.1 ≠ a

/-- Write a byte, keeping the canonical form. -/
def Memory.write (m : Memory) (a : Nat) (v : Byte) : Memory :=
  if v = Memory.blank then m.erase a else m.put a v

/-- The canonical form: indices strictly rising, no cell that says what is read anyway. -/
abbrev Memory.wf (m : Memory) : Prop :=
  m.Pairwise (fun c d => c.1 < d.1) ∧ ∀ c ∈ m, c.2 ≠ Memory.blank

/-! ## Buffers of a size (R81, R82, R87) -/

/-- The byte at an index of a buffer; at or above the size it reads 0 (R87). -/
def bufRead (size : Nat) (m : Memory) (i : Nat) : Byte := if i < size then m.read i else 0

/-- A write at an index of a buffer; at or above the size it is ignored (R87). -/
def bufWrite (size : Nat) (m : Memory) (i : Nat) (v : Byte) : Memory :=
  if i < size then m.write i v else m

/-- Bytes written from an index up, the first at the lowest index (R86, R97). -/
def bufWriteList (size : Nat) (m : Memory) (i : Nat) : List Byte → Memory
  | [] => m
  | b :: bs => bufWriteList size (bufWrite size m i b) (i + 1) bs

/-- TXBUF[i]. -/
def State.txByte (s : State) (i : Nat) : Byte := bufRead s.hw.txbufSize s.txbuf i

/-- RXBUF[i]. -/
def State.rxByte (s : State) (i : Nat) : Byte := bufRead s.hw.rxbufSize s.rxbuf i

/-- The word of four bytes, little-endian (R86): `{B3, B2, B1, B0}`. -/
def wordOfBytes (b0 b1 b2 b3 : Byte) : Word := b3 ++ b2 ++ b1 ++ b0

/-- The four bytes of a word, little-endian (R86): [7:0] first. -/
def bytesOfWord (v : Word) : List Byte :=
  [v.extractLsb' 0 8, v.extractLsb' 8 8, v.extractLsb' 16 8, v.extractLsb' 24 8]

/-! ## The state machine and the chip port -/

/-- `pc <- p` (R10): `sub` restarts at 0 (R31), and TMR at 0 when the state entered is timed (R57). -/
def State.enter (p : FsmState) (s : State) : State :=
  { s with pc := p, sub := 0, tmr := if p.timed then 0 else s.tmr }

/-- The next transaction of the same state (R31). -/
def State.nextSub (s : State) : State := { s with sub := s.sub + 1 }

/-- One chip-port transaction, recorded in the trace (R11, R99). -/
def State.perform (t : ChipTxn) (s : State) : State := { s with trace := s.trace ++ [t] }

/-- `IrqRefresh()` with the answer L (R96): CACHE <- CACHE | L. -/
def State.irqRefresh (l : IrqFlags) (s : State) : State :=
  { s.perform (.irqRefresh l) with cache := s.cache ||| l }

/-- `IrqClearAll()` (R96): the chip's latches and CACHE are cleared. -/
def State.irqClearAll (s : State) : State := { s.perform .irqClearAll with cache := 0 }

/-- `CACHE <- 0` without a chip transaction (R105, R176). -/
def State.clearCache (s : State) : State := { s with cache := 0 }

/-- SESSION is written (R33). -/
def State.setSession (b : Bool) (s : State) : State := { s with session := b }

/-- Bytes stored in RXBUF from an index up (R244, R249). -/
def State.rxStore (i : Nat) (bs : List Byte) (s : State) : State :=
  { s with rxbuf := bufWriteList s.hw.rxbufSize s.rxbuf i bs }

/-- Bytes stored in TXBUF from an index up (R81, R86). -/
def State.txStore (i : Nat) (bs : List Byte) (s : State) : State :=
  { s with txbuf := bufWriteList s.hw.txbufSize s.txbuf i bs }

/-- A host write of v to STATUS (R37). -/
def State.clearStatus (v : Word) (s : State) : State := { s with status := s.status.clearBy v }

/-- A host write of v to TXLEN (R45): bits [31:16] are not stored. -/
def State.setTxlen (v : Word) (s : State) : State := { s with txlen := v.setWidth 16 }

/-- A host write of v to RXCAP (R46): bits [31:16] are not stored. -/
def State.setRxcap (v : Word) (s : State) : State := { s with rxcap := v.setWidth 16 }

/-- A host write of v to IRQEN (R47). -/
def State.setIrqen (v : Word) (s : State) : State := { s with irqen := IrqEnable.ofWord v }

/-- "has elapsed" (R286): d ms after the entry of a timed state, TMR >= d + 1. -/
abbrev State.elapsed (d : Nat) (s : State) : Prop := d + 1 ≤ s.tmr.toNat

/-- An edge of `tick` (R57): TMR counts in timed states, saturating at 2^32 - 1. -/
def State.tick (s : State) : State :=
  { s with tmr := if s.pc.timed = true ∧ s.tmr.toNat < 2 ^ 32 - 1 then s.tmr + 1 else s.tmr }

/-! ## Acceptance (R130) -/

/-- The part of `accept(cmd, w)` every command shares: REQ is latched, DONE, RESULT and BITCOUNT are cleared. -/
def State.latch (w : Word) (s : State) : State :=
  { s with
    req := { op := opField w, bits := bitsField w, fwt := fwtField w, txlen := s.txlen, rxcap := s.rxcap }
    status := { s.status with done := false }
    result := {}
    bitcount := 0 }

/-- `accept` of a session command: the move to its first state. -/
def State.acceptSession (w : Word) (p : FsmState) (s : State) : State := (s.latch w).enter p

/-- `accept` of an exchange: RXCOUNT, FIFOSTAT and COLLPOS are cleared too, and X_PREDELAY is entered with
TMR = 0. -/
def State.acceptExchange (w : Word) (s : State) : State :=
  { s.latch w with rxcount := 0, fifostat := {}, collpos := {} }.enter .xPredelay

/-! ## Completion, and the five classes of abnormal outcome (R270) -/

/-- The SEQ step that completes a command (R38): RESULT, BITCOUNT and DONE are written in the step that moves
`pc` to IDLE or READY. -/
def State.finish (r : ResultReg) (b : Word) (p : FsmState) (s : State) : State :=
  { s.enter p with result := r, bitcount := b, status := { s.status with done := true } }

/-- `raise Err(code) [with TOSRC t]` (R279), class 1: nothing is saved, nothing restored, the session stays. -/
def State.raise (e : ExchangeError) (tosrc : Bool) (s : State) : State :=
  s.finish { err := e.code, kind := decide (e = .timeout), tosrc := tosrc, op := s.req.op } 0 .ready

/-- `complete(b)` (R254): an exchange ends without error, with bit count b. -/
def State.complete (b : Nat) (s : State) : State :=
  s.finish { op := s.req.op } (BitVec.ofNat 32 b) .ready

/-- `reject()` (R130, R273), class 3: CMDERR, and nothing else changes. -/
def State.reject (s : State) : State := { s with status := { s.status with cmderr := true } }

/-- A host write dropped while BUSY (R91, R274), class 4: ACCERR, and nothing else changes. -/
def State.dropWrite (s : State) : State := { s with status := { s.status with accerr := true } }

/-- The host bus answers an access (R83). -/
def State.respond (r : HostResponse) (s : State) : State := { s with responses := s.responses ++ [r] }

/-- A bus-error response (R85, R275), class 5: BUSERR, and nothing else changes. -/
def State.busFault (s : State) : State :=
  { s.respond .busError with status := { s.status with buserr := true } }

end Sys2Proof.Machine
end

