-- ==== Sys2Proof/Machine/Operands.lean ====
section
/-! DEFINITION. Operands: the buffers' bytes, the fields of a command word and of REQ, the acceptance
preconditions (30_encoding.md R122, R129), and the views of REQ the steps read (10_state.md R55). -/

namespace Sys2Proof.Machine

/-! ## Arithmetic of R9 -/

/-- `ceil_div(a, b)` (R9). -/
def ceilDiv (a b : Nat) : Nat := (a + b - 1) / b

/-- The low k bits of a byte, the mask `(1 << k) - 1` applied (R250). -/
def lowBits (k : Nat) (b : Byte) : Byte := b &&& BitVec.ofNat 8 (2 ^ k - 1)

/-- [TXBUF[0], ..., TXBUF[n - 1]]. -/
def State.txPrefix (s : State) (n : Nat) : List Byte := (List.range n).map s.txByte

/-! ## Chip answers within their widths (R8, R94; 93_implementation_defined.md P3)

The draw of a field of k bits is the low k bits of the answer (log 23). -/

/-- A FIFO_STATUS answer with CNT_HI cut to CNT_HI_BITS. -/
def FifoStatus.narrow (h : HwParams) (f : FifoStatus) : FifoStatus :=
  { f with cntHi := lowBits h.cntHiBits f.cntHi }

/-- A COLL_POS answer with CBYTE cut to CBYTE_BITS. -/
def CollPos.narrow (h : HwParams) (c : CollPos) : CollPos :=
  { c with cbyte := lowBits h.cbyteBits c.cbyte }

/-- The n bytes of a `FifoRead(n)`, in order of reception (R97). -/
def ChipAnswers.fifoBytes (a : ChipAnswers) (n : Nat) : List Byte :=
  (List.range n).map fun i => a.fifo.getD i 0

/-! ## Opcodes and the views of REQ (R55, R123) -/

def opSstart : BitVec 4 := 0x1
def opSstop : BitVec 4 := 0x2
def opReqa : BitVec 4 := 0x4
def opWupa : BitVec 4 := 0x5
def opAnticoll : BitVec 4 := 0x6
def opXchg : BitVec 4 := 0x7

/-- The four variants of a frame request (R134). -/
inductive Variant where
  | reqa | wupa | anticoll | xchg
  deriving DecidableEq, Repr

/-- The variant of the latched request; none while REQ.OP is no exchange's opcode. -/
def Request.variant (r : Request) : Option Variant :=
  if r.op = opReqa then some .reqa
  else if r.op = opWupa then some .wupa
  else if r.op = opAnticoll then some .anticoll
  else if r.op = opXchg then some .xchg
  else none

/-- REQ.ANTICOLL (R55). -/
abbrev Request.isAnticoll (r : Request) : Prop := r.op = opAnticoll

/-- REQ.RAW (R55, R241). -/
abbrev Request.isRaw (r : Request) : Prop := r.op = opReqa ∨ r.op = opWupa ∨ r.op = opAnticoll

/-- The frame-waiting time of step 6 in ms (R179). -/
def Request.fwtMs (r : Request) : Nat :=
  if r.op = opXchg then r.fwt.toNat else Config.fwtShortMs

/-- The length in bits of the frame that the chip sends for a request (R7, R173), without the CRC it appends itself.
REQA's and WUPA's comes from the chip's dedicated command; the other two are written to TX_NBITS. -/
def Request.frameBits (r : Request) : Variant → Nat
  | .reqa => Config.shortFrameBits
  | .wupa => Config.shortFrameBits
  | .anticoll => r.bits.toNat
  | .xchg => 8 * r.txlen.toNat

/-- FULL = bits / 8, the whole bytes of the anticollision prefix (R246). -/
def Request.fullBytes (r : Request) : Nat := r.bits.toNat / 8

/-- REM = bits % 8, its sub-byte bits (R246). -/
def Request.remBits (r : Request) : Nat := r.bits.toNat % 8

/-- COUNT of a snapshot (R187). -/
def FifoStatus.count (f : FifoStatus) : BitVec 16 :=
  BitVec.ofNat 16 (f.cntHi.toNat * 2 ^ Config.cntLoBits + f.cntLo.toNat)

/-! ## Acceptance preconditions (R129) -/

/-- SSTART's: BUSY = 0 and SESSION = 0. -/
abbrev State.acceptsStart (s : State) : Prop := s.busy = false ∧ s.session = false

/-- SSTOP's: BUSY = 0 and SESSION = 1. -/
abbrev State.acceptsStop (s : State) : Prop := s.busy = false ∧ s.session = true

/-- REQA's and WUPA's, and part of every exchange's: BUSY = 0, SESSION = 1, RXCAP.CAP <= RXBUF_SIZE. -/
abbrev State.acceptsExchange (s : State) : Prop :=
  s.busy = false ∧ s.session = true ∧ s.rxcap.toNat ≤ s.hw.rxbufSize

/-- ANTICOLL's: an exchange's, a legal bit count (R125), and
ceil_div(bits, 8) <= TXLEN.LEN <= TXBUF_SIZE. -/
abbrev State.acceptsAnticoll (s : State) (bits : BitVec 6) : Prop :=
  s.acceptsExchange ∧ bits.toNat ≤ Config.maxAnticollBits ∧ ceilDiv bits.toNat 8 ≤ s.txlen.toNat
    ∧ s.txlen.toNat ≤ s.hw.txbufSize

/-- XCHG's: an exchange's, and TXLEN.LEN <= TXBUF_SIZE. -/
abbrev State.acceptsXchg (s : State) : Prop := s.acceptsExchange ∧ s.txlen.toNat ≤ s.hw.txbufSize

end Sys2Proof.Machine
end

