-- ==== Sys2Proof/Machine/Exchange.lean ====
section
/-! DEFINITION. The exchange commands REQA, WUPA, ANTICOLL and XCHG: their acceptance (30_encoding.md R129, R130;
42_frames.md) and the SEQ steps 1-9 that run them (41_exchange_sequence.md). Step 10 is Extract.lean. -/

namespace Sys2Proof.Machine

/-! ## The CMD write of each command -/

/-- REQA (R220). -/
def execReqa (s : State) : Outcome :=
  .next (if s.acceptsExchange then s.acceptExchange (encode .reqa) else s.reject)

/-- WUPA (R221): accepted as REQA is; the two differ in the chip command of step 4. -/
def execWupa (s : State) : Outcome :=
  .next (if s.acceptsExchange then s.acceptExchange (encode .wupa) else s.reject)

/-- ANTICOLL bits (R222). -/
def execAnticoll (bits : BitVec 6) (s : State) : Outcome :=
  .next (if s.acceptsAnticoll bits then s.acceptExchange (encode (.anticoll bits)) else s.reject)

/-- XCHG fwt (R223). -/
def execXchg (fwt : BitVec 16) (s : State) : Outcome :=
  .next (if s.acceptsXchg then s.acceptExchange (encode (.xchg fwt)) else s.reject)

/-! ## Steps 1-4 -/

/-- X_PREDELAY (R171): hold, with no chip transaction, until T_IFS_MS has elapsed. -/
def seqPredelay (s : State) : Outcome :=
  if s.elapsed Config.tIfsMs then .next (s.enter .xReset) else .next s

/-- X_RESET (R172). -/
def seqReset (s : State) : Outcome :=
  match s.sub with
  | 0 => .next (s.perform (.cmd .stop)).nextSub
  | 1 => .next (s.perform (.cmd .resetRxGain)).nextSub
  | 2 => .next (s.irqClearAll.enter .xProgram)
  | _ => .fault .illegalSequencerState

/-- `FifoWrite([TXBUF[0], ..., TXBUF[n - 1]])`, not issued for n = 0 (R97, R175). -/
def fifoLoad (s : State) (n : Nat) : List ChipTxn :=
  if n = 0 then [] else [.fifoWrite (s.txPrefix n)]

/-- The framing and gain writes every variant ends step 3 with (R174, R175); SQUELCH_EN is 1 for all. -/
def framingWrites (raw antcl agc : Nat) : List ChipTxn :=
  [.write .raw raw, .write .antcl antcl, .write .agcEn agc, .write .squelchEn 1]

/-- The transactions of X_PROGRAM, in order (R173-R175). -/
def programTxns (s : State) : Variant → List ChipTxn
  | .reqa => framingWrites 1 0 1
  | .wupa => framingWrites 1 0 1
  | .anticoll =>
    .write .txNbits (s.req.frameBits .anticoll) :: fifoLoad s (ceilDiv s.req.bits.toNat 8) ++ framingWrites 1 1 0
  | .xchg =>
    .write .txNbits (s.req.frameBits .xchg) :: fifoLoad s s.req.txlen.toNat ++ framingWrites 0 0 1

/-- One transaction of a list, at position `sub`; the step that performs the last one moves on to p (R175). -/
def performAt (txns : List ChipTxn) (p : FsmState) (s : State) : Outcome :=
  match txns[s.sub]? with
  | none => .fault .illegalSequencerState
  | some t =>
    if s.sub + 1 = txns.length then .next ((s.perform t).enter p) else .next (s.perform t).nextSub

/-- X_PROGRAM (R175). -/
def seqProgram (s : State) : Outcome :=
  match s.req.variant with
  | none => .fault .illegalSequencerState
  | some v => performAt (programTxns s v) .xDispatch s

/-- The chip command of step 4 (R176). -/
def Variant.txCommand : Variant → ChipCmd
  | .reqa => .txReqa
  | .wupa => .txWupa
  | .anticoll => .txNoCrc
  | .xchg => .txCrc

/-- X_DISPATCH (R176): the transmit command; CACHE <- 0 without a chip transaction (R105). -/
def seqDispatch (s : State) : Outcome :=
  match s.req.variant with
  | none => .fault .illegalSequencerState
  | some v => .next ((s.perform (.cmd v.txCommand)).clearCache.enter .xTxwait)

/-! ## Steps 5-7 -/

/-- X_TXWAIT (R177): one evaluation; no deadline. An evaluation that stays leaves `sub` at 0 (DESIGN CHOICE, log 24). -/
def seqTxwait (a : ChipAnswers) (s : State) : Outcome :=
  let r := s.irqRefresh a.irq
  if r.cache.txe then .next (r.enter .xRxswait) else .next r

/-- X_RXSWAIT (R180): one evaluation; the condition is tested before the deadline. An evaluation that stays leaves
`sub` at 0 (DESIGN CHOICE, log 24). -/
def seqRxswait (a : ChipAnswers) (s : State) : Outcome :=
  let r := s.irqRefresh a.irq
  if r.cache.rxs then .next (r.enter .xPoll)
  else if r.elapsed r.req.fwtMs then .next (r.raise .timeout false)
  else .next r

/-- The checks of one X_POLL iteration after its `IrqRefresh`, in the source's order (R181-R184); `sub` 1 is
the Yield that follows an iteration that decided nothing. -/
def pollChecks (r : State) : State :=
  if r.cache.frm then r.raise .framing false
  else if r.cache.par then r.raise .parity false
  else if r.cache.crc then r.raise .crc false
  else if ¬ r.req.isAnticoll ∧ r.cache.col = true then r.raise .collision false
  else if r.cache.rxe then r.enter .xPostchk
  else if r.elapsed Config.tSafetyMs then r.raise .timeout true
  else r.nextSub

/-- X_POLL: an iteration (R181), or the Yield between two iterations (R185), which performs no transaction and
is of any length: it lasts until this turn of SEQ, however many ticks and host accesses come first (log 6). -/
def seqPoll (a : ChipAnswers) (s : State) : Outcome :=
  match s.sub with
  | 0 => .next (pollChecks (s.irqRefresh a.irq))
  | 1 => .next { s with sub := 0 }
  | _ => .fault .illegalSequencerState

/-! ## Steps 8 and 9 -/

/-- `ChipRead(FIFO_STATUS)` with the answer f: SNAP, shown in FIFOSTAT (R186). -/
def State.takeSnapshot (f : FifoStatus) (s : State) : State :=
  { s.perform (.readFifoStatus f) with
    work := { s.work with snap := f }
    fifostat := { snap := f, valid := true } }

/-- X_POSTCHK (R186): the one FIFO_STATUS read of an exchange and its three checks. -/
def seqPostchk (a : ChipAnswers) (s : State) : Outcome :=
  let f := a.fifoStatus.narrow s.hw
  let r := s.takeSnapshot f
  if f.ovr then .next (r.raise .fifoOverflow false)
  else if f.unf then .next (r.raise .fifoUnderflow false)
  else if f.nplb then .next (r.raise .framingLastByteMissingParity false)
  else .next (r.enter .xCount)

/-- COUNT from the same snapshot (R188), shown in RXCOUNT. -/
def State.composeCount (s : State) : State :=
  { s with
    work := { s.work with count := s.work.snap.count }
    rxcount := s.work.snap.count }

/-- X_COUNT (R187): no transaction. -/
def seqCount (s : State) : Outcome := .next (s.composeCount.enter .xExtract)

end Sys2Proof.Machine
end

