-- ==== Sys2Proof/Machine/Session.lean ====
section
/-! DEFINITION. The session commands SSTART and SSTOP: their acceptance (30_encoding.md R129, R130) and the SEQ
steps that run them (40_session.md). -/

namespace Sys2Proof.Machine

/-- SSTART (R150): the CMD write of its word. Accepted with BUSY = 0 and SESSION = 0, else rejected. -/
def execSstart (s : State) : Outcome :=
  .next (if s.acceptsStart then s.acceptSession (encode .sstart) .sMode else s.reject)

/-- SSTOP (R154): the CMD write of its word. Accepted with BUSY = 0 and SESSION = 1, else rejected. -/
def execSstop (s : State) : Outcome :=
  .next (if s.acceptsStop then s.acceptSession (encode .sstop) .tStop else s.reject)

/-- S_MODE (R151): one `ModeOn()`. -/
def seqMode (s : State) : Outcome := .next ((s.perform .modeOn).enter .sField)

/-- S_FIELD (R152): `FieldOn()`; a collision is followed by one `ModeOff()` and completes SSTART with
FieldCollision. -/
def seqField (a : ChipAnswers) (s : State) : Outcome :=
  match s.sub with
  | 0 =>
    match a.field with
    | .ok => .next ((s.perform (.fieldOn .ok)).enter .sGuard)
    | .fieldCollision => .next (s.perform (.fieldOn .fieldCollision)).nextSub
  | 1 => .next ((s.perform .modeOff).finish { serr := serrFieldCollision, op := opSstart } 0 .idle)
  | _ => .fault .illegalSequencerState

/-- S_GUARD (R153): hold until T_GUARD_MS has elapsed, then the session is open and SSTART completes. -/
def seqGuard (s : State) : Outcome :=
  if s.elapsed Config.tGuardMs then .next ((s.setSession true).finish { op := opSstart } 0 .ready)
  else .next s

/-- T_STOP (R155, R156): `FieldOff()`, then `ModeOff()` in the step that closes the session. -/
def seqStop (s : State) : Outcome :=
  match s.sub with
  | 0 => .next (s.perform .fieldOff).nextSub
  | 1 => .next (((s.perform .modeOff).setSession false).finish { op := opSstop } 0 .idle)
  | _ => .fault .illegalSequencerState

end Sys2Proof.Machine
end

