-- ==== Sys2Proof/Machine/Dispatch.lean ====
section
/-! DEFINITION. The meaning of each command word: what its write to CMD does, in one atomic step
(30_encoding.md R127). -/

namespace Sys2Proof.Machine

-- An accepted command is then run by turns of SEQ (Machine/Sequencer.lean).
def exec (i : Instr) (s : State) : Host.Outcome State Fault Refusal :=
  match i with
  | .sstart => Sys2Proof.Machine.execSstart s
  | .sstop => Sys2Proof.Machine.execSstop s
  | .reqa => Sys2Proof.Machine.execReqa s
  | .wupa => Sys2Proof.Machine.execWupa s
  | .anticoll bits => Sys2Proof.Machine.execAnticoll bits s
  | .xchg fwt => Sys2Proof.Machine.execXchg fwt s

end Sys2Proof.Machine
end

