-- ==== Sys2Proof/Machine/HostBus.lean ====
section
/-! DEFINITION. The host bus (20_memory.md R83-R91): the register map (10_state.md R35), the buffer windows, and
the write of a command word (30_encoding.md R127). -/

namespace Sys2Proof.Machine

/-! ## Offsets (R35, R84) -/

def offCmd : Nat := 0x000
def offStatus : Nat := 0x004
def offResult : Nat := 0x008
def offBitcount : Nat := 0x00C
def offTxlen : Nat := 0x010
def offRxcap : Nat := 0x014
def offIrqen : Nat := 0x018
def offRxcount : Nat := 0x01C
def offIrqcache : Nat := 0x020
def offFifostat : Nat := 0x024
def offCollpos : Nat := 0x028
def offHwcfg : Nat := 0x02C
def txWindow : Nat := 0x1000
def rxWindow : Nat := 0x2000
def windowEnd : Nat := 0x3000

/-- The host bus address of an offset (R35, R80). -/
def HwParams.address (h : HwParams) (off : BitVec 14) : Nat := h.base + off.toNat

/-- The offset that a host bus address selects: none outside the 14-bit space from BASE (R80). -/
def HwParams.offsetAt (h : HwParams) (a : Nat) : Option (BitVec 14) :=
  if h.base ≤ a ∧ a < h.base + 2 ^ 14 then some (BitVec.ofNat 14 (a - h.base)) else none

/-! ## Reads: none has a side effect (R89) -/

/-- A register's word (R35); CMD (R36) and every reserved offset (R88) read 0. -/
def State.readReg (s : State) (off : Nat) : Word :=
  if off = offStatus then s.statusWord
  else if off = offResult then s.result.word
  else if off = offBitcount then s.bitcount
  else if off = offTxlen then s.txlen.setWidth 32
  else if off = offRxcap then s.rxcap.setWidth 32
  else if off = offIrqen then s.irqen.word
  else if off = offRxcount then s.rxcount.setWidth 32
  else if off = offIrqcache then s.cache.setWidth 32
  else if off = offFifostat then s.fifostat.word
  else if off = offCollpos then s.collpos.word
  else if off = offHwcfg then s.hw.word
  else 0

/-- A byte of the windows and of the reserved space above them (R81, R82, R87, R88). -/
def State.windowByte (s : State) (off : Nat) : Byte :=
  if off < txWindow then 0
  else if off < rxWindow then s.txByte (off - txWindow)
  else if off < windowEnd then s.rxByte (off - rxWindow)
  else 0

/-- A 4-byte read at an aligned offset (R35, R86). -/
def State.readWordAt (s : State) (off : Nat) : Word :=
  if off < txWindow then s.readReg off
  else wordOfBytes (s.windowByte off) (s.windowByte (off + 1)) (s.windowByte (off + 2)) (s.windowByte (off + 3))

/-! ## Writes -/

/-- A word written to CMD (R127): decoded, then accepted or rejected. -/
def issueCommand (w : Word) (s : State) : Outcome :=
  match decode w with
  | .instr i => exec i s
  | .illegal _ => .next s.reject

/-- A write that is dropped with ACCERR while BUSY = 1 (R91). -/
def State.unlessBusy (s t : State) : State := if s.busy then s.dropWrite else t

/-- A 4-byte write to a register (R35-R47); read-only registers (R53) and reserved offsets (R88) ignore it. -/
def writeReg (off : Nat) (v : Word) (s : State) : Outcome :=
  if off = offCmd then issueCommand v s
  else if off = offStatus then .next (s.clearStatus v)
  else if off = offTxlen then .next (s.unlessBusy (s.setTxlen v))
  else if off = offRxcap then .next (s.unlessBusy (s.setRxcap v))
  else if off = offIrqen then .next (s.setIrqen v)
  else .next s

/-- Bytes written to the windows or the reserved space above them (R81, R82, R86-R88, R91). -/
def writeWindow (off : Nat) (bs : List Byte) (s : State) : State :=
  if off < rxWindow then
    s.unlessBusy (s.txStore (off - txWindow) bs)
  else if off < windowEnd then
    s.unlessBusy (s.rxStore (off - rxWindow) bs)
  else s

/-- A 4-byte access must be aligned, a 1-byte access must not be to register space (R85). -/
def HostAccess.refusedByBus : HostAccess → Bool
  | .readByte off => decide (off.toNat < txWindow)
  | .writeByte off _ => decide (off.toNat < txWindow)
  | .readWord off => decide (off.toNat % 4 ≠ 0)
  | .writeWord off _ => decide (off.toNat % 4 ≠ 0)

/-- One host-bus access, one atomic step (R83, R90). -/
def hostStep (a : HostAccess) (s : State) : Outcome :=
  if a.refusedByBus then .next s.busFault
  else match a with
    | .readByte off => .next (s.respond (.byte (s.windowByte off.toNat)))
    | .readWord off => .next (s.respond (.word (s.readWordAt off.toNat)))
    | .writeByte off v => .next (writeWindow off.toNat [v] (s.respond .done))
    | .writeWord off v =>
      if off.toNat < txWindow then writeReg off.toNat v (s.respond .done)
      else .next (writeWindow off.toNat (bytesOfWord v) (s.respond .done))

end Sys2Proof.Machine
end

