-- ==== Sys2Proof/Machine/Extract.lean ====
section
/-! DEFINITION. Step 10, the FIFO read sequencer (43_fifo_read.md): the bit-exact extraction of the response. -/

namespace Sys2Proof.Machine

/-! ## Non-anticollision branch (R241-R245) -/

/-- `N <- n` (R242, R249). -/
def State.setN (n : BitVec 16) (s : State) : State := { s with work := { s.work with n := n } }

/-- The (CRC-stripped) byte count N of R242; the subtraction is only reached with COUNT >= 2 (R257). -/
def plainLength (s : State) : BitVec 16 :=
  if s.req.isRaw then s.work.count else s.work.count - BitVec.ofNat 16 Config.crcLen

/-- CRC strip and capacity check, X_EXTRACT sub 0 (R242, R243): before any FIFO read and any RXBUF write. N is
written before it is compared, as the pseudocode has it (log 21). -/
def plainCheck (s : State) : State :=
  if ¬ s.req.isRaw ∧ s.work.count.toNat < Config.crcLen then s.raise .responseTooShort false
  else if s.req.rxcap.toNat < (plainLength s).toNat then
    (s.setN (plainLength s)).raise .responseTooLong false
  else (s.setN (plainLength s)).nextSub

/-- `FifoRead(n)` with its bytes stored in RXBUF from an index up; n = 0 issues nothing (R97, R244, R249). -/
def fifoReadTo (a : ChipAnswers) (n i : Nat) (s : State) : State :=
  if n = 0 then s else (s.perform (.fifoRead n (a.fifoBytes n))).rxStore i (a.fifoBytes n)

/-- X_EXTRACT of REQA, WUPA and XCHG. -/
def extractPlain (a : ChipAnswers) (s : State) : Outcome :=
  match s.sub with
  | 0 => .next (plainCheck s)
  | 1 => .next (fifoReadTo a s.work.n.toNat 0 s).nextSub
  | 2 => .next (s.complete (8 * s.work.n.toNat))
  | _ => .fault .illegalSequencerState

/-! ## Anticollision branch (R246-R253) -/

/-- The bytes step 10 writes: FULL + max(COUNT, (REM != 0) ? 1 : 0) (R247). -/
def anticollNeed (full rem count : Nat) : Nat := full + max count (if rem ≠ 0 then 1 else 0)

/-- Prefix split (R246): FULL and REM. -/
def State.splitPrefix (s : State) : State :=
  { s with work := { s.work with
      full := BitVec.ofNat 3 s.req.fullBytes
      rem := BitVec.ofNat 3 s.req.remBits } }

/-- Prefix split and capacity check, X_EXTRACT sub 0 (R246, R247). -/
def anticollCheck (s : State) : State :=
  if s.req.rxcap.toNat < anticollNeed s.req.fullBytes s.req.remBits s.work.count.toNat then
    s.splitPrefix.raise .responseTooLong false
  else s.splitPrefix.nextSub

/-- Prefix copy, X_EXTRACT sub 1 (R248). -/
def prefixCopy (s : State) : State := s.rxStore 0 (s.txPrefix s.work.full.toNat)

/-- FIFO read after the prefix, X_EXTRACT sub 2 (R249). -/
def anticollRead (a : ChipAnswers) (s : State) : State :=
  (fifoReadTo a s.work.count.toNat s.work.full.toNat s).setN s.work.count

/-- Partial-byte merge, X_EXTRACT sub 3 (R250): the low REM bits of TXBUF[FULL] are ORed in. -/
def partialMerge (s : State) : State :=
  if s.work.rem = 0 then s
  else
    let i := s.work.full.toNat
    s.rxStore i [s.rxByte i ||| lowBits s.work.rem.toNat (s.txByte i)]

/-- `ChipRead(COLL_POS)` with the answer p: CPOS, shown in COLLPOS (R252). -/
def State.takeCollPos (p : CollPos) (s : State) : State :=
  { s.perform (.readCollPos p) with
    work := { s.work with cpos := p }
    collpos := { pos := p, valid := true } }

/-- Collision test and position read, X_EXTRACT sub 4 (R251-R253). -/
def collisionRead (a : ChipAnswers) (s : State) : State :=
  if s.cache.col then s.takeCollPos (a.collPos.narrow s.hw) else s

/-- The bit count b of sub 4 (R252, R253), recomputed in sub 5 from registers nothing changes in between
(log 9). -/
def anticollBitCount (s : State) : Nat :=
  if s.cache.col then 8 * s.work.cpos.cbyte.toNat + s.work.cpos.cbit.toNat
  else 8 * s.work.full.toNat + 8 * s.work.count.toNat

/-- X_EXTRACT of ANTICOLL. -/
def extractAnticoll (a : ChipAnswers) (s : State) : Outcome :=
  match s.sub with
  | 0 => .next (anticollCheck s)
  | 1 => .next (prefixCopy s).nextSub
  | 2 => .next (anticollRead a s).nextSub
  | 3 => .next (partialMerge s).nextSub
  | 4 => .next (collisionRead a s).nextSub
  | 5 => .next (s.complete (anticollBitCount s))
  | _ => .fault .illegalSequencerState

/-- X_EXTRACT (R240). -/
def seqExtract (a : ChipAnswers) (s : State) : Outcome :=
  if s.req.isAnticoll then extractAnticoll a s else extractPlain a s

end Sys2Proof.Machine
end

