-- ==== Sys2Proof/Machine/Sequencer.lean ====
section
/-! DEFINITION. One turn of SEQ (00_scope.md R6; 10_state.md R31, R32). -/

namespace Sys2Proof.Machine

/-- The SEQ step of the state `pc`; "SEQ has no step in IDLE or READY" (R32): its turn passes without effect
(log 17). -/
def seqStep (a : ChipAnswers) (s : State) : Outcome :=
  match s.pc with
  | .idle => .next s
  | .sMode => seqMode s
  | .sField => seqField a s
  | .sGuard => seqGuard s
  | .ready => .next s
  | .xPredelay => seqPredelay s
  | .xReset => seqReset s
  | .xProgram => seqProgram s
  | .xDispatch => seqDispatch s
  | .xTxwait => seqTxwait a s
  | .xRxswait => seqRxswait a s
  | .xPoll => seqPoll a s
  | .xPostchk => seqPostchk a s
  | .xCount => seqCount s
  | .xExtract => seqExtract a s
  | .tStop => seqStop s

end Sys2Proof.Machine
end

