-- ==== Sys2Proof/Machine/Events.lean ====
section
/-! DEFINITION. The agents of 00_scope.md R6 taking turns: which event comes next, and what each does. -/

namespace Sys2Proof.Machine

/-- A step with `rst` active (70_reset_and_hazards.md R310): every register at its reset value, no chip-port
transaction, no teardown (R311). The buffers come up with whatever contents the event brings (R59). The
parameters, the two observation logs and the events to come are not registers and stay (log 13). -/
def State.resetStep (tx rx : List Byte) (s : State) : State :=
  { State.reset with
    hw := s.hw
    txbuf := bufWriteList s.hw.txbufSize [] 0 tx
    rxbuf := bufWriteList s.hw.rxbufSize [] 0 rx
    trace := s.trace
    responses := s.responses
    inputs := s.inputs
    draws := s.draws }

/-- One event, one atomic step of one agent (R100). -/
def deliver (e : Event) (s : State) : Outcome :=
  match e with
  | .host a => hostStep a s
  | .seq a => seqStep a s
  | .tick => .next s.tick
  | .rst tx rx => .next (s.resetStep tx rx)

/-- The event that comes next: the first known one, else a free one (log 3). -/
def State.nextEvent (s : State) : Event :=
  match s.inputs with
  | e :: _ => e
  | [] => Config.freeEvent s.draws

/-- The state once its next event is taken. -/
def State.consume (s : State) : State :=
  match s.inputs with
  | _ :: es => { s with inputs := es }
  | [] => { s with draws := s.draws + 1 }

/-- The host access that presents a command word: a 4-byte write to CMD (R120). -/
def commandEvent (w : Word) : Event := .host (.writeWord (BitVec.ofNat 14 offCmd) w)

end Sys2Proof.Machine
end

