-- ==== Sys2Proof/Machine/Step.lean ====
section
/-! DEFINITION. The step of the machine: the next event of the one total order (20_memory.md R100). -/

namespace Sys2Proof.Machine

/-- One step. -/
def step (s : State) : Host.Outcome State Fault Refusal := deliver s.nextEvent s.consume

/-- The state whose very next step is the host's write of the command word w to CMD (log 5). -/
def State.withFetchWord (s : State) (nbits w : Nat) : State :=
  { s with inputs := commandEvent (tableWord nbits w) :: s.inputs }

end Sys2Proof.Machine
end

