-- ==== Sys2Proof/Safety.lean ====
section
/-! DEFINITION. What statements about the FTS are said in: runs over given events, the legal states and the
rules they rest on, the environment obligations (60_exceptions.md R289), and chip scripts
(95_test_vectors.md). Nothing here is used by the step. -/

namespace Sys2Proof.Machine

/-! ## Runs -/

/-- The machine's steps while the outside world does exactly the given events, stopping at a fault. -/
def runEvents : List Event → State → Outcome
  | [], s => .next s
  | e :: es, s =>
    match step { s with inputs := e :: es } with
    | .next t => runEvents es t
    | .fault r => .fault r
    | .refused r => .refused r

/-- n turns of SEQ in which the chip has nothing to report. -/
def quietTurns (n : Nat) : List Event := List.replicate n (.seq {})

/-- n edges of `tick`. -/
def ticks (n : Nat) : List Event := List.replicate n .tick

/-- Not a host access. -/
def Event.notHost : Event → Bool
  | .host _ => false
  | _ => true

/-- Not a reset. -/
def Event.notReset : Event → Bool
  | .rst _ _ => false
  | _ => true

/-- A turn of SEQ, an edge of `tick` or a host read: nothing that launches a command, writes a buffer or
resets. -/
def Event.passive : Event → Bool
  | .seq _ => true
  | .tick => true
  | .host (.readByte _) => true
  | .host (.readWord _) => true
  | _ => false

/-- What a running command depends on and acts on: all of the state but STATUS's own bits, IRQEN, the host
bus's responses and the events to come. -/
def State.commandPart (s : State) : State :=
  { s with status := {}, irqen := {}, responses := [], inputs := [], draws := 0 }

/-! ## Acceptance, as R129's table has it -/

/-- The preconditions of R129, with the bit count of R125. -/
def preconditions (s : State) : Instr → Prop
  | .sstart => s.busy = false ∧ s.session = false
  | .sstop => s.busy = false ∧ s.session = true
  | .reqa => s.busy = false ∧ s.session = true ∧ s.rxcap.toNat ≤ s.hw.rxbufSize
  | .wupa => s.busy = false ∧ s.session = true ∧ s.rxcap.toNat ≤ s.hw.rxbufSize
  | .anticoll bits => s.busy = false ∧ s.session = true ∧ s.rxcap.toNat ≤ s.hw.rxbufSize
      ∧ bits.toNat ≤ 40 ∧ (bits.toNat + 7) / 8 ≤ s.txlen.toNat ∧ s.txlen.toNat ≤ s.hw.txbufSize
  | .xchg _ => s.busy = false ∧ s.session = true ∧ s.rxcap.toNat ≤ s.hw.rxbufSize
      ∧ s.txlen.toNat ≤ s.hw.txbufSize

/-! ## Classes of `pc` -/

/-- SSTART is executing. -/
def FsmState.opening : FsmState → Bool
  | .sMode => true
  | .sField => true
  | .sGuard => true
  | _ => false

/-- An exchange is executing (R170). -/
def FsmState.exchange : FsmState → Bool
  | .xPredelay => true
  | .xReset => true
  | .xProgram => true
  | .xDispatch => true
  | .xTxwait => true
  | .xRxswait => true
  | .xPoll => true
  | .xPostchk => true
  | .xCount => true
  | .xExtract => true
  | _ => false

/-- The states of R30 in which a session is open. -/
def FsmState.inSession : FsmState → Bool
  | .ready => true
  | .tStop => true
  | p => p.exchange

/-- Where `pc` may move from each state (R32, R150, R154, R170, R279). -/
def FsmState.successors : FsmState → List FsmState
  | .idle => [.sMode]
  | .sMode => [.sField]
  | .sField => [.sGuard, .idle]
  | .sGuard => [.ready]
  | .ready => [.xPredelay, .tStop]
  | .xPredelay => [.xReset]
  | .xReset => [.xProgram]
  | .xProgram => [.xDispatch]
  | .xDispatch => [.xTxwait]
  | .xTxwait => [.xRxswait]
  | .xRxswait => [.xPoll, .ready]
  | .xPoll => [.xPostchk, .ready]
  | .xPostchk => [.xCount, .ready]
  | .xCount => [.xExtract]
  | .xExtract => [.ready]
  | .tStop => [.idle]

/-! ## Legal states -/

/-- The ranges of R8. -/
abbrev HwParams.ok (h : HwParams) : Prop :=
  (5 ≤ h.txbufSize ∧ h.txbufSize ≤ 4096) ∧ (5 ≤ h.rxbufSize ∧ h.rxbufSize ≤ 4096) ∧ 1 ≤ h.fifoSize
    ∧ (1 ≤ h.cntHiBits ∧ h.cntHiBits ≤ 8) ∧ (3 ≤ h.cbyteBits ∧ h.cbyteBits ≤ 8)
    ∧ 8 * h.txbufSize ≤ 2 ^ h.txNbitsBits - 1 ∧ h.tickPeriodUs = 1000 ∧ 0 < h.pollIntervalUs

/-- No cell lies at or above the buffer's size (R81, R82). -/
abbrev Memory.within (size : Nat) (m : Memory) : Prop := ∀ c ∈ m, c.1 < size

/-- Both buffers are in canonical form and inside their sizes. -/
abbrev State.BuffersOk (s : State) : Prop :=
  s.txbuf.wf ∧ s.txbuf.within s.hw.txbufSize ∧ s.rxbuf.wf ∧ s.rxbuf.within s.hw.rxbufSize

/-- How many positions `sub` has in the present state (R31); one in X_TXWAIT and X_RXSWAIT, whose evaluations
have no positions in R177 and R180 (log 24), and the Yield's besides the iteration's in X_POLL (log 6). -/
def State.subCount (s : State) : Nat :=
  match s.pc with
  | .sField => 2
  | .xReset => 3
  | .xProgram =>
    match s.req.variant with
    | none => 0
    | some v => (programTxns s v).length
  | .xPoll => 2
  | .xExtract => if s.req.isAnticoll then 6 else 3
  | .tStop => 2
  | _ => 1

/-- REQ is the request of the executing command, within the limits its acceptance checked (R55, R129). -/
abbrev State.RequestOk (s : State) : Prop :=
  (s.pc.opening = true → s.req.op = opSstart) ∧ (s.pc = .tStop → s.req.op = opSstop)
    ∧ (s.pc.exchange = true →
        s.req.variant ≠ none ∧ s.req.rxcap.toNat ≤ s.hw.rxbufSize
        ∧ (s.req.variant = some .anticoll →
            s.req.bits.toNat ≤ 40 ∧ ceilDiv s.req.bits.toNat 8 ≤ s.req.txlen.toNat
              ∧ s.req.txlen.toNat ≤ s.hw.txbufSize)
        ∧ (s.req.variant = some .xchg → s.req.txlen.toNat ≤ s.hw.txbufSize))

/-- RESULT, BITCOUNT and DONE: clear while a command runs (R313), and RESULT only ever holds what R131, R132,
R276 and R44 allow. -/
abbrev State.ResultOk (s : State) : Prop :=
  (s.busy = true → s.result = {} ∧ s.bitcount = 0 ∧ s.status.done = false)
    ∧ s.result.err.toNat ≤ 10 ∧ s.result.serr.toNat ≤ 1
    ∧ s.result.kind = decide (s.result.err = 1)
    ∧ (s.result.tosrc = true → s.result.err = 1)
    ∧ (s.result.err ≠ 0 ∨ s.result.serr ≠ 0 → s.bitcount = 0)

/-- CNT_HI and CBYTE stay within CNT_HI_BITS and CBYTE_BITS (R50, R51, R58). -/
abbrev State.WidthsOk (s : State) : Prop :=
  s.fifostat.snap.cntHi.toNat < 2 ^ s.hw.cntHiBits ∧ s.work.snap.cntHi.toNat < 2 ^ s.hw.cntHiBits
    ∧ s.collpos.pos.cbyte.toNat < 2 ^ s.hw.cbyteBits ∧ s.work.cpos.cbyte.toNat < 2 ^ s.hw.cbyteBits

/-- After step 8 the snapshot is clean and shown in FIFOSTAT (R186); after step 9 COUNT is the snapshot's and
shown in RXCOUNT (R187). -/
abbrev State.SnapshotOk (s : State) : Prop :=
  (s.pc = .xCount ∨ s.pc = .xExtract →
      s.fifostat = { snap := s.work.snap, valid := true }
        ∧ s.work.snap.ovr = false ∧ s.work.snap.unf = false ∧ s.work.snap.nplb = false)
    ∧ (s.pc = .xExtract → s.work.count = s.work.snap.count ∧ s.rxcount = s.work.count)

/-- Past the checks of step 10, what it will write fits the receive capacity (R242, R243, R246, R247). -/
abbrev State.ExtractOk (s : State) : Prop :=
  s.pc = .xExtract → 1 ≤ s.sub →
    if s.req.isAnticoll then
      s.work.full.toNat = s.req.fullBytes ∧ s.work.rem.toNat = s.req.remBits
        ∧ anticollNeed s.req.fullBytes s.req.remBits s.work.count.toNat ≤ s.req.rxcap.toNat
    else
      s.work.n.toNat = (if s.req.isRaw then s.work.count.toNat else s.work.count.toNat - 2)
        ∧ (¬ s.req.isRaw → 2 ≤ s.work.count.toNat) ∧ s.work.n.toNat ≤ s.req.rxcap.toNat

/-- The states a run can be in: the invariant of the machine. Its ranges of `sub` rest on log 6 and log 24, and the
canonical form of the buffers is the model's. -/
abbrev State.Legal (s : State) : Prop :=
  s.hw.ok ∧ s.BuffersOk ∧ s.session = s.pc.inSession ∧ s.sub < s.subCount ∧ s.RequestOk ∧ s.ResultOk
    ∧ s.WidthsOk ∧ s.SnapshotOk ∧ s.ExtractOk

/-! ## The field, as the trace tells it (R155, R157) -/

/-- How often the field was turned on. -/
def State.fieldOns (s : State) : Nat := s.trace.count (.fieldOn .ok)

/-- How often the field was turned off. -/
def State.fieldOffs (s : State) : Nat := s.trace.count .fieldOff

/-- The field has been turned on and its `FieldOff` is still due. -/
abbrev State.releaseDue (s : State) : Prop :=
  s.pc = .sGuard ∨ (s.session = true ∧ ¬ (s.pc = .tStop ∧ 1 ≤ s.sub))

/-- Every `FieldOff` answers a `FieldOn` of its own (R157). -/
abbrev State.ReleaseLedger (s : State) : Prop :=
  s.fieldOffs + (if s.releaseDue then 1 else 0) ≤ s.fieldOns

/-! ## The platform: the chip's field across events, and across reset (R310, R311) -/

/-- Whether the chip's field is on after some transactions, if it was `on` before them. -/
def fieldAfter (on : Bool) : List ChipTxn → Bool
  | [] => on
  | .fieldOn .ok :: xs => fieldAfter true xs
  | .fieldOff :: xs => fieldAfter false xs
  | _ :: xs => fieldAfter on xs

/-- The field goes from f to f' across an event from s to t: as the event's transactions say, and over `rst` to any
value, for the FTS does no teardown and the field is unknown after reset (R311). -/
abbrev FieldMay (e : Event) (s t : State) (f f' : Bool) : Prop :=
  e.notReset = true → f' = fieldAfter f (t.trace.drop s.trace.length)

/-- PLATFORM OBLIGATION of R310, a premise a claim names when it uses it (R311): the platform resets or powers down
the chip together with the FTS, so the field is off after `rst` (log 25). -/
abbrev PlatformResetsChip (e : Event) (f' : Bool) : Prop := e.notReset = false → f' = false

/-- The field is on exactly while its `FieldOff` is due. -/
abbrev State.FieldAsDue (s : State) (f : Bool) : Prop := f = decide s.releaseDue

/-! ## Environment obligations (R289), and the one on a Yield's length (R185) -/

/-- Everything that happens, event by event, each at its time in microseconds. -/
abbrev Timeline := Nat → Nat × Event

/-- The first n events of a timeline. -/
def Timeline.events (σ : Timeline) (n : Nat) : List Event := (List.range n).map fun i => (σ i).2

/-- The machine's steps from s while the first n events of a timeline happen, one after the other. -/
def Timeline.run (σ : Timeline) (s : State) : Nat → Outcome
  | 0 => .next s
  | n + 1 =>
    match σ.run s n with
    | .next t => runEvents [(σ n).2] t
    | .fault r => .fault r
    | .refused r => .refused r

/-- In the run from s, event n performs the transaction x. -/
def Timeline.performs (σ : Timeline) (s : State) (n : Nat) (x : ChipTxn) : Prop :=
  ∃ t u, σ.run s n = .next t ∧ σ.run s (n + 1) = .next u ∧ u.trace = t.trace ++ [x]

/-- The transmit commands of R95. -/
def ChipCmd.transmits : ChipCmd → Bool
  | .txReqa => true
  | .txWupa => true
  | .txNoCrc => true
  | .txCrc => true
  | .stop => false
  | .resetRxGain => false

/-- ENV1: after each transmit command of the run from s some later `IrqRefresh` reports TXE, unless a reset ends the
wait (log 26). -/
def Env1 (s : State) (σ : Timeline) : Prop :=
  ∀ n c, σ.performs s n (.cmd c) → c.transmits = true →
    ∃ m, n < m ∧ ((σ m).2.notReset = false ∨ ∃ l : IrqFlags, l.txe = true ∧ σ.performs s m (.irqRefresh l))

/-- ENV2: `tick` edges keep arriving, one per TICK_PERIOD. Times do not go back, and every stretch of time of one
TICK_PERIOD, from time 0 on and however late, holds exactly one edge. -/
def Env2 (h : HwParams) (σ : Timeline) : Prop :=
  (∀ n, (σ n).1 ≤ (σ (n + 1)).1)
    ∧ ∀ a, ∃! n, (σ n).2 = .tick ∧ a ≤ (σ n).1 ∧ (σ n).1 < a + h.tickPeriodUs

/-- A turn of SEQ at time b that ends the Yield begun at time a comes at least POLL_INTERVAL later (R185). No
statement needs it: the statements hold for Yields of any length (log 6). -/
abbrev YieldLasts (s : State) (a b : Nat) : Prop := s.pc = .xPoll → s.sub = 1 → a + s.hw.pollIntervalUs ≤ b

/-- A chip as the environment of an FTS, for the obligations that speak of it: any states and moves (log 26). -/
structure Chip where
  /-- The chip's own states. -/
  St : Type
  /-- A move of its own, between transactions: it receives a byte, latches a flag. -/
  acts : St → St → Prop
  /-- It takes a transaction, with the answer recorded in it, and is then in the second state. -/
  answers : St → ChipTxn → St → Prop
  /-- The bytes received and not yet read, oldest first. -/
  rxFifo : St → List Byte

/-- The chip goes from one state to another while it takes exactly the given transactions, in order. -/
def Chip.runs (k : Chip) : k.St → List ChipTxn → k.St → Prop
  | c, [], d => Relation.ReflTransGen k.acts c d
  | c, x :: xs, d => ∃ a b, Relation.ReflTransGen k.acts c a ∧ k.answers a x b ∧ k.runs b xs d

/-- The chip goes from c to d across a step of the FTS from s to t. -/
def Chip.follows (k : Chip) (s t : State) (c d : k.St) : Prop := k.runs c (t.trace.drop s.trace.length) d

/-- Two transactions ask for the same: they differ at most in the answer. -/
def ChipTxn.sameRequest : ChipTxn → ChipTxn → Prop
  | .readFifoStatus _, .readFifoStatus _ => True
  | .readCollPos _, .readCollPos _ => True
  | .fifoRead n _, .fifoRead m _ => n = m
  | .irqRefresh _, .irqRefresh _ => True
  | .fieldOn _, .fieldOn _ => True
  | x, y => x = y

/-- ENV3: `ChipCmd(STOP)` leaves the chip's FIFO with no byte of an earlier exchange: empty, since the current one has
received nothing yet (92_eei_decisions.md D32). -/
def Chip.Env3 (k : Chip) : Prop := ∀ c d : k.St, k.answers c (.cmd .stop) d → k.rxFifo d = []

/-- ENV4: every transaction but `FieldOn` succeeds, whatever state the chip is in; and what the chip does after step 3
depends on the values written and not on the order of the step-3 transactions: it takes the same transactions, with
the same answers, after any other order. -/
def Chip.Env4 (k : Chip) : Prop :=
  (∀ (c : k.St) (x : ChipTxn), ¬ x.sameRequest (.fieldOn .ok) →
      ∃ (y : ChipTxn) (d : k.St), x.sameRequest y ∧ k.answers c y d)
    ∧ ∀ (s : State) (v : Variant) (ys zs : List ChipTxn) (c : k.St), ys.Perm (programTxns s v) →
      ((∃ d, k.runs c (programTxns s v ++ zs) d) ↔ ∃ d, k.runs c (ys ++ zs) d)

/-- ENV5: COUNT <= FIFO_SIZE; a FIFO_STATUS answer is one consistent snapshot, its count the bytes in the FIFO at that
one transaction (a COLLPOS answer is one record already); `FifoRead(n)` returns n bytes, those received first, in order
of reception, and takes them out. The FTS checks none of this (R187). -/
def Chip.Env5 (k : Chip) (h : HwParams) : Prop :=
  (∀ (c : k.St) (f : FifoStatus) (d : k.St), k.answers c (.readFifoStatus f) d →
      f.count.toNat ≤ h.fifoSize ∧ f.count.toNat = (k.rxFifo c).length ∧ k.rxFifo d = k.rxFifo c)
    ∧ ∀ (c : k.St) (n : Nat) (bs : List Byte) (d : k.St), k.answers c (.fifoRead n bs) d → n ≤ (k.rxFifo c).length →
      bs = (k.rxFifo c).take n ∧ k.rxFifo d = (k.rxFifo c).drop n

/-! ## Chip scripts -/

/-- The answers of CHIP in one exchange whose three waits each end at their first refresh
(95_test_vectors.md "CHIP script"). -/
structure ChipScript where
  txEnd   : IrqFlags
  rxStart : IrqFlags
  rxEnd   : IrqFlags
  status  : FifoStatus := {}
  fifo    : List Byte := []
  collPos : CollPos := {}
  deriving DecidableEq, Repr

/-- CACHE after the three refreshes of a script. -/
def ChipScript.flags (c : ChipScript) : IrqFlags := 0 ||| c.txEnd ||| c.rxStart ||| c.rxEnd

/-- The script's flags end the three waits and show no framing, parity or CRC error. -/
abbrev ChipScript.endsWaits (c : ChipScript) : Prop :=
  IrqFlags.txe c.txEnd = true ∧ IrqFlags.rxs (c.txEnd ||| c.rxStart) = true ∧ c.flags.rxe = true
    ∧ c.flags.frm = false ∧ c.flags.par = false ∧ c.flags.crc = false

/-- The script's FIFO status shows no fault. -/
abbrev ChipScript.clean (c : ChipScript) : Prop :=
  c.status.ovr = false ∧ c.status.unf = false ∧ c.status.nplb = false

/-- The command's write, the pre-delay, and steps 2-9 with n transactions in step 3 (R170). -/
def exchangeEvents (w : Word) (n : Nat) (c : ChipScript) : List Event :=
  commandEvent w :: (ticks 2 ++ quietTurns (n + 5) ++
    [.seq { irq := c.txEnd }, .seq { irq := c.rxStart }, .seq { irq := c.rxEnd },
     .seq { fifoStatus := c.status }, .seq {}])

/-- Step 10 of REQA, WUPA and XCHG. -/
def plainExtraction (c : ChipScript) : List Event := [.seq {}, .seq { fifo := c.fifo }, .seq {}]

/-- Step 10 of ANTICOLL. -/
def anticollExtraction (c : ChipScript) : List Event :=
  [.seq {}, .seq {}, .seq { fifo := c.fifo }, .seq {}, .seq { collPos := c.collPos }, .seq {}]

end Sys2Proof.Machine
end

