-- ==== Sys2Proof/Certificates/Slice0/Obligations.lean ====
section
/-! DEFINITION. The statements about the FTS that the provers are given. Each docstring names the rules of spec/
that its statement formalises or rests on. -/

section

open Sys2Proof Sys2Proof.Machine

/-! ## Encoding -/

/-- Decoding the word of any well-formed command gives the command back, with every operand value (R121-R123,
R126). -/
def Obligations.DecodeInvertsEncode : Prop :=
  ∀ i : Instr, i.wellFormed = true → decode (encode i) = .instr i

/-- A word that decodes is the word of the command it decodes to, which is well formed: no two words stand for
one command, and no bit is dropped (R123, R125, R126). -/
def Obligations.DecodedWordIsTheEncoding : Prop :=
  ∀ (w : Word) (i : Instr), decode w = .instr i → i.wellFormed = true ∧ encode i = w

/-- A word is illegal exactly when it matches no row of the opcode map's match and mask values with, for
ANTICOLL, a bit count of at most 40 (R123-R125). -/
def Obligations.IllegalExactlyWithoutMatchingRow : Prop :=
  ∀ w : Word, (∃ why, decode w = .illegal why) ↔
    ¬ (w &&& 0xFFFFFFFF = 0x00000001 ∨ w &&& 0xFFFFFFFF = 0x00000002 ∨ w &&& 0xFFFFFFFF = 0x00000004
      ∨ w &&& 0xFFFFFFFF = 0x00000005
      ∨ (w &&& 0xFFFFC0FF = 0x00000006 ∧ w.toNat / 2 ^ 8 % 2 ^ 6 ≤ 40)
      ∨ w &&& 0x0000FFFF = 0x00000007)

/-- Words written out from R121 and R135 decode to the commands they stand for, and the illegal words of
95_test_vectors.md 2.1 do not decode. -/
def Obligations.WrittenWordsDecode : Prop :=
  decode 0x00000001 = .instr .sstart ∧ decode 0x00000002 = .instr .sstop
    ∧ decode 0x00000004 = .instr .reqa ∧ decode 0x00000005 = .instr .wupa
    ∧ decode 0x00001406 = .instr (.anticoll 20) ∧ decode 0x00002806 = .instr (.anticoll 40)
    ∧ decode 0x000A0007 = .instr (.xchg 10) ∧ decode 0xFFFF0007 = .instr (.xchg 65535)
    ∧ decode 0x00000000 = .illegal .reservedOpcode ∧ decode 0x00000011 = .illegal .reservedBits
    ∧ decode 0x00002906 = .illegal .bitsOutOfRange ∧ decode 0x00000107 = .illegal .reservedBits

/-! ## The step, and acceptance of commands -/

/-- A step takes the first known event, or the next free one, and delivers it (00_scope.md R6; 20_memory.md
R100; the event list is the model's, log 3). -/
def Obligations.StepDeliversNextEvent : Prop :=
  (∀ (s : State) (e : Event) (es : List Event), s.inputs = e :: es →
      step s = deliver e { s with inputs := es })
    ∧ ∀ s : State, s.inputs = [] →
      step s = deliver (Config.freeEvent s.draws) { s with draws := s.draws + 1 }

/-- When the next event is the host's 4-byte write of a word to CMD that decodes, the step is `exec` of the
decoded command at the state with the event taken and the write answered (R120, R127). -/
def Obligations.StepRunsDecodedCommand : Prop :=
  ∀ (s : State) (w : Word) (i : Instr) (es : List Event),
    s.inputs = .host (.writeWord 0x000 w) :: es → decode w = .instr i →
      step s = exec i { s with inputs := es, responses := s.responses ++ [.done] }

/-- An illegal word written to CMD sets CMDERR and changes nothing else, besides the bus's answer (R128, R130,
R273). -/
def Obligations.StepRejectsIllegalWord : Prop :=
  ∀ (s : State) (w : Word) (why : IllegalWord) (es : List Event),
    s.inputs = .host (.writeWord 0x000 w) :: es → decode w = .illegal why →
      step s = .next { s with
        inputs := es, responses := s.responses ++ [.done], status := { s.status with cmderr := true } }

/-- SSTART is accepted with BUSY = 0 and SESSION = 0: the whole next state (R129, R130, R150). -/
def Obligations.SstartAccepted : Prop :=
  ∀ s : State, s.busy = false → s.session = false →
    exec .sstart s = .next { s with
      req := { op := 0x1, bits := 0, fwt := 0, txlen := s.txlen, rxcap := s.rxcap }
      status := { s.status with done := false }, result := {}, bitcount := 0, sub := 0, pc := .sMode }

/-- SSTOP is accepted with BUSY = 0 and SESSION = 1: the whole next state (R129, R130, R154). -/
def Obligations.SstopAccepted : Prop :=
  ∀ s : State, s.busy = false → s.session = true →
    exec .sstop s = .next { s with
      req := { op := 0x2, bits := 0, fwt := 0, txlen := s.txlen, rxcap := s.rxcap }
      status := { s.status with done := false }, result := {}, bitcount := 0, sub := 0, pc := .tStop }

/-- REQA and WUPA are accepted with BUSY = 0, SESSION = 1 and RXCAP.CAP <= RXBUF_SIZE: the whole next state
(R129, R130, R220, R221). -/
def Obligations.ReqaAndWupaAccepted : Prop :=
  ∀ s : State, s.busy = false → s.session = true → s.rxcap.toNat ≤ s.hw.rxbufSize →
    exec .reqa s = .next { s with
      req := { op := 0x4, bits := 0, fwt := 0, txlen := s.txlen, rxcap := s.rxcap }
      status := { s.status with done := false }, result := {}, bitcount := 0
      rxcount := 0, fifostat := {}, collpos := {}, sub := 0, pc := .xPredelay, tmr := 0 }
    ∧ exec .wupa s = .next { s with
      req := { op := 0x5, bits := 0, fwt := 0, txlen := s.txlen, rxcap := s.rxcap }
      status := { s.status with done := false }, result := {}, bitcount := 0
      rxcount := 0, fifostat := {}, collpos := {}, sub := 0, pc := .xPredelay, tmr := 0 }

/-- ANTICOLL(bits) is accepted with BUSY = 0, SESSION = 1, RXCAP.CAP <= RXBUF_SIZE, bits <= 40 and
ceil_div(bits, 8) <= TXLEN.LEN <= TXBUF_SIZE: the whole next state (R129, R130, R222). -/
def Obligations.AnticollAccepted : Prop :=
  ∀ (s : State) (bits : BitVec 6), s.busy = false → s.session = true →
    s.rxcap.toNat ≤ s.hw.rxbufSize → bits.toNat ≤ 40 → (bits.toNat + 7) / 8 ≤ s.txlen.toNat →
    s.txlen.toNat ≤ s.hw.txbufSize →
    exec (.anticoll bits) s = .next { s with
      req := { op := 0x6, bits := bits, fwt := 0, txlen := s.txlen, rxcap := s.rxcap }
      status := { s.status with done := false }, result := {}, bitcount := 0
      rxcount := 0, fifostat := {}, collpos := {}, sub := 0, pc := .xPredelay, tmr := 0 }

/-- XCHG(fwt) is accepted with BUSY = 0, SESSION = 1, RXCAP.CAP <= RXBUF_SIZE and TXLEN.LEN <= TXBUF_SIZE: the
whole next state (R129, R130, R223). -/
def Obligations.XchgAccepted : Prop :=
  ∀ (s : State) (fwt : BitVec 16), s.busy = false → s.session = true →
    s.rxcap.toNat ≤ s.hw.rxbufSize → s.txlen.toNat ≤ s.hw.txbufSize →
    exec (.xchg fwt) s = .next { s with
      req := { op := 0x7, bits := 0, fwt := fwt, txlen := s.txlen, rxcap := s.rxcap }
      status := { s.status with done := false }, result := {}, bitcount := 0
      rxcount := 0, fifostat := {}, collpos := {}, sub := 0, pc := .xPredelay, tmr := 0 }

/-- Every command whose preconditions do not all hold is rejected: CMDERR is set and nothing else changes
(R129, R130, R273). -/
def Obligations.RejectionOnlySetsCmderr : Prop :=
  ∀ (s : State) (i : Instr), ¬ preconditions s i →
    exec i s = .next { s with status := { s.status with cmderr := true } }

/-! ## Session commands -/

/-- SSTART's steps: ModeOn; FieldOn, which either starts the guard time or leads to one ModeOff and completion
with SERR 1 in IDLE; the guard, which holds without effect while TMR < 6; and its end, which opens the session
(R151-R153). -/
def Obligations.SessionOpensStepByStep : Prop :=
  ∀ (s : State) (a : ChipAnswers),
    (s.pc = .sMode →
      deliver (.seq a) s = .next { s with trace := s.trace ++ [.modeOn], pc := .sField, sub := 0 })
    ∧ (s.pc = .sField → s.sub = 0 → a.field = .ok →
      deliver (.seq a) s = .next { s with
        trace := s.trace ++ [.fieldOn .ok], pc := .sGuard, sub := 0, tmr := 0 })
    ∧ (s.pc = .sField → s.sub = 0 → a.field = .fieldCollision →
      deliver (.seq a) s = .next { s with trace := s.trace ++ [.fieldOn .fieldCollision], sub := 1 })
    ∧ (s.pc = .sField → s.sub = 1 →
      deliver (.seq a) s = .next { s with
        trace := s.trace ++ [.modeOff], result := { serr := 1, op := 0x1 }, bitcount := 0
        status := { s.status with done := true }, pc := .idle, sub := 0 })
    ∧ (s.pc = .sGuard → s.tmr.toNat < 6 → deliver (.seq a) s = .next s)
    ∧ (s.pc = .sGuard → 6 ≤ s.tmr.toNat →
      deliver (.seq a) s = .next { s with
        session := true, result := { op := 0x1 }, bitcount := 0
        status := { s.status with done := true }, pc := .ready, sub := 0 })

/-- SSTOP's two steps: FieldOff, then ModeOff with the session closed and the command completed (R154-R156). -/
def Obligations.SessionClosesStepByStep : Prop :=
  ∀ (s : State) (a : ChipAnswers), s.pc = .tStop →
    (s.sub = 0 → deliver (.seq a) s = .next { s with trace := s.trace ++ [.fieldOff], sub := 1 })
    ∧ (s.sub = 1 → deliver (.seq a) s = .next { s with
        trace := s.trace ++ [.modeOff], session := false, result := { op := 0x2 }, bitcount := 0
        status := { s.status with done := true }, pc := .idle, sub := 0 })

/-- The pre-delay of an exchange: in X_PREDELAY a turn of SEQ changes nothing while TMR < 2, and moves to X_RESET
with no chip transaction once TMR >= 2 (R171). -/
def Obligations.PredelayHolds : Prop :=
  ∀ (s : State) (a : ChipAnswers),
    (s.pc = .xPredelay → s.tmr.toNat < 2 → deliver (.seq a) s = .next s)
    ∧ (s.pc = .xPredelay → 2 ≤ s.tmr.toNat →
        deliver (.seq a) s = .next { s with pc := .xReset, sub := 0 })

/-- From any state with no session and no command running, SSTART with a field that comes up: whatever the chip else
answers, the trace is ModeOn, FieldOn, and six tick edges later the session is open and READY (R150-R153). -/
def Obligations.SstartRunOpensSession : Prop :=
  ∀ (s : State) (a b c : ChipAnswers), s.busy = false → s.session = false → b.field = .ok →
    ∃ t, runEvents (commandEvent (encode .sstart) :: [.seq a, .seq b] ++ ticks 6 ++ [.seq c]) s = .next t
      ∧ t.pc = .ready ∧ t.session = true ∧ t.status = { s.status with done := true }
      ∧ t.result = { op := 0x1 } ∧ t.bitcount = 0 ∧ t.trace = s.trace ++ [.modeOn, .fieldOn .ok]
      ∧ t.txbuf = s.txbuf ∧ t.rxbuf = s.rxbuf ∧ t.cache = s.cache

/-- From any state with no session and no command running, SSTART with a field collision: one ModeOff, no FieldOff,
no guard time, SESSION stays 0 and RESULT.SERR is 1 (R152, R159). -/
def Obligations.SstartRunCollides : Prop :=
  ∀ (s : State) (a b c : ChipAnswers), s.busy = false → s.session = false → b.field = .fieldCollision →
    ∃ t, runEvents [commandEvent (encode .sstart), .seq a, .seq b, .seq c] s = .next t
      ∧ t.pc = .idle ∧ t.session = false ∧ t.status = { s.status with done := true }
      ∧ t.result = { serr := 1, op := 0x1 } ∧ t.bitcount = 0
      ∧ t.trace = s.trace ++ [.modeOn, .fieldOn .fieldCollision, .modeOff]

/-- From any state with a session and no command running, SSTOP: FieldOff, ModeOff, session closed (R154-R156). -/
def Obligations.SstopRunClosesSession : Prop :=
  ∀ (s : State) (a b : ChipAnswers), s.busy = false → s.session = true →
    ∃ t, runEvents [commandEvent (encode .sstop), .seq a, .seq b] s = .next t
      ∧ t.pc = .idle ∧ t.session = false ∧ t.status = { s.status with done := true }
      ∧ t.result = { op := 0x2 } ∧ t.bitcount = 0 ∧ t.trace = s.trace ++ [.fieldOff, .modeOff]
      ∧ t.txbuf = s.txbuf ∧ t.rxbuf = s.rxbuf ∧ t.cache = s.cache

/-! ## Exchange steps 2-9 -/

/-- X_RESET performs STOP, RESET_RXGAIN and IrqClearAll, the last with CACHE <- 0 and the move to X_PROGRAM
(R172). -/
def Obligations.ResetStepTransactions : Prop :=
  ∀ (s : State) (a : ChipAnswers), s.pc = .xReset →
    (s.sub = 0 → deliver (.seq a) s = .next { s with trace := s.trace ++ [.cmd .stop], sub := 1 })
    ∧ (s.sub = 1 → deliver (.seq a) s = .next { s with trace := s.trace ++ [.cmd .resetRxGain], sub := 2 })
    ∧ (s.sub = 2 → deliver (.seq a) s = .next { s with
        trace := s.trace ++ [.irqClearAll], cache := 0, pc := .xProgram, sub := 0 })

/-- From entry to X_PROGRAM, exactly the transactions of R175 for the variant, in order, one per turn of SEQ
whatever the chip answers, and then X_DISPATCH; nothing else changes. A load of zero bytes is not issued (R97,
R173-R175). -/
def Obligations.ProgramTransactionsInOrder : Prop :=
  ∀ (s : State) (turns : List ChipAnswers) (txns : List ChipTxn), s.pc = .xProgram → s.sub = 0 →
    (s.req.op = 0x4 ∨ s.req.op = 0x5 →
        txns = [.write .raw 1, .write .antcl 0, .write .agcEn 1, .write .squelchEn 1]) →
    (s.req.op = 0x6 →
        txns = [.write .txNbits s.req.bits.toNat]
          ++ (if 0 < s.req.bits.toNat then
                [.fifoWrite ((List.range ((s.req.bits.toNat + 7) / 8)).map s.txByte)] else [])
          ++ [.write .raw 1, .write .antcl 1, .write .agcEn 0, .write .squelchEn 1]) →
    (s.req.op = 0x7 →
        txns = [.write .txNbits (8 * s.req.txlen.toNat)]
          ++ (if 0 < s.req.txlen.toNat then
                [.fifoWrite ((List.range s.req.txlen.toNat).map s.txByte)] else [])
          ++ [.write .raw 0, .write .antcl 0, .write .agcEn 1, .write .squelchEn 1]) →
    s.req.op = 0x4 ∨ s.req.op = 0x5 ∨ s.req.op = 0x6 ∨ s.req.op = 0x7 →
    turns.length = txns.length →
    runEvents (turns.map .seq) s = .next { s with
      trace := s.trace ++ txns, pc := .xDispatch, sub := 0, inputs := [] }

/-- X_DISPATCH issues the variant's transmit command and clears CACHE with no further transaction (R176). -/
def Obligations.DispatchIssuesTransmitCommand : Prop :=
  ∀ (s : State) (a : ChipAnswers) (c : ChipCmd), s.pc = .xDispatch →
    (s.req.op = 0x4 ∧ c = .txReqa ∨ s.req.op = 0x5 ∧ c = .txWupa ∨ s.req.op = 0x6 ∧ c = .txNoCrc
      ∨ s.req.op = 0x7 ∧ c = .txCrc) →
    deliver (.seq a) s = .next { s with
      trace := s.trace ++ [.cmd c], cache := 0, pc := .xTxwait, sub := 0 }

/-- One evaluation of X_TXWAIT: TXE in CACHE after the refresh ends the wait with TMR restarted; otherwise SEQ
stays (R177; that `sub` stays 0 then is the model's, log 24). -/
def Obligations.TxwaitEvaluation : Prop :=
  ∀ (s : State) (a : ChipAnswers), s.pc = .xTxwait →
    deliver (.seq a) s = .next (
      if (s.cache ||| a.irq)[0] then
        { s with trace := s.trace ++ [.irqRefresh a.irq], cache := s.cache ||| a.irq
                 pc := .xRxswait, sub := 0, tmr := 0 }
      else { s with trace := s.trace ++ [.irqRefresh a.irq], cache := s.cache ||| a.irq })

/-- One evaluation of X_RXSWAIT: RXS wins over the deadline; an elapsed frame-waiting time (5 ms, or REQ.FWT for
XCHG) raises Timeout with TOSRC 0; otherwise SEQ stays (R179, R180, R279, R286; that `sub` stays 0 then is
the model's, log 24). -/
def Obligations.RxswaitEvaluation : Prop :=
  ∀ (s : State) (a : ChipAnswers) (f : Nat), s.pc = .xRxswait →
    f = (if s.req.op = 0x7 then s.req.fwt.toNat else 5) →
    deliver (.seq a) s = .next (
      if (s.cache ||| a.irq)[1] then
        { s with trace := s.trace ++ [.irqRefresh a.irq], cache := s.cache ||| a.irq
                 pc := .xPoll, sub := 0, tmr := 0 }
      else if f + 1 ≤ s.tmr.toNat then
        { s with trace := s.trace ++ [.irqRefresh a.irq], cache := s.cache ||| a.irq
                 result := { err := 1, kind := true, op := s.req.op }, bitcount := 0
                 status := { s.status with done := true }, pc := .ready, sub := 0 }
      else { s with trace := s.trace ++ [.irqRefresh a.irq], cache := s.cache ||| a.irq })

/-- One iteration of X_POLL: Framing, Parity, Crc, Collision (not in ANTICOLL), then reception end, then the
safety timeout, then the Yield; every error completes the exchange as R279 says (R181-R184, R276, R279; that the
Yield stands at `sub` 1 is the model's, log 6). -/
def Obligations.PollChecksInPriorityOrder : Prop :=
  ∀ (s : State) (a : ChipAnswers) (r : State) (fail : BitVec 4 → Bool → Bool → State), s.pc = .xPoll → s.sub = 0 →
    r = { s with trace := s.trace ++ [.irqRefresh a.irq], cache := s.cache ||| a.irq } →
    (∀ code kind src, fail code kind src = { r with
      result := { err := code, kind := kind, tosrc := src, op := s.req.op }, bitcount := 0
      status := { s.status with done := true }, pc := .ready, sub := 0 }) →
    deliver (.seq a) s = .next (
      if r.cache[3] then fail 2 false false
      else if r.cache[4] then fail 6 false false
      else if r.cache[5] then fail 4 false false
      else if s.req.op ≠ 0x6 ∧ r.cache[6] = true then fail 5 false false
      else if r.cache[2] then { r with pc := .xPostchk, sub := 0 }
      else if 501 ≤ s.tmr.toNat then fail 1 true true
      else { r with sub := 1 })

/-- The Yield between two iterations performs no chip transaction and has no effect but the return to the next
iteration (R185; that it takes one turn of SEQ is the model's, log 6). -/
def Obligations.YieldHasNoEffect : Prop :=
  ∀ (s : State) (a : ChipAnswers), s.pc = .xPoll → s.sub = 1 →
    deliver (.seq a) s = .next { s with sub := 0 }

/-- X_POSTCHK reads FIFO_STATUS once, shows it in FIFOSTAT, and raises FifoOverflow, FifoUnderflow or
FramingLastByteMissingParity in this order; a clean snapshot leads to X_COUNT (R186, R279). That the draw of
CNT_HI is the answer's low CNT_HI_BITS bits is the model's (log 23). -/
def Obligations.PostchkReadsAndChecksOnce : Prop :=
  ∀ (s : State) (a : ChipAnswers) (f : FifoStatus) (r : State) (fail : BitVec 4 → State), s.pc = .xPostchk →
    s.hw.cntHiBits ≤ 8 →
    f = { a.fifoStatus with
      cntHi := BitVec.ofNat 8 (a.fifoStatus.cntHi.toNat % 2 ^ s.hw.cntHiBits) } →
    r = { s with
      trace := s.trace ++ [.readFifoStatus f], work := { s.work with snap := f }
      fifostat := { snap := f, valid := true } } →
    (∀ code, fail code = { r with
      result := { err := code, op := s.req.op }, bitcount := 0
      status := { s.status with done := true }, pc := .ready, sub := 0 }) →
    deliver (.seq a) s = .next (
      if f.ovr then fail 9 else if f.unf then fail 10 else if f.nplb then fail 3
      else { r with pc := .xCount, sub := 0 })

/-- X_COUNT composes COUNT = CNT_HI * 256 + CNT_LO from the snapshot, exactly, shows it in RXCOUNT, and performs
no chip transaction (R187, R188). -/
def Obligations.CountComposedFromSnapshot : Prop :=
  ∀ (s : State) (a : ChipAnswers), s.pc = .xCount →
    ∃ c : BitVec 16, c.toNat = s.work.snap.cntHi.toNat * 256 + s.work.snap.cntLo.toNat
      ∧ deliver (.seq a) s = .next { s with
          work := { s.work with count := c }, rxcount := c, pc := .xExtract, sub := 0 }

/-! ## Step 10 -/

/-- Step 10 of REQA, WUPA and XCHG at sub 0: in CRC mode a count below 2 raises ResponseTooShort; the (stripped)
count N above the receive capacity raises ResponseTooLong; neither touches the chip or a buffer; otherwise N is
kept (R242, R243, R279). -/
def Obligations.PlainExtractionChecksFirst : Prop :=
  ∀ (s : State) (a : ChipAnswers) (n : Nat), s.pc = .xExtract → s.sub = 0 →
    s.req.op = 0x4 ∨ s.req.op = 0x5 ∨ s.req.op = 0x7 →
    n = (if s.req.op = 0x7 then s.work.count.toNat - 2 else s.work.count.toNat) →
    ∃ t, deliver (.seq a) s = .next t ∧ t.trace = s.trace ∧ t.rxbuf = s.rxbuf ∧ t.txbuf = s.txbuf
      ∧ t.session = s.session ∧ t.cache = s.cache ∧ t.req = s.req
      ∧ (s.req.op = 0x7 → s.work.count.toNat < 2 →
          t.pc = .ready ∧ t.result = { err := 7, op := 0x7 } ∧ t.bitcount = 0 ∧ t.status.done = true)
      ∧ (¬ (s.req.op = 0x7 ∧ s.work.count.toNat < 2) → s.req.rxcap.toNat < n →
          t.pc = .ready ∧ t.result = { err := 8, op := s.req.op } ∧ t.bitcount = 0 ∧ t.status.done = true)
      ∧ (¬ (s.req.op = 0x7 ∧ s.work.count.toNat < 2) → n ≤ s.req.rxcap.toNat →
          t.pc = .xExtract ∧ t.sub = 1 ∧ t.work.n.toNat = n ∧ t.status = s.status)

/-- Step 10 of ANTICOLL at sub 0: FULL = BITS / 8 and REM = BITS % 8, and FULL + max(COUNT, REM != 0 ? 1 : 0)
above the receive capacity raises ResponseTooLong with no chip transaction and no buffer write (R246, R247,
R279). -/
def Obligations.AnticollExtractionChecksFirst : Prop :=
  ∀ (s : State) (a : ChipAnswers) (need : Nat), s.pc = .xExtract → s.sub = 0 → s.req.op = 0x6 →
    need = s.req.bits.toNat / 8 + max s.work.count.toNat (if s.req.bits.toNat % 8 ≠ 0 then 1 else 0) →
    ∃ t, deliver (.seq a) s = .next t ∧ t.trace = s.trace ∧ t.rxbuf = s.rxbuf ∧ t.txbuf = s.txbuf
      ∧ t.session = s.session ∧ t.cache = s.cache ∧ t.req = s.req
      ∧ t.work.full.toNat = s.req.bits.toNat / 8 ∧ t.work.rem.toNat = s.req.bits.toNat % 8
      ∧ (s.req.rxcap.toNat < need →
          t.pc = .ready ∧ t.result = { err := 8, op := 0x6 } ∧ t.bitcount = 0 ∧ t.status.done = true)
      ∧ (need ≤ s.req.rxcap.toNat → t.pc = .xExtract ∧ t.sub = 1 ∧ t.status = s.status)

/-- The partial-byte merge: with REM != 0, RXBUF[FULL] becomes its old value with the low REM bits of
TXBUF[FULL] ORed in, and every other byte stays; with REM = 0 no byte changes (R250; that the mask keeps the low
bits is the spec's own inference, 90_conflicts.md C1, log 19). -/
def Obligations.PartialByteMergeKeepsLowBits : Prop :=
  ∀ (s : State) (a : ChipAnswers), s.pc = .xExtract → s.sub = 3 → s.req.op = 0x6 →
    s.work.full.toNat < s.hw.rxbufSize →
    ∃ t, deliver (.seq a) s = .next t ∧ t.sub = 4 ∧ t.trace = s.trace ∧ t.txbuf = s.txbuf
      ∧ t.work = s.work
      ∧ ∀ i, t.rxByte i =
          if s.work.rem ≠ 0 ∧ i = s.work.full.toNat then
            s.rxByte i ||| (s.txByte i &&& ((1#8 <<< s.work.rem.toNat) - 1))
          else s.rxByte i

/-! ## Whole exchanges -/

/-- REQA and WUPA end to end, for any chip flags that end the three waits without a fault, any clean FIFO status
with COUNT <= RXCAP and any FIFO bytes: the exact trace, RXBUF, BITCOUNT = 8 * COUNT and RESULT
(R170-R189, R220, R221, R241-R245, R254; a list of FIFO bytes shorter than the read: log 4; fields cut to their
widths: log 23). -/
def Obligations.ReqaAndWupaExchange : Prop :=
  ∀ (s : State) (c : ChipScript) (i : Instr) (op : BitVec 4) (cmd : ChipCmd) (f : FifoStatus),
    (i = .reqa ∧ op = 0x4 ∧ cmd = .txReqa ∨ i = .wupa ∧ op = 0x5 ∧ cmd = .txWupa) →
    preconditions s i → c.endsWaits → c.flags.col = false → c.clean → f = c.status.narrow s.hw →
    f.count.toNat ≤ s.rxcap.toNat →
    ∃ t, runEvents (exchangeEvents (encode i) 4 c ++ plainExtraction c) s = .next t
      ∧ t.pc = .ready ∧ t.session = true ∧ t.status = { s.status with done := true }
      ∧ t.result = { op := op } ∧ t.bitcount.toNat = 8 * f.count.toNat
      ∧ t.rxcount = f.count ∧ t.fifostat = { snap := f, valid := true } ∧ t.collpos = {} ∧ t.cache = c.flags
      ∧ t.txbuf = s.txbuf ∧ t.txlen = s.txlen ∧ t.rxcap = s.rxcap ∧ t.irqen = s.irqen
      ∧ (∀ k, t.rxByte k = if k < f.count.toNat then c.fifo.getD k 0 else s.rxByte k)
      ∧ t.trace = s.trace
          ++ [.cmd .stop, .cmd .resetRxGain, .irqClearAll, .write .raw 1, .write .antcl 0, .write .agcEn 1,
              .write .squelchEn 1, .cmd cmd, .irqRefresh c.txEnd, .irqRefresh c.rxStart, .irqRefresh c.rxEnd,
              .readFifoStatus f]
          ++ (if f.count.toNat = 0 then []
              else [.fifoRead f.count.toNat ((List.range f.count.toNat).map fun k => c.fifo.getD k 0)])

/-- XCHG end to end, for any frame-waiting time and payload, any chip flags that end the three waits without a
fault, any clean FIFO status with 2 <= COUNT and COUNT - 2 <= RXCAP: the exact trace with the payload, the two
CRC bytes stripped, RXBUF, BITCOUNT = 8 * (COUNT - 2) and RESULT (R170-R189, R223, R241-R245, R254; a list of FIFO
bytes shorter than the read: log 4; fields cut to their widths: log 23). -/
def Obligations.XchgExchange : Prop :=
  ∀ (s : State) (c : ChipScript) (fwt : BitVec 16) (f : FifoStatus) (n : Nat),
    preconditions s (.xchg fwt) → c.endsWaits → c.flags.col = false → c.clean → f = c.status.narrow s.hw →
    f.count.toNat = n + 2 → n ≤ s.rxcap.toNat →
    ∃ t, runEvents (exchangeEvents (encode (.xchg fwt)) (if s.txlen = 0 then 5 else 6) c ++ plainExtraction c) s
        = .next t
      ∧ t.pc = .ready ∧ t.session = true ∧ t.status = { s.status with done := true }
      ∧ t.result = { op := 0x7 } ∧ t.bitcount.toNat = 8 * n
      ∧ t.rxcount = f.count ∧ t.fifostat = { snap := f, valid := true } ∧ t.collpos = {} ∧ t.cache = c.flags
      ∧ t.txbuf = s.txbuf ∧ t.txlen = s.txlen ∧ t.rxcap = s.rxcap ∧ t.irqen = s.irqen
      ∧ (∀ k, t.rxByte k = if k < n then c.fifo.getD k 0 else s.rxByte k)
      ∧ t.trace = s.trace
          ++ [.cmd .stop, .cmd .resetRxGain, .irqClearAll, .write .txNbits (8 * s.txlen.toNat)]
          ++ (if s.txlen = 0 then [] else [.fifoWrite ((List.range s.txlen.toNat).map s.txByte)])
          ++ [.write .raw 0, .write .antcl 0, .write .agcEn 1, .write .squelchEn 1, .cmd .txCrc,
              .irqRefresh c.txEnd, .irqRefresh c.rxStart, .irqRefresh c.rxEnd, .readFifoStatus f]
          ++ (if n = 0 then [] else [.fifoRead n ((List.range n).map fun k => c.fifo.getD k 0)])

/-- ANTICOLL end to end, for every bit count and prefix, any chip flags that end the three waits without a framing,
parity or CRC error, with or without a collision: the exact trace, the echoed prefix, the received bytes after it,
the partial byte merged, and the bit count, from the collision position when COL is flagged (R170-R189, R222,
R246-R254; the merge's mask: log 19; a script's list of FIFO bytes shorter than the read: log 4; fields cut to their
widths: log 23). -/
def Obligations.AnticollExchange : Prop :=
  ∀ (s : State) (c : ChipScript) (bits : BitVec 6) (f : FifoStatus) (p : CollPos) (full rem n : Nat),
    s.hw.ok → preconditions s (.anticoll bits) → c.endsWaits → c.clean → f = c.status.narrow s.hw →
    p = c.collPos.narrow s.hw → n = f.count.toNat → full = bits.toNat / 8 → rem = bits.toNat % 8 →
    full + max n (if rem ≠ 0 then 1 else 0) ≤ s.rxcap.toNat →
    ∃ t, runEvents (exchangeEvents (encode (.anticoll bits)) (if bits = 0 then 5 else 6) c ++ anticollExtraction c) s
        = .next t
      ∧ t.pc = .ready ∧ t.session = true ∧ t.status = { s.status with done := true }
      ∧ t.result = { op := 0x6 }
      ∧ t.bitcount.toNat = (if c.flags.col then 8 * p.cbyte.toNat + p.cbit.toNat else 8 * full + 8 * n)
      ∧ t.rxcount = f.count ∧ t.fifostat = { snap := f, valid := true } ∧ t.cache = c.flags
      ∧ t.collpos = (if c.flags.col then { pos := p, valid := true } else {})
      ∧ t.txbuf = s.txbuf ∧ t.txlen = s.txlen ∧ t.rxcap = s.rxcap ∧ t.irqen = s.irqen
      ∧ (∀ k, t.rxByte k =
          if k < full then s.txByte k
          else
            (if k < full + n then c.fifo.getD (k - full) 0 else s.rxByte k)
              ||| (if k = full then s.txByte k &&& BitVec.ofNat 8 (2 ^ rem - 1) else 0))
      ∧ t.trace = s.trace
          ++ [.cmd .stop, .cmd .resetRxGain, .irqClearAll, .write .txNbits bits.toNat]
          ++ (if bits = 0 then [] else [.fifoWrite ((List.range ((bits.toNat + 7) / 8)).map s.txByte)])
          ++ [.write .raw 1, .write .antcl 1, .write .agcEn 0, .write .squelchEn 1, .cmd .txNoCrc,
              .irqRefresh c.txEnd, .irqRefresh c.rxStart, .irqRefresh c.rxEnd, .readFifoStatus f]
          ++ (if n = 0 then [] else [.fifoRead n ((List.range n).map fun k => c.fifo.getD k 0)])
          ++ (if c.flags.col then [.readCollPos p] else [])

/-- A run of passive events (turns of SEQ, ticks, host reads) from a legal state of an exchange that has not passed
the checks of step 10 leaves every byte of RXBUF unchanged if it ends with an error reported (R255, R279, R318). -/
def Obligations.ErrorLeavesRxbufUnchanged : Prop :=
  ∀ (s t : State) (evs : List Event), s.Legal → s.pc.exchange = true → ¬ (s.pc = .xExtract ∧ 1 ≤ s.sub) →
    (∀ e ∈ evs, e.passive = true) → runEvents evs s = .next t → t.result.err ≠ 0 → t.rxbuf = s.rxbuf

/-- While no refresh reports TXE, X_TXWAIT has no exit but reset, whatever the host does and however long it
takes (R177, R317). -/
def Obligations.TxwaitHangsWithoutTxe : Prop :=
  ∀ (s : State) (evs : List Event), s.pc = .xTxwait → s.cache[0] = false →
    (∀ e ∈ evs, e.notReset = true ∧ ∀ a, e = .seq a → a.irq[0] = false) →
    ∃ t, runEvents evs s = .next t ∧ t.pc = .xTxwait ∧ t.result = s.result ∧ t.rxbuf = s.rxbuf

/-- The wait of step 5 ends: a run from X_TXWAIT without reset whose events hold a turn of SEQ that reports TXE passes
through X_RXSWAIT; and under ENV1 a run without reset passes through X_RXSWAIT after each transmit command it
performs (R177, R289 ENV1). -/
def Obligations.TxwaitEndsUnderEnv1 : Prop :=
  (∀ (s : State) (evs : List Event) (a : ChipAnswers), s.pc = .xTxwait → (∀ e ∈ evs, e.notReset = true) →
      .seq a ∈ evs → a.irq[0] = true →
      ∃ pre post u, evs = pre ++ post ∧ runEvents pre s = .next u ∧ u.pc = .xRxswait)
    ∧ ∀ (s : State) (σ : Timeline) (n : Nat) (c : ChipCmd), (∀ k, (σ k).2.notReset = true) → Env1 s σ →
      σ.performs s n (.cmd c) → c.transmits = true →
      ∃ m u, n < m ∧ σ.run s m = .next u ∧ u.pc = .xRxswait

/-! ## Host bus -/

/-- No host read has a side effect: besides the bus's answer, a read that the bus does not refuse changes nothing,
and one it refuses sets BUSERR (R85, R89). -/
def Obligations.HostReadsHaveNoSideEffect : Prop :=
  ∀ (s : State) (off : BitVec 14),
    (off.toNat % 4 = 0 → ∃ v, deliver (.host (.readWord off)) s =
        .next { s with responses := s.responses ++ [.word v] })
    ∧ (0x1000 ≤ off.toNat → ∃ v, deliver (.host (.readByte off)) s =
        .next { s with responses := s.responses ++ [.byte v] })

/-- A misaligned 4-byte access and a 1-byte access below offset 0x1000 get a bus error, set BUSERR and change
nothing else; CMDERR stays even when the access is to CMD (R85, R275). -/
def Obligations.BusErrorsOnlySetBuserr : Prop :=
  ∀ (s t : State) (off : BitVec 14) (b : Byte) (w : Word),
    t = { s with responses := s.responses ++ [.busError], status := { s.status with buserr := true } } →
    (off.toNat % 4 ≠ 0 → deliver (.host (.readWord off)) s = .next t
        ∧ deliver (.host (.writeWord off w)) s = .next t)
    ∧ (off.toNat < 0x1000 → deliver (.host (.readByte off)) s = .next t
        ∧ deliver (.host (.writeByte off b)) s = .next t)

/-- A 4-byte read of each register answers its fields at their places, the reserved bits 0; CMD and the reserved
offsets, those above the windows among them, read 0, the latter with 1-byte reads too (R35-R37, R43-R53, R88). -/
def Obligations.RegisterReadsShowTheFields : Prop :=
  ∀ (s : State) (off : BitVec 14),
    (off.toNat % 4 = 0 → ∃ v : Word,
      deliver (.host (.readWord off)) s = .next { s with responses := s.responses ++ [.word v] }
      ∧ (off = 0x004 → v.toNat =
          s.busy.toNat + 2 * s.session.toNat + 4 * s.status.done.toNat + 8 * s.status.cmderr.toNat
            + 16 * s.status.accerr.toNat + 32 * s.status.buserr.toNat + 256 * s.pc.code.toNat)
      ∧ (off = 0x008 → v.toNat =
          s.result.err.toNat + 16 * s.result.serr.toNat + 64 * s.result.kind.toNat + 128 * s.result.tosrc.toNat
            + 256 * s.result.op.toNat)
      ∧ (off = 0x00C → v = s.bitcount)
      ∧ (off = 0x010 → v.toNat = s.txlen.toNat) ∧ (off = 0x014 → v.toNat = s.rxcap.toNat)
      ∧ (off = 0x018 → v.toNat = s.irqen.doneIe.toNat + 2 * s.irqen.errIe.toNat)
      ∧ (off = 0x01C → v.toNat = s.rxcount.toNat) ∧ (off = 0x020 → v.toNat = s.cache.toNat)
      ∧ (off = 0x024 → v.toNat =
          s.fifostat.snap.cntLo.toNat + 256 * s.fifostat.snap.cntHi.toNat + 65536 * s.fifostat.snap.ovr.toNat
            + 131072 * s.fifostat.snap.unf.toNat + 262144 * s.fifostat.snap.nplb.toNat
            + 2147483648 * s.fifostat.valid.toNat)
      ∧ (off = 0x028 → v.toNat =
          s.collpos.pos.cbit.toNat + 256 * s.collpos.pos.cbyte.toNat + 2147483648 * s.collpos.valid.toNat)
      ∧ (off = 0x02C → s.hw.ok → v.toNat = s.hw.txbufSize + 65536 * s.hw.rxbufSize)
      ∧ (off = 0x000 ∨ 0x030 ≤ off.toNat ∧ off.toNat < 0x1000 ∨ 0x3000 ≤ off.toNat → v = 0))
    ∧ (0x3000 ≤ off.toNat → deliver (.host (.readByte off)) s =
        .next { s with responses := s.responses ++ [.byte 0] })

/-- A write to STATUS clears exactly the bits DONE, CMDERR, ACCERR and BUSERR that are 1 in the word, BUSY or not,
and changes nothing else (R37, R91). -/
def Obligations.StatusIsWriteOneToClear : Prop :=
  ∀ (s : State) (v : Word),
    deliver (.host (.writeWord 0x004 v)) s = .next { s with
      responses := s.responses ++ [.done]
      status := { done := s.status.done && !v[2], cmderr := s.status.cmderr && !v[3]
                  accerr := s.status.accerr && !v[4], buserr := s.status.buserr && !v[5] } }

/-- Writes to TXLEN, RXCAP and IRQEN store the field and ignore the reserved bits; writes to read-only registers and
reserved offsets, 1-byte writes above the windows among them, are ignored (R45-R47, R53, R88). TXLEN and RXCAP: with
BUSY = 0. -/
def Obligations.RegisterWritesStoreTheField : Prop :=
  ∀ (s r : State) (off : BitVec 14) (v : Word) (b : Byte),
    r = { s with responses := s.responses ++ [.done] } →
    (s.busy = false → off = 0x010 → deliver (.host (.writeWord off v)) s =
        .next { r with txlen := BitVec.ofNat 16 (v.toNat % 65536) })
    ∧ (s.busy = false → off = 0x014 → deliver (.host (.writeWord off v)) s =
        .next { r with rxcap := BitVec.ofNat 16 (v.toNat % 65536) })
    ∧ (off = 0x018 → deliver (.host (.writeWord off v)) s =
        .next { r with irqen := { doneIe := v[0], errIe := v[1] } })
    ∧ (off = 0x008 ∨ off = 0x00C ∨ 0x01C ≤ off.toNat ∧ off.toNat < 0x1000 ∨ 0x3000 ≤ off.toNat →
        off.toNat % 4 = 0 → deliver (.host (.writeWord off v)) s = .next r)
    ∧ (0x3000 ≤ off.toNat → deliver (.host (.writeByte off b)) s = .next r)

/-- While BUSY = 1 a write to the TXBUF window, the RXBUF window, TXLEN or RXCAP that the bus does not refuse sets
ACCERR and changes nothing else but the bus's answer (R91, R274). -/
def Obligations.BusyWritesAreDropped : Prop :=
  ∀ (s t : State) (off : BitVec 14) (b : Byte) (w : Word), s.busy = true →
    t = { s with responses := s.responses ++ [.done], status := { s.status with accerr := true } } →
    (0x1000 ≤ off.toNat → off.toNat < 0x3000 → deliver (.host (.writeByte off b)) s = .next t)
    ∧ (0x1000 ≤ off.toNat ∧ off.toNat < 0x3000 ∨ off = 0x010 ∨ off = 0x014 → off.toNat % 4 = 0 →
        deliver (.host (.writeWord off w)) s = .next t)

/-- Words of both windows, at index i a multiple of 4. With BUSY = 0 a 4-byte write stores v[7:0] at index i, v[15:8] at
i + 1 and so on, in-range bytes only, changes nothing else, and a 4-byte read then answers v when all four bytes are in
range. In any state a 4-byte read answers the bytes at i to i + 3, that at i in [7:0], with 0 for those at or above
the buffer's size (R81, R82, R86, R87). -/
def Obligations.WindowWordIsLittleEndian : Prop :=
  ∀ (s : State) (off : BitVec 14) (v : Word) (i : Nat), i < 0x1000 → i % 4 = 0 →
    (s.busy = false → off.toNat = 0x1000 + i →
      ∃ t, deliver (.host (.writeWord off v)) s = .next t
        ∧ t = { s with txbuf := t.txbuf, responses := s.responses ++ [.done] }
        ∧ (∀ k, t.txByte k =
            if i ≤ k ∧ k < i + 4 ∧ k < s.hw.txbufSize then BitVec.ofNat 8 (v.toNat / 2 ^ (8 * (k - i)))
            else s.txByte k)
        ∧ (i + 4 ≤ s.hw.txbufSize → deliver (.host (.readWord off)) t =
            .next { t with responses := t.responses ++ [.word v] }))
    ∧ (s.busy = false → off.toNat = 0x2000 + i →
      ∃ t, deliver (.host (.writeWord off v)) s = .next t
        ∧ t = { s with rxbuf := t.rxbuf, responses := s.responses ++ [.done] }
        ∧ (∀ k, t.rxByte k =
            if i ≤ k ∧ k < i + 4 ∧ k < s.hw.rxbufSize then BitVec.ofNat 8 (v.toNat / 2 ^ (8 * (k - i)))
            else s.rxByte k)
        ∧ (i + 4 ≤ s.hw.rxbufSize → deliver (.host (.readWord off)) t =
            .next { t with responses := t.responses ++ [.word v] }))
    ∧ (off.toNat = 0x1000 + i →
      ∃ w : Word, deliver (.host (.readWord off)) s = .next { s with responses := s.responses ++ [.word w] }
        ∧ ∀ k < 4, w.toNat / 2 ^ (8 * k) % 2 ^ 8 =
            if i + k < s.hw.txbufSize then (s.txByte (i + k)).toNat else 0)
    ∧ (off.toNat = 0x2000 + i →
      ∃ w : Word, deliver (.host (.readWord off)) s = .next { s with responses := s.responses ++ [.word w] }
        ∧ ∀ k < 4, w.toNat / 2 ^ (8 * k) % 2 ^ 8 =
            if i + k < s.hw.rxbufSize then (s.rxByte (i + k)).toNat else 0)

/-- Bytes of both windows. With BUSY = 0 a 1-byte write moves exactly one byte, and no byte at or above the buffer's
size, and changes nothing else; a 1-byte read then answers it, or 0 at or above the size. In any state a 1-byte read
answers the byte at its index, or 0 at or above the size (R81, R82, R86, R87). -/
def Obligations.WindowByteMovesOneByte : Prop :=
  ∀ (s : State) (off : BitVec 14) (b : Byte) (i : Nat), i < 0x1000 →
    (s.busy = false → off.toNat = 0x1000 + i →
      ∃ t, deliver (.host (.writeByte off b)) s = .next t
        ∧ t = { s with txbuf := t.txbuf, responses := s.responses ++ [.done] }
        ∧ (∀ k, t.txByte k = if k = i ∧ i < s.hw.txbufSize then b else s.txByte k)
        ∧ deliver (.host (.readByte off)) t = .next { t with
            responses := t.responses ++ [.byte (if i < s.hw.txbufSize then b else 0)] })
    ∧ (s.busy = false → off.toNat = 0x2000 + i →
      ∃ t, deliver (.host (.writeByte off b)) s = .next t
        ∧ t = { s with rxbuf := t.rxbuf, responses := s.responses ++ [.done] }
        ∧ (∀ k, t.rxByte k = if k = i ∧ i < s.hw.rxbufSize then b else s.rxByte k)
        ∧ deliver (.host (.readByte off)) t = .next { t with
            responses := t.responses ++ [.byte (if i < s.hw.rxbufSize then b else 0)] })
    ∧ (off.toNat = 0x1000 + i →
      deliver (.host (.readByte off)) s = .next { s with
        responses := s.responses ++ [.byte (if i < s.hw.txbufSize then s.txByte i else 0)] })
    ∧ (off.toNat = 0x2000 + i →
      deliver (.host (.readByte off)) s = .next { s with
        responses := s.responses ++ [.byte (if i < s.hw.rxbufSize then s.rxByte i else 0)] })

/-- A host access while BUSY = 1 changes nothing but STATUS's own bits, IRQEN and the log of answers, and cannot set
DONE: it neither stops, starts nor changes the running command (R91, R278, R314, R315). -/
def Obligations.HostCannotTouchRunningCommand : Prop :=
  ∀ (s : State) (a : HostAccess), s.busy = true →
    ∃ t, deliver (.host a) s = .next t
      ∧ t = { s with status := t.status, irqen := t.irqen, responses := t.responses }
      ∧ (t.status.done = true → s.status.done = true)

/-- Over any run without reset in which the command keeps running until the last event, leaving out every host access
gives the same command state: pc, RESULT, BITCOUNT, buffers, CACHE, TMR, REQ and the trace do not depend on what the
host did meanwhile (R278, R314, R315). -/
def Obligations.RunningCommandIgnoresHost : Prop :=
  ∀ (s t : State) (evs : List Event), (∀ e ∈ evs, e.notReset = true) →
    (∀ (k : Nat) (u : State), k < evs.length → runEvents (evs.take k) s = .next u → u.busy = true) →
    runEvents evs s = .next t →
    ∃ t', runEvents (evs.filter Event.notHost) s = .next t' ∧ t'.commandPart = t.commandPart

/-! ## Interrupt output, timer, reset -/

/-- `irq` is (DONE and DONE_IE) or ((CMDERR or ACCERR or BUSERR) and ERR_IE) (R282). -/
def Obligations.IrqFollowsStatusAndEnables : Prop :=
  ∀ s : State, s.irq = true ↔
    (s.status.done = true ∧ s.irqen.doneIe = true)
      ∨ ((s.status.cmderr = true ∨ s.status.accerr = true ∨ s.status.buserr = true) ∧ s.irqen.errIe = true)

/-- A `tick` edge adds 1 to TMR in the timed states, saturating at 2^32 - 1, and changes nothing else (R57). -/
def Obligations.TickCountsInTimedStates : Prop :=
  ∀ s : State, ∃ m : BitVec 32, deliver .tick s = .next { s with tmr := m }
    ∧ ((s.pc = .sGuard ∨ s.pc = .xPredelay ∨ s.pc = .xRxswait ∨ s.pc = .xPoll) →
        m.toNat = min (s.tmr.toNat + 1) (2 ^ 32 - 1))
    ∧ (¬ (s.pc = .sGuard ∨ s.pc = .xPredelay ∨ s.pc = .xRxswait ∨ s.pc = .xPoll) → m = s.tmr)

/-- A step with `rst` active, in any state: every register of R59 at its reset value, `irq` 0, no chip-port
transaction, and the buffers with the contents they came up with (R59, R310, R311; that the event brings those
contents as lists is the model's, log 13). -/
def Obligations.ResetPutsEveryRegister : Prop :=
  ∀ (s : State) (tx rx : List Byte), ∃ t, deliver (.rst tx rx) s = .next t
    ∧ t.pc = .idle ∧ t.sub = 0 ∧ t.session = false ∧ t.busy = false ∧ t.status = {} ∧ t.result = {}
    ∧ t.bitcount = 0 ∧ t.txlen = 0 ∧ t.rxcap = 0 ∧ t.irqen = {} ∧ t.rxcount = 0 ∧ t.cache = 0
    ∧ t.fifostat = {} ∧ t.collpos = {} ∧ t.req = {} ∧ t.tmr = 0 ∧ t.work = {} ∧ t.irq = false
    ∧ t.hw = s.hw ∧ t.trace = s.trace
    ∧ (∀ i, i < s.hw.txbufSize → t.txByte i = tx.getD i 0)
    ∧ (∀ i, i < s.hw.rxbufSize → t.rxByte i = rx.getD i 0)

/-! ## Invariants and whole-machine rules -/

/-- The reset state is legal, with its ledger of releases balanced. -/
def Obligations.ResetIsLegal : Prop := State.reset.Legal ∧ State.reset.ReleaseLedger

/-- Every step from a legal state leads to a legal state: memory canonical and inside the buffers, SESSION as `pc`
says, `sub` in range, REQ within its limits, RESULT and BITCOUNT clear while BUSY and well coded after, the snapshot
and COUNT as shown, and step 10 within the receive capacity. The model's choices in it: the range of `sub` in X_POLL,
whose Yield stands at 1 (log 6), and in X_TXWAIT and X_RXSWAIT, where it stays 0 (log 24), the buffers' canonical
form (log 1), and the parameters' place in State (log 2). -/
def Obligations.StepKeepsLegal : Prop :=
  ∀ s t : State, s.Legal → step s = .next t → t.Legal

/-- From a legal state no step stops: there is no event, answer or interleaving for which the FTS has no step. -/
def Obligations.LegalStepNeverStops : Prop :=
  ∀ s : State, s.Legal → ∃ t, step s = .next t

/-- `pc` moves only along the transitions of the rules, unless `rst` is active, `sub` is 0 after every move, and who
moves it is as R32 says: out of IDLE and READY only a host write to CMD that is accepted, out of a busy state only a
turn of SEQ. A turn of SEQ in IDLE or READY changes nothing (R31, R32, R170; that such a turn exists is the model's,
log 17). -/
def Obligations.PcMovesOnlyAlongTheRules : Prop :=
  (∀ (s t : State) (e : Event), s.Legal → e.notReset = true → deliver e s = .next t →
    t.pc = s.pc
      ∨ t.pc ∈ s.pc.successors ∧ t.sub = 0
        ∧ (s.busy = false ∧ (∃ (w : Word) (i : Instr), e = .host (.writeWord 0x000 w) ∧ decode w = .instr i
              ∧ preconditions s i)
          ∨ s.busy = true ∧ ∃ a, e = .seq a))
    ∧ ∀ (s : State) (a : ChipAnswers), s.busy = false → deliver (.seq a) s = .next s

/-- Only a turn of SEQ makes a chip-port transaction, at most one, and none in IDLE or READY (R6, R31, R32, R99). -/
def Obligations.OneTransactionPerSeqTurn : Prop :=
  ∀ (s t : State) (e : Event), deliver e s = .next t →
    t.trace = s.trace ∨ ∃ (a : ChipAnswers) (x : ChipTxn), e = .seq a ∧ s.busy = true ∧ t.trace = s.trace ++ [x]

/-- SEQ never writes TXBUF, and writes RXBUF only in X_EXTRACT and only below REQ.RXCAP (R81, R82, R92). -/
def Obligations.SeqWritesStayBelowCapacity : Prop :=
  ∀ (s t : State) (a : ChipAnswers), s.Legal → deliver (.seq a) s = .next t →
    t.txbuf = s.txbuf
      ∧ ∀ i, t.rxByte i ≠ s.rxByte i → s.pc = .xExtract ∧ i < s.req.rxcap.toNat

/-- DONE rises only in the turn of SEQ that completes a command: the one that writes RESULT with the command's opcode
and moves `pc` to IDLE or READY, with RXBUF no longer changing (R38, R101). -/
def Obligations.DoneRisesOnlyAtCompletion : Prop :=
  ∀ (s t : State) (e : Event), s.Legal → deliver e s = .next t → s.status.done = false → t.status.done = true →
    (∃ a, e = .seq a) ∧ s.busy = true ∧ t.busy = false ∧ t.result.op = s.req.op ∧ t.rxbuf = s.rxbuf

/-- SESSION changes only in the last steps of SSTART and SSTOP, unless `rst` is active (R33, R284). -/
def Obligations.SessionChangesOnlyInSessionCommands : Prop :=
  ∀ (s t : State) (e : Event), e.notReset = true → deliver e s = .next t → t.session ≠ s.session →
    (s.pc = .sGuard ∧ t.session = true ∧ t.pc = .ready)
      ∨ (s.pc = .tStop ∧ s.sub = 1 ∧ t.session = false ∧ t.pc = .idle)

/-- The field is never turned off more often than it was turned on: each FieldOff releases a session of its own (R157).
Every step from a legal state keeps the ledger (that steps keep states legal is StepKeepsLegal). And on a platform
that meets R310's obligation to reset the chip with the FTS, a premise here, the chip's field stays on exactly while
its FieldOff is due, over every event (R311; log 25). -/
def Obligations.StepKeepsReleaseLedger : Prop :=
  (∀ s t : State, s.Legal → s.ReleaseLedger → step s = .next t → t.ReleaseLedger)
    ∧ ∀ (s t : State) (e : Event) (f f' : Bool), s.Legal → s.FieldAsDue f → deliver e s = .next t →
      FieldMay e s t f f' → PlatformResetsChip e f' → t.FieldAsDue f'

/-- The parameters, and so HWCFG, are the same in every state of a run (R8, R52; that they stand in State is the
model's, log 2). -/
def Obligations.ParametersNeverChange : Prop :=
  ∀ s t : State, step s = .next t → t.hw = s.hw

end
end

