-- ==== Sys2Proof/Laws/State.lean ====
section
/-! SUPPORT. One lemma per field per update of State, true by definition, so that no later proof unfolds a record
update. -/

namespace Sys2Proof.Machine

/-! ### enter -/

@[simp] theorem State.enter_hw (p : FsmState) (s : State) : (s.enter p).hw = s.hw := rfl
@[simp] theorem State.enter_pc (p : FsmState) (s : State) : (s.enter p).pc = p := rfl
@[simp] theorem State.enter_sub (p : FsmState) (s : State) : (s.enter p).sub = 0 := rfl
@[simp] theorem State.enter_session (p : FsmState) (s : State) : (s.enter p).session = s.session := rfl
@[simp] theorem State.enter_status (p : FsmState) (s : State) : (s.enter p).status = s.status := rfl
@[simp] theorem State.enter_result (p : FsmState) (s : State) : (s.enter p).result = s.result := rfl
@[simp] theorem State.enter_bitcount (p : FsmState) (s : State) : (s.enter p).bitcount = s.bitcount := rfl
@[simp] theorem State.enter_txlen (p : FsmState) (s : State) : (s.enter p).txlen = s.txlen := rfl
@[simp] theorem State.enter_rxcap (p : FsmState) (s : State) : (s.enter p).rxcap = s.rxcap := rfl
@[simp] theorem State.enter_irqen (p : FsmState) (s : State) : (s.enter p).irqen = s.irqen := rfl
@[simp] theorem State.enter_rxcount (p : FsmState) (s : State) : (s.enter p).rxcount = s.rxcount := rfl
@[simp] theorem State.enter_fifostat (p : FsmState) (s : State) : (s.enter p).fifostat = s.fifostat := rfl
@[simp] theorem State.enter_collpos (p : FsmState) (s : State) : (s.enter p).collpos = s.collpos := rfl
@[simp] theorem State.enter_req (p : FsmState) (s : State) : (s.enter p).req = s.req := rfl
@[simp] theorem State.enter_cache (p : FsmState) (s : State) : (s.enter p).cache = s.cache := rfl
@[simp] theorem State.enter_tmr (p : FsmState) (s : State) : (s.enter p).tmr = if p.timed then 0 else s.tmr := rfl
@[simp] theorem State.enter_work (p : FsmState) (s : State) : (s.enter p).work = s.work := rfl
@[simp] theorem State.enter_txbuf (p : FsmState) (s : State) : (s.enter p).txbuf = s.txbuf := rfl
@[simp] theorem State.enter_rxbuf (p : FsmState) (s : State) : (s.enter p).rxbuf = s.rxbuf := rfl
@[simp] theorem State.enter_trace (p : FsmState) (s : State) : (s.enter p).trace = s.trace := rfl
@[simp] theorem State.enter_responses (p : FsmState) (s : State) : (s.enter p).responses = s.responses := rfl
@[simp] theorem State.enter_inputs (p : FsmState) (s : State) : (s.enter p).inputs = s.inputs := rfl
@[simp] theorem State.enter_draws (p : FsmState) (s : State) : (s.enter p).draws = s.draws := rfl

/-! ### nextSub -/

@[simp] theorem State.nextSub_hw (s : State) : (s.nextSub).hw = s.hw := rfl
@[simp] theorem State.nextSub_pc (s : State) : (s.nextSub).pc = s.pc := rfl
@[simp] theorem State.nextSub_sub (s : State) : (s.nextSub).sub = s.sub + 1 := rfl
@[simp] theorem State.nextSub_session (s : State) : (s.nextSub).session = s.session := rfl
@[simp] theorem State.nextSub_status (s : State) : (s.nextSub).status = s.status := rfl
@[simp] theorem State.nextSub_result (s : State) : (s.nextSub).result = s.result := rfl
@[simp] theorem State.nextSub_bitcount (s : State) : (s.nextSub).bitcount = s.bitcount := rfl
@[simp] theorem State.nextSub_txlen (s : State) : (s.nextSub).txlen = s.txlen := rfl
@[simp] theorem State.nextSub_rxcap (s : State) : (s.nextSub).rxcap = s.rxcap := rfl
@[simp] theorem State.nextSub_irqen (s : State) : (s.nextSub).irqen = s.irqen := rfl
@[simp] theorem State.nextSub_rxcount (s : State) : (s.nextSub).rxcount = s.rxcount := rfl
@[simp] theorem State.nextSub_fifostat (s : State) : (s.nextSub).fifostat = s.fifostat := rfl
@[simp] theorem State.nextSub_collpos (s : State) : (s.nextSub).collpos = s.collpos := rfl
@[simp] theorem State.nextSub_req (s : State) : (s.nextSub).req = s.req := rfl
@[simp] theorem State.nextSub_cache (s : State) : (s.nextSub).cache = s.cache := rfl
@[simp] theorem State.nextSub_tmr (s : State) : (s.nextSub).tmr = s.tmr := rfl
@[simp] theorem State.nextSub_work (s : State) : (s.nextSub).work = s.work := rfl
@[simp] theorem State.nextSub_txbuf (s : State) : (s.nextSub).txbuf = s.txbuf := rfl
@[simp] theorem State.nextSub_rxbuf (s : State) : (s.nextSub).rxbuf = s.rxbuf := rfl
@[simp] theorem State.nextSub_trace (s : State) : (s.nextSub).trace = s.trace := rfl
@[simp] theorem State.nextSub_responses (s : State) : (s.nextSub).responses = s.responses := rfl
@[simp] theorem State.nextSub_inputs (s : State) : (s.nextSub).inputs = s.inputs := rfl
@[simp] theorem State.nextSub_draws (s : State) : (s.nextSub).draws = s.draws := rfl

/-! ### perform -/

@[simp] theorem State.perform_hw (x : ChipTxn) (s : State) : (s.perform x).hw = s.hw := rfl
@[simp] theorem State.perform_pc (x : ChipTxn) (s : State) : (s.perform x).pc = s.pc := rfl
@[simp] theorem State.perform_sub (x : ChipTxn) (s : State) : (s.perform x).sub = s.sub := rfl
@[simp] theorem State.perform_session (x : ChipTxn) (s : State) : (s.perform x).session = s.session := rfl
@[simp] theorem State.perform_status (x : ChipTxn) (s : State) : (s.perform x).status = s.status := rfl
@[simp] theorem State.perform_result (x : ChipTxn) (s : State) : (s.perform x).result = s.result := rfl
@[simp] theorem State.perform_bitcount (x : ChipTxn) (s : State) : (s.perform x).bitcount = s.bitcount := rfl
@[simp] theorem State.perform_txlen (x : ChipTxn) (s : State) : (s.perform x).txlen = s.txlen := rfl
@[simp] theorem State.perform_rxcap (x : ChipTxn) (s : State) : (s.perform x).rxcap = s.rxcap := rfl
@[simp] theorem State.perform_irqen (x : ChipTxn) (s : State) : (s.perform x).irqen = s.irqen := rfl
@[simp] theorem State.perform_rxcount (x : ChipTxn) (s : State) : (s.perform x).rxcount = s.rxcount := rfl
@[simp] theorem State.perform_fifostat (x : ChipTxn) (s : State) : (s.perform x).fifostat = s.fifostat := rfl
@[simp] theorem State.perform_collpos (x : ChipTxn) (s : State) : (s.perform x).collpos = s.collpos := rfl
@[simp] theorem State.perform_req (x : ChipTxn) (s : State) : (s.perform x).req = s.req := rfl
@[simp] theorem State.perform_cache (x : ChipTxn) (s : State) : (s.perform x).cache = s.cache := rfl
@[simp] theorem State.perform_tmr (x : ChipTxn) (s : State) : (s.perform x).tmr = s.tmr := rfl
@[simp] theorem State.perform_work (x : ChipTxn) (s : State) : (s.perform x).work = s.work := rfl
@[simp] theorem State.perform_txbuf (x : ChipTxn) (s : State) : (s.perform x).txbuf = s.txbuf := rfl
@[simp] theorem State.perform_rxbuf (x : ChipTxn) (s : State) : (s.perform x).rxbuf = s.rxbuf := rfl
@[simp] theorem State.perform_trace (x : ChipTxn) (s : State) : (s.perform x).trace = s.trace ++ [x] := rfl
@[simp] theorem State.perform_responses (x : ChipTxn) (s : State) : (s.perform x).responses = s.responses := rfl
@[simp] theorem State.perform_inputs (x : ChipTxn) (s : State) : (s.perform x).inputs = s.inputs := rfl
@[simp] theorem State.perform_draws (x : ChipTxn) (s : State) : (s.perform x).draws = s.draws := rfl

/-! ### irqRefresh -/

@[simp] theorem State.irqRefresh_hw (l : IrqFlags) (s : State) : (s.irqRefresh l).hw = s.hw := rfl
@[simp] theorem State.irqRefresh_pc (l : IrqFlags) (s : State) : (s.irqRefresh l).pc = s.pc := rfl
@[simp] theorem State.irqRefresh_sub (l : IrqFlags) (s : State) : (s.irqRefresh l).sub = s.sub := rfl
@[simp] theorem State.irqRefresh_session (l : IrqFlags) (s : State) : (s.irqRefresh l).session = s.session := rfl
@[simp] theorem State.irqRefresh_status (l : IrqFlags) (s : State) : (s.irqRefresh l).status = s.status := rfl
@[simp] theorem State.irqRefresh_result (l : IrqFlags) (s : State) : (s.irqRefresh l).result = s.result := rfl
@[simp] theorem State.irqRefresh_bitcount (l : IrqFlags) (s : State) : (s.irqRefresh l).bitcount = s.bitcount := rfl
@[simp] theorem State.irqRefresh_txlen (l : IrqFlags) (s : State) : (s.irqRefresh l).txlen = s.txlen := rfl
@[simp] theorem State.irqRefresh_rxcap (l : IrqFlags) (s : State) : (s.irqRefresh l).rxcap = s.rxcap := rfl
@[simp] theorem State.irqRefresh_irqen (l : IrqFlags) (s : State) : (s.irqRefresh l).irqen = s.irqen := rfl
@[simp] theorem State.irqRefresh_rxcount (l : IrqFlags) (s : State) : (s.irqRefresh l).rxcount = s.rxcount := rfl
@[simp] theorem State.irqRefresh_fifostat (l : IrqFlags) (s : State) : (s.irqRefresh l).fifostat = s.fifostat := rfl
@[simp] theorem State.irqRefresh_collpos (l : IrqFlags) (s : State) : (s.irqRefresh l).collpos = s.collpos := rfl
@[simp] theorem State.irqRefresh_req (l : IrqFlags) (s : State) : (s.irqRefresh l).req = s.req := rfl
@[simp] theorem State.irqRefresh_cache (l : IrqFlags) (s : State) : (s.irqRefresh l).cache = s.cache ||| l := rfl
@[simp] theorem State.irqRefresh_tmr (l : IrqFlags) (s : State) : (s.irqRefresh l).tmr = s.tmr := rfl
@[simp] theorem State.irqRefresh_work (l : IrqFlags) (s : State) : (s.irqRefresh l).work = s.work := rfl
@[simp] theorem State.irqRefresh_txbuf (l : IrqFlags) (s : State) : (s.irqRefresh l).txbuf = s.txbuf := rfl
@[simp] theorem State.irqRefresh_rxbuf (l : IrqFlags) (s : State) : (s.irqRefresh l).rxbuf = s.rxbuf := rfl
@[simp] theorem State.irqRefresh_trace (l : IrqFlags) (s : State) : (s.irqRefresh l).trace = s.trace ++ [.irqRefresh l] := rfl
@[simp] theorem State.irqRefresh_responses (l : IrqFlags) (s : State) : (s.irqRefresh l).responses = s.responses := rfl
@[simp] theorem State.irqRefresh_inputs (l : IrqFlags) (s : State) : (s.irqRefresh l).inputs = s.inputs := rfl
@[simp] theorem State.irqRefresh_draws (l : IrqFlags) (s : State) : (s.irqRefresh l).draws = s.draws := rfl

/-! ### irqClearAll -/

@[simp] theorem State.irqClearAll_hw (s : State) : (s.irqClearAll).hw = s.hw := rfl
@[simp] theorem State.irqClearAll_pc (s : State) : (s.irqClearAll).pc = s.pc := rfl
@[simp] theorem State.irqClearAll_sub (s : State) : (s.irqClearAll).sub = s.sub := rfl
@[simp] theorem State.irqClearAll_session (s : State) : (s.irqClearAll).session = s.session := rfl
@[simp] theorem State.irqClearAll_status (s : State) : (s.irqClearAll).status = s.status := rfl
@[simp] theorem State.irqClearAll_result (s : State) : (s.irqClearAll).result = s.result := rfl
@[simp] theorem State.irqClearAll_bitcount (s : State) : (s.irqClearAll).bitcount = s.bitcount := rfl
@[simp] theorem State.irqClearAll_txlen (s : State) : (s.irqClearAll).txlen = s.txlen := rfl
@[simp] theorem State.irqClearAll_rxcap (s : State) : (s.irqClearAll).rxcap = s.rxcap := rfl
@[simp] theorem State.irqClearAll_irqen (s : State) : (s.irqClearAll).irqen = s.irqen := rfl
@[simp] theorem State.irqClearAll_rxcount (s : State) : (s.irqClearAll).rxcount = s.rxcount := rfl
@[simp] theorem State.irqClearAll_fifostat (s : State) : (s.irqClearAll).fifostat = s.fifostat := rfl
@[simp] theorem State.irqClearAll_collpos (s : State) : (s.irqClearAll).collpos = s.collpos := rfl
@[simp] theorem State.irqClearAll_req (s : State) : (s.irqClearAll).req = s.req := rfl
@[simp] theorem State.irqClearAll_cache (s : State) : (s.irqClearAll).cache = 0 := rfl
@[simp] theorem State.irqClearAll_tmr (s : State) : (s.irqClearAll).tmr = s.tmr := rfl
@[simp] theorem State.irqClearAll_work (s : State) : (s.irqClearAll).work = s.work := rfl
@[simp] theorem State.irqClearAll_txbuf (s : State) : (s.irqClearAll).txbuf = s.txbuf := rfl
@[simp] theorem State.irqClearAll_rxbuf (s : State) : (s.irqClearAll).rxbuf = s.rxbuf := rfl
@[simp] theorem State.irqClearAll_trace (s : State) : (s.irqClearAll).trace = s.trace ++ [.irqClearAll] := rfl
@[simp] theorem State.irqClearAll_responses (s : State) : (s.irqClearAll).responses = s.responses := rfl
@[simp] theorem State.irqClearAll_inputs (s : State) : (s.irqClearAll).inputs = s.inputs := rfl
@[simp] theorem State.irqClearAll_draws (s : State) : (s.irqClearAll).draws = s.draws := rfl

/-! ### rxStore -/

@[simp] theorem State.rxStore_hw (i : Nat) (bs : List Byte) (s : State) : (s.rxStore i bs).hw = s.hw := rfl
@[simp] theorem State.rxStore_pc (i : Nat) (bs : List Byte) (s : State) : (s.rxStore i bs).pc = s.pc := rfl
@[simp] theorem State.rxStore_sub (i : Nat) (bs : List Byte) (s : State) : (s.rxStore i bs).sub = s.sub := rfl
@[simp] theorem State.rxStore_session (i : Nat) (bs : List Byte) (s : State) : (s.rxStore i bs).session = s.session := rfl
@[simp] theorem State.rxStore_status (i : Nat) (bs : List Byte) (s : State) : (s.rxStore i bs).status = s.status := rfl
@[simp] theorem State.rxStore_result (i : Nat) (bs : List Byte) (s : State) : (s.rxStore i bs).result = s.result := rfl
@[simp] theorem State.rxStore_bitcount (i : Nat) (bs : List Byte) (s : State) : (s.rxStore i bs).bitcount = s.bitcount := rfl
@[simp] theorem State.rxStore_txlen (i : Nat) (bs : List Byte) (s : State) : (s.rxStore i bs).txlen = s.txlen := rfl
@[simp] theorem State.rxStore_rxcap (i : Nat) (bs : List Byte) (s : State) : (s.rxStore i bs).rxcap = s.rxcap := rfl
@[simp] theorem State.rxStore_irqen (i : Nat) (bs : List Byte) (s : State) : (s.rxStore i bs).irqen = s.irqen := rfl
@[simp] theorem State.rxStore_rxcount (i : Nat) (bs : List Byte) (s : State) : (s.rxStore i bs).rxcount = s.rxcount := rfl
@[simp] theorem State.rxStore_fifostat (i : Nat) (bs : List Byte) (s : State) : (s.rxStore i bs).fifostat = s.fifostat := rfl
@[simp] theorem State.rxStore_collpos (i : Nat) (bs : List Byte) (s : State) : (s.rxStore i bs).collpos = s.collpos := rfl
@[simp] theorem State.rxStore_req (i : Nat) (bs : List Byte) (s : State) : (s.rxStore i bs).req = s.req := rfl
@[simp] theorem State.rxStore_cache (i : Nat) (bs : List Byte) (s : State) : (s.rxStore i bs).cache = s.cache := rfl
@[simp] theorem State.rxStore_tmr (i : Nat) (bs : List Byte) (s : State) : (s.rxStore i bs).tmr = s.tmr := rfl
@[simp] theorem State.rxStore_work (i : Nat) (bs : List Byte) (s : State) : (s.rxStore i bs).work = s.work := rfl
@[simp] theorem State.rxStore_txbuf (i : Nat) (bs : List Byte) (s : State) : (s.rxStore i bs).txbuf = s.txbuf := rfl
@[simp] theorem State.rxStore_rxbuf (i : Nat) (bs : List Byte) (s : State) : (s.rxStore i bs).rxbuf = bufWriteList s.hw.rxbufSize s.rxbuf i bs := rfl
@[simp] theorem State.rxStore_trace (i : Nat) (bs : List Byte) (s : State) : (s.rxStore i bs).trace = s.trace := rfl
@[simp] theorem State.rxStore_responses (i : Nat) (bs : List Byte) (s : State) : (s.rxStore i bs).responses = s.responses := rfl
@[simp] theorem State.rxStore_inputs (i : Nat) (bs : List Byte) (s : State) : (s.rxStore i bs).inputs = s.inputs := rfl
@[simp] theorem State.rxStore_draws (i : Nat) (bs : List Byte) (s : State) : (s.rxStore i bs).draws = s.draws := rfl

/-! ### tick -/

@[simp] theorem State.tick_hw (s : State) : (s.tick).hw = s.hw := rfl
@[simp] theorem State.tick_pc (s : State) : (s.tick).pc = s.pc := rfl
@[simp] theorem State.tick_sub (s : State) : (s.tick).sub = s.sub := rfl
@[simp] theorem State.tick_session (s : State) : (s.tick).session = s.session := rfl
@[simp] theorem State.tick_status (s : State) : (s.tick).status = s.status := rfl
@[simp] theorem State.tick_result (s : State) : (s.tick).result = s.result := rfl
@[simp] theorem State.tick_bitcount (s : State) : (s.tick).bitcount = s.bitcount := rfl
@[simp] theorem State.tick_txlen (s : State) : (s.tick).txlen = s.txlen := rfl
@[simp] theorem State.tick_rxcap (s : State) : (s.tick).rxcap = s.rxcap := rfl
@[simp] theorem State.tick_irqen (s : State) : (s.tick).irqen = s.irqen := rfl
@[simp] theorem State.tick_rxcount (s : State) : (s.tick).rxcount = s.rxcount := rfl
@[simp] theorem State.tick_fifostat (s : State) : (s.tick).fifostat = s.fifostat := rfl
@[simp] theorem State.tick_collpos (s : State) : (s.tick).collpos = s.collpos := rfl
@[simp] theorem State.tick_req (s : State) : (s.tick).req = s.req := rfl
@[simp] theorem State.tick_cache (s : State) : (s.tick).cache = s.cache := rfl
@[simp] theorem State.tick_tmr (s : State) : (s.tick).tmr = if s.pc.timed = true ∧ s.tmr.toNat < 2 ^ 32 - 1 then s.tmr + 1 else s.tmr := rfl
@[simp] theorem State.tick_work (s : State) : (s.tick).work = s.work := rfl
@[simp] theorem State.tick_txbuf (s : State) : (s.tick).txbuf = s.txbuf := rfl
@[simp] theorem State.tick_rxbuf (s : State) : (s.tick).rxbuf = s.rxbuf := rfl
@[simp] theorem State.tick_trace (s : State) : (s.tick).trace = s.trace := rfl
@[simp] theorem State.tick_responses (s : State) : (s.tick).responses = s.responses := rfl
@[simp] theorem State.tick_inputs (s : State) : (s.tick).inputs = s.inputs := rfl
@[simp] theorem State.tick_draws (s : State) : (s.tick).draws = s.draws := rfl

/-! ### latch -/

@[simp] theorem State.latch_hw (w : Word) (s : State) : (s.latch w).hw = s.hw := rfl
@[simp] theorem State.latch_pc (w : Word) (s : State) : (s.latch w).pc = s.pc := rfl
@[simp] theorem State.latch_sub (w : Word) (s : State) : (s.latch w).sub = s.sub := rfl
@[simp] theorem State.latch_session (w : Word) (s : State) : (s.latch w).session = s.session := rfl
@[simp] theorem State.latch_status (w : Word) (s : State) : (s.latch w).status = { s.status with done := false } := rfl
@[simp] theorem State.latch_result (w : Word) (s : State) : (s.latch w).result = {} := rfl
@[simp] theorem State.latch_bitcount (w : Word) (s : State) : (s.latch w).bitcount = 0 := rfl
@[simp] theorem State.latch_txlen (w : Word) (s : State) : (s.latch w).txlen = s.txlen := rfl
@[simp] theorem State.latch_rxcap (w : Word) (s : State) : (s.latch w).rxcap = s.rxcap := rfl
@[simp] theorem State.latch_irqen (w : Word) (s : State) : (s.latch w).irqen = s.irqen := rfl
@[simp] theorem State.latch_rxcount (w : Word) (s : State) : (s.latch w).rxcount = s.rxcount := rfl
@[simp] theorem State.latch_fifostat (w : Word) (s : State) : (s.latch w).fifostat = s.fifostat := rfl
@[simp] theorem State.latch_collpos (w : Word) (s : State) : (s.latch w).collpos = s.collpos := rfl
@[simp] theorem State.latch_req (w : Word) (s : State) : (s.latch w).req = { op := opField w, bits := bitsField w, fwt := fwtField w, txlen := s.txlen, rxcap := s.rxcap } := rfl
@[simp] theorem State.latch_cache (w : Word) (s : State) : (s.latch w).cache = s.cache := rfl
@[simp] theorem State.latch_tmr (w : Word) (s : State) : (s.latch w).tmr = s.tmr := rfl
@[simp] theorem State.latch_work (w : Word) (s : State) : (s.latch w).work = s.work := rfl
@[simp] theorem State.latch_txbuf (w : Word) (s : State) : (s.latch w).txbuf = s.txbuf := rfl
@[simp] theorem State.latch_rxbuf (w : Word) (s : State) : (s.latch w).rxbuf = s.rxbuf := rfl
@[simp] theorem State.latch_trace (w : Word) (s : State) : (s.latch w).trace = s.trace := rfl
@[simp] theorem State.latch_responses (w : Word) (s : State) : (s.latch w).responses = s.responses := rfl
@[simp] theorem State.latch_inputs (w : Word) (s : State) : (s.latch w).inputs = s.inputs := rfl
@[simp] theorem State.latch_draws (w : Word) (s : State) : (s.latch w).draws = s.draws := rfl

/-! ### finish -/

@[simp] theorem State.finish_hw (r : ResultReg) (b : Word) (p : FsmState) (s : State) : (s.finish r b p).hw = s.hw := rfl
@[simp] theorem State.finish_pc (r : ResultReg) (b : Word) (p : FsmState) (s : State) : (s.finish r b p).pc = p := rfl
@[simp] theorem State.finish_sub (r : ResultReg) (b : Word) (p : FsmState) (s : State) : (s.finish r b p).sub = 0 := rfl
@[simp] theorem State.finish_session (r : ResultReg) (b : Word) (p : FsmState) (s : State) : (s.finish r b p).session = s.session := rfl
@[simp] theorem State.finish_status (r : ResultReg) (b : Word) (p : FsmState) (s : State) : (s.finish r b p).status = { s.status with done := true } := rfl
@[simp] theorem State.finish_result (r : ResultReg) (b : Word) (p : FsmState) (s : State) : (s.finish r b p).result = r := rfl
@[simp] theorem State.finish_bitcount (r : ResultReg) (b : Word) (p : FsmState) (s : State) : (s.finish r b p).bitcount = b := rfl
@[simp] theorem State.finish_txlen (r : ResultReg) (b : Word) (p : FsmState) (s : State) : (s.finish r b p).txlen = s.txlen := rfl
@[simp] theorem State.finish_rxcap (r : ResultReg) (b : Word) (p : FsmState) (s : State) : (s.finish r b p).rxcap = s.rxcap := rfl
@[simp] theorem State.finish_irqen (r : ResultReg) (b : Word) (p : FsmState) (s : State) : (s.finish r b p).irqen = s.irqen := rfl
@[simp] theorem State.finish_rxcount (r : ResultReg) (b : Word) (p : FsmState) (s : State) : (s.finish r b p).rxcount = s.rxcount := rfl
@[simp] theorem State.finish_fifostat (r : ResultReg) (b : Word) (p : FsmState) (s : State) : (s.finish r b p).fifostat = s.fifostat := rfl
@[simp] theorem State.finish_collpos (r : ResultReg) (b : Word) (p : FsmState) (s : State) : (s.finish r b p).collpos = s.collpos := rfl
@[simp] theorem State.finish_req (r : ResultReg) (b : Word) (p : FsmState) (s : State) : (s.finish r b p).req = s.req := rfl
@[simp] theorem State.finish_cache (r : ResultReg) (b : Word) (p : FsmState) (s : State) : (s.finish r b p).cache = s.cache := rfl
@[simp] theorem State.finish_tmr (r : ResultReg) (b : Word) (p : FsmState) (s : State) : (s.finish r b p).tmr = if p.timed then 0 else s.tmr := rfl
@[simp] theorem State.finish_work (r : ResultReg) (b : Word) (p : FsmState) (s : State) : (s.finish r b p).work = s.work := rfl
@[simp] theorem State.finish_txbuf (r : ResultReg) (b : Word) (p : FsmState) (s : State) : (s.finish r b p).txbuf = s.txbuf := rfl
@[simp] theorem State.finish_rxbuf (r : ResultReg) (b : Word) (p : FsmState) (s : State) : (s.finish r b p).rxbuf = s.rxbuf := rfl
@[simp] theorem State.finish_trace (r : ResultReg) (b : Word) (p : FsmState) (s : State) : (s.finish r b p).trace = s.trace := rfl
@[simp] theorem State.finish_responses (r : ResultReg) (b : Word) (p : FsmState) (s : State) : (s.finish r b p).responses = s.responses := rfl
@[simp] theorem State.finish_inputs (r : ResultReg) (b : Word) (p : FsmState) (s : State) : (s.finish r b p).inputs = s.inputs := rfl
@[simp] theorem State.finish_draws (r : ResultReg) (b : Word) (p : FsmState) (s : State) : (s.finish r b p).draws = s.draws := rfl

/-! ### reject -/

@[simp] theorem State.reject_hw (s : State) : (s.reject).hw = s.hw := rfl
@[simp] theorem State.reject_pc (s : State) : (s.reject).pc = s.pc := rfl
@[simp] theorem State.reject_sub (s : State) : (s.reject).sub = s.sub := rfl
@[simp] theorem State.reject_session (s : State) : (s.reject).session = s.session := rfl
@[simp] theorem State.reject_status (s : State) : (s.reject).status = { s.status with cmderr := true } := rfl
@[simp] theorem State.reject_result (s : State) : (s.reject).result = s.result := rfl
@[simp] theorem State.reject_bitcount (s : State) : (s.reject).bitcount = s.bitcount := rfl
@[simp] theorem State.reject_txlen (s : State) : (s.reject).txlen = s.txlen := rfl
@[simp] theorem State.reject_rxcap (s : State) : (s.reject).rxcap = s.rxcap := rfl
@[simp] theorem State.reject_irqen (s : State) : (s.reject).irqen = s.irqen := rfl
@[simp] theorem State.reject_rxcount (s : State) : (s.reject).rxcount = s.rxcount := rfl
@[simp] theorem State.reject_fifostat (s : State) : (s.reject).fifostat = s.fifostat := rfl
@[simp] theorem State.reject_collpos (s : State) : (s.reject).collpos = s.collpos := rfl
@[simp] theorem State.reject_req (s : State) : (s.reject).req = s.req := rfl
@[simp] theorem State.reject_cache (s : State) : (s.reject).cache = s.cache := rfl
@[simp] theorem State.reject_tmr (s : State) : (s.reject).tmr = s.tmr := rfl
@[simp] theorem State.reject_work (s : State) : (s.reject).work = s.work := rfl
@[simp] theorem State.reject_txbuf (s : State) : (s.reject).txbuf = s.txbuf := rfl
@[simp] theorem State.reject_rxbuf (s : State) : (s.reject).rxbuf = s.rxbuf := rfl
@[simp] theorem State.reject_trace (s : State) : (s.reject).trace = s.trace := rfl
@[simp] theorem State.reject_responses (s : State) : (s.reject).responses = s.responses := rfl
@[simp] theorem State.reject_inputs (s : State) : (s.reject).inputs = s.inputs := rfl
@[simp] theorem State.reject_draws (s : State) : (s.reject).draws = s.draws := rfl

/-! ### dropWrite -/

@[simp] theorem State.dropWrite_hw (s : State) : (s.dropWrite).hw = s.hw := rfl
@[simp] theorem State.dropWrite_pc (s : State) : (s.dropWrite).pc = s.pc := rfl
@[simp] theorem State.dropWrite_sub (s : State) : (s.dropWrite).sub = s.sub := rfl
@[simp] theorem State.dropWrite_session (s : State) : (s.dropWrite).session = s.session := rfl
@[simp] theorem State.dropWrite_status (s : State) : (s.dropWrite).status = { s.status with accerr := true } := rfl
@[simp] theorem State.dropWrite_result (s : State) : (s.dropWrite).result = s.result := rfl
@[simp] theorem State.dropWrite_bitcount (s : State) : (s.dropWrite).bitcount = s.bitcount := rfl
@[simp] theorem State.dropWrite_txlen (s : State) : (s.dropWrite).txlen = s.txlen := rfl
@[simp] theorem State.dropWrite_rxcap (s : State) : (s.dropWrite).rxcap = s.rxcap := rfl
@[simp] theorem State.dropWrite_irqen (s : State) : (s.dropWrite).irqen = s.irqen := rfl
@[simp] theorem State.dropWrite_rxcount (s : State) : (s.dropWrite).rxcount = s.rxcount := rfl
@[simp] theorem State.dropWrite_fifostat (s : State) : (s.dropWrite).fifostat = s.fifostat := rfl
@[simp] theorem State.dropWrite_collpos (s : State) : (s.dropWrite).collpos = s.collpos := rfl
@[simp] theorem State.dropWrite_req (s : State) : (s.dropWrite).req = s.req := rfl
@[simp] theorem State.dropWrite_cache (s : State) : (s.dropWrite).cache = s.cache := rfl
@[simp] theorem State.dropWrite_tmr (s : State) : (s.dropWrite).tmr = s.tmr := rfl
@[simp] theorem State.dropWrite_work (s : State) : (s.dropWrite).work = s.work := rfl
@[simp] theorem State.dropWrite_txbuf (s : State) : (s.dropWrite).txbuf = s.txbuf := rfl
@[simp] theorem State.dropWrite_rxbuf (s : State) : (s.dropWrite).rxbuf = s.rxbuf := rfl
@[simp] theorem State.dropWrite_trace (s : State) : (s.dropWrite).trace = s.trace := rfl
@[simp] theorem State.dropWrite_responses (s : State) : (s.dropWrite).responses = s.responses := rfl
@[simp] theorem State.dropWrite_inputs (s : State) : (s.dropWrite).inputs = s.inputs := rfl
@[simp] theorem State.dropWrite_draws (s : State) : (s.dropWrite).draws = s.draws := rfl

/-! ### respond -/

@[simp] theorem State.respond_hw (r : HostResponse) (s : State) : (s.respond r).hw = s.hw := rfl
@[simp] theorem State.respond_pc (r : HostResponse) (s : State) : (s.respond r).pc = s.pc := rfl
@[simp] theorem State.respond_sub (r : HostResponse) (s : State) : (s.respond r).sub = s.sub := rfl
@[simp] theorem State.respond_session (r : HostResponse) (s : State) : (s.respond r).session = s.session := rfl
@[simp] theorem State.respond_status (r : HostResponse) (s : State) : (s.respond r).status = s.status := rfl
@[simp] theorem State.respond_result (r : HostResponse) (s : State) : (s.respond r).result = s.result := rfl
@[simp] theorem State.respond_bitcount (r : HostResponse) (s : State) : (s.respond r).bitcount = s.bitcount := rfl
@[simp] theorem State.respond_txlen (r : HostResponse) (s : State) : (s.respond r).txlen = s.txlen := rfl
@[simp] theorem State.respond_rxcap (r : HostResponse) (s : State) : (s.respond r).rxcap = s.rxcap := rfl
@[simp] theorem State.respond_irqen (r : HostResponse) (s : State) : (s.respond r).irqen = s.irqen := rfl
@[simp] theorem State.respond_rxcount (r : HostResponse) (s : State) : (s.respond r).rxcount = s.rxcount := rfl
@[simp] theorem State.respond_fifostat (r : HostResponse) (s : State) : (s.respond r).fifostat = s.fifostat := rfl
@[simp] theorem State.respond_collpos (r : HostResponse) (s : State) : (s.respond r).collpos = s.collpos := rfl
@[simp] theorem State.respond_req (r : HostResponse) (s : State) : (s.respond r).req = s.req := rfl
@[simp] theorem State.respond_cache (r : HostResponse) (s : State) : (s.respond r).cache = s.cache := rfl
@[simp] theorem State.respond_tmr (r : HostResponse) (s : State) : (s.respond r).tmr = s.tmr := rfl
@[simp] theorem State.respond_work (r : HostResponse) (s : State) : (s.respond r).work = s.work := rfl
@[simp] theorem State.respond_txbuf (r : HostResponse) (s : State) : (s.respond r).txbuf = s.txbuf := rfl
@[simp] theorem State.respond_rxbuf (r : HostResponse) (s : State) : (s.respond r).rxbuf = s.rxbuf := rfl
@[simp] theorem State.respond_trace (r : HostResponse) (s : State) : (s.respond r).trace = s.trace := rfl
@[simp] theorem State.respond_responses (r : HostResponse) (s : State) : (s.respond r).responses = s.responses ++ [r] := rfl
@[simp] theorem State.respond_inputs (r : HostResponse) (s : State) : (s.respond r).inputs = s.inputs := rfl
@[simp] theorem State.respond_draws (r : HostResponse) (s : State) : (s.respond r).draws = s.draws := rfl

/-! ### busFault -/

@[simp] theorem State.busFault_hw (s : State) : (s.busFault).hw = s.hw := rfl
@[simp] theorem State.busFault_pc (s : State) : (s.busFault).pc = s.pc := rfl
@[simp] theorem State.busFault_sub (s : State) : (s.busFault).sub = s.sub := rfl
@[simp] theorem State.busFault_session (s : State) : (s.busFault).session = s.session := rfl
@[simp] theorem State.busFault_status (s : State) : (s.busFault).status = { s.status with buserr := true } := rfl
@[simp] theorem State.busFault_result (s : State) : (s.busFault).result = s.result := rfl
@[simp] theorem State.busFault_bitcount (s : State) : (s.busFault).bitcount = s.bitcount := rfl
@[simp] theorem State.busFault_txlen (s : State) : (s.busFault).txlen = s.txlen := rfl
@[simp] theorem State.busFault_rxcap (s : State) : (s.busFault).rxcap = s.rxcap := rfl
@[simp] theorem State.busFault_irqen (s : State) : (s.busFault).irqen = s.irqen := rfl
@[simp] theorem State.busFault_rxcount (s : State) : (s.busFault).rxcount = s.rxcount := rfl
@[simp] theorem State.busFault_fifostat (s : State) : (s.busFault).fifostat = s.fifostat := rfl
@[simp] theorem State.busFault_collpos (s : State) : (s.busFault).collpos = s.collpos := rfl
@[simp] theorem State.busFault_req (s : State) : (s.busFault).req = s.req := rfl
@[simp] theorem State.busFault_cache (s : State) : (s.busFault).cache = s.cache := rfl
@[simp] theorem State.busFault_tmr (s : State) : (s.busFault).tmr = s.tmr := rfl
@[simp] theorem State.busFault_work (s : State) : (s.busFault).work = s.work := rfl
@[simp] theorem State.busFault_txbuf (s : State) : (s.busFault).txbuf = s.txbuf := rfl
@[simp] theorem State.busFault_rxbuf (s : State) : (s.busFault).rxbuf = s.rxbuf := rfl
@[simp] theorem State.busFault_trace (s : State) : (s.busFault).trace = s.trace := rfl
@[simp] theorem State.busFault_responses (s : State) : (s.busFault).responses = s.responses ++ [.busError] := rfl
@[simp] theorem State.busFault_inputs (s : State) : (s.busFault).inputs = s.inputs := rfl
@[simp] theorem State.busFault_draws (s : State) : (s.busFault).draws = s.draws := rfl

/-! ### clearCache -/

@[simp] theorem State.clearCache_hw (s : State) : (s.clearCache).hw = s.hw := rfl
@[simp] theorem State.clearCache_pc (s : State) : (s.clearCache).pc = s.pc := rfl
@[simp] theorem State.clearCache_sub (s : State) : (s.clearCache).sub = s.sub := rfl
@[simp] theorem State.clearCache_session (s : State) : (s.clearCache).session = s.session := rfl
@[simp] theorem State.clearCache_status (s : State) : (s.clearCache).status = s.status := rfl
@[simp] theorem State.clearCache_result (s : State) : (s.clearCache).result = s.result := rfl
@[simp] theorem State.clearCache_bitcount (s : State) : (s.clearCache).bitcount = s.bitcount := rfl
@[simp] theorem State.clearCache_txlen (s : State) : (s.clearCache).txlen = s.txlen := rfl
@[simp] theorem State.clearCache_rxcap (s : State) : (s.clearCache).rxcap = s.rxcap := rfl
@[simp] theorem State.clearCache_irqen (s : State) : (s.clearCache).irqen = s.irqen := rfl
@[simp] theorem State.clearCache_rxcount (s : State) : (s.clearCache).rxcount = s.rxcount := rfl
@[simp] theorem State.clearCache_fifostat (s : State) : (s.clearCache).fifostat = s.fifostat := rfl
@[simp] theorem State.clearCache_collpos (s : State) : (s.clearCache).collpos = s.collpos := rfl
@[simp] theorem State.clearCache_req (s : State) : (s.clearCache).req = s.req := rfl
@[simp] theorem State.clearCache_cache (s : State) : (s.clearCache).cache = 0 := rfl
@[simp] theorem State.clearCache_tmr (s : State) : (s.clearCache).tmr = s.tmr := rfl
@[simp] theorem State.clearCache_work (s : State) : (s.clearCache).work = s.work := rfl
@[simp] theorem State.clearCache_txbuf (s : State) : (s.clearCache).txbuf = s.txbuf := rfl
@[simp] theorem State.clearCache_rxbuf (s : State) : (s.clearCache).rxbuf = s.rxbuf := rfl
@[simp] theorem State.clearCache_trace (s : State) : (s.clearCache).trace = s.trace := rfl
@[simp] theorem State.clearCache_responses (s : State) : (s.clearCache).responses = s.responses := rfl
@[simp] theorem State.clearCache_inputs (s : State) : (s.clearCache).inputs = s.inputs := rfl
@[simp] theorem State.clearCache_draws (s : State) : (s.clearCache).draws = s.draws := rfl

/-! ### setSession -/

@[simp] theorem State.setSession_hw (b : Bool) (s : State) : (s.setSession b).hw = s.hw := rfl
@[simp] theorem State.setSession_pc (b : Bool) (s : State) : (s.setSession b).pc = s.pc := rfl
@[simp] theorem State.setSession_sub (b : Bool) (s : State) : (s.setSession b).sub = s.sub := rfl
@[simp] theorem State.setSession_session (b : Bool) (s : State) : (s.setSession b).session = b := rfl
@[simp] theorem State.setSession_status (b : Bool) (s : State) : (s.setSession b).status = s.status := rfl
@[simp] theorem State.setSession_result (b : Bool) (s : State) : (s.setSession b).result = s.result := rfl
@[simp] theorem State.setSession_bitcount (b : Bool) (s : State) : (s.setSession b).bitcount = s.bitcount := rfl
@[simp] theorem State.setSession_txlen (b : Bool) (s : State) : (s.setSession b).txlen = s.txlen := rfl
@[simp] theorem State.setSession_rxcap (b : Bool) (s : State) : (s.setSession b).rxcap = s.rxcap := rfl
@[simp] theorem State.setSession_irqen (b : Bool) (s : State) : (s.setSession b).irqen = s.irqen := rfl
@[simp] theorem State.setSession_rxcount (b : Bool) (s : State) : (s.setSession b).rxcount = s.rxcount := rfl
@[simp] theorem State.setSession_fifostat (b : Bool) (s : State) : (s.setSession b).fifostat = s.fifostat := rfl
@[simp] theorem State.setSession_collpos (b : Bool) (s : State) : (s.setSession b).collpos = s.collpos := rfl
@[simp] theorem State.setSession_req (b : Bool) (s : State) : (s.setSession b).req = s.req := rfl
@[simp] theorem State.setSession_cache (b : Bool) (s : State) : (s.setSession b).cache = s.cache := rfl
@[simp] theorem State.setSession_tmr (b : Bool) (s : State) : (s.setSession b).tmr = s.tmr := rfl
@[simp] theorem State.setSession_work (b : Bool) (s : State) : (s.setSession b).work = s.work := rfl
@[simp] theorem State.setSession_txbuf (b : Bool) (s : State) : (s.setSession b).txbuf = s.txbuf := rfl
@[simp] theorem State.setSession_rxbuf (b : Bool) (s : State) : (s.setSession b).rxbuf = s.rxbuf := rfl
@[simp] theorem State.setSession_trace (b : Bool) (s : State) : (s.setSession b).trace = s.trace := rfl
@[simp] theorem State.setSession_responses (b : Bool) (s : State) : (s.setSession b).responses = s.responses := rfl
@[simp] theorem State.setSession_inputs (b : Bool) (s : State) : (s.setSession b).inputs = s.inputs := rfl
@[simp] theorem State.setSession_draws (b : Bool) (s : State) : (s.setSession b).draws = s.draws := rfl

/-! ### takeSnapshot -/

@[simp] theorem State.takeSnapshot_hw (f : FifoStatus) (s : State) : (s.takeSnapshot f).hw = s.hw := rfl
@[simp] theorem State.takeSnapshot_pc (f : FifoStatus) (s : State) : (s.takeSnapshot f).pc = s.pc := rfl
@[simp] theorem State.takeSnapshot_sub (f : FifoStatus) (s : State) : (s.takeSnapshot f).sub = s.sub := rfl
@[simp] theorem State.takeSnapshot_session (f : FifoStatus) (s : State) : (s.takeSnapshot f).session = s.session := rfl
@[simp] theorem State.takeSnapshot_status (f : FifoStatus) (s : State) : (s.takeSnapshot f).status = s.status := rfl
@[simp] theorem State.takeSnapshot_result (f : FifoStatus) (s : State) : (s.takeSnapshot f).result = s.result := rfl
@[simp] theorem State.takeSnapshot_bitcount (f : FifoStatus) (s : State) : (s.takeSnapshot f).bitcount = s.bitcount := rfl
@[simp] theorem State.takeSnapshot_txlen (f : FifoStatus) (s : State) : (s.takeSnapshot f).txlen = s.txlen := rfl
@[simp] theorem State.takeSnapshot_rxcap (f : FifoStatus) (s : State) : (s.takeSnapshot f).rxcap = s.rxcap := rfl
@[simp] theorem State.takeSnapshot_irqen (f : FifoStatus) (s : State) : (s.takeSnapshot f).irqen = s.irqen := rfl
@[simp] theorem State.takeSnapshot_rxcount (f : FifoStatus) (s : State) : (s.takeSnapshot f).rxcount = s.rxcount := rfl
@[simp] theorem State.takeSnapshot_fifostat (f : FifoStatus) (s : State) : (s.takeSnapshot f).fifostat = { snap := f, valid := true } := rfl
@[simp] theorem State.takeSnapshot_collpos (f : FifoStatus) (s : State) : (s.takeSnapshot f).collpos = s.collpos := rfl
@[simp] theorem State.takeSnapshot_req (f : FifoStatus) (s : State) : (s.takeSnapshot f).req = s.req := rfl
@[simp] theorem State.takeSnapshot_cache (f : FifoStatus) (s : State) : (s.takeSnapshot f).cache = s.cache := rfl
@[simp] theorem State.takeSnapshot_tmr (f : FifoStatus) (s : State) : (s.takeSnapshot f).tmr = s.tmr := rfl
@[simp] theorem State.takeSnapshot_work (f : FifoStatus) (s : State) : (s.takeSnapshot f).work = { s.work with snap := f } := rfl
@[simp] theorem State.takeSnapshot_txbuf (f : FifoStatus) (s : State) : (s.takeSnapshot f).txbuf = s.txbuf := rfl
@[simp] theorem State.takeSnapshot_rxbuf (f : FifoStatus) (s : State) : (s.takeSnapshot f).rxbuf = s.rxbuf := rfl
@[simp] theorem State.takeSnapshot_trace (f : FifoStatus) (s : State) : (s.takeSnapshot f).trace = s.trace ++ [.readFifoStatus f] := rfl
@[simp] theorem State.takeSnapshot_responses (f : FifoStatus) (s : State) : (s.takeSnapshot f).responses = s.responses := rfl
@[simp] theorem State.takeSnapshot_inputs (f : FifoStatus) (s : State) : (s.takeSnapshot f).inputs = s.inputs := rfl
@[simp] theorem State.takeSnapshot_draws (f : FifoStatus) (s : State) : (s.takeSnapshot f).draws = s.draws := rfl

/-! ### composeCount -/

@[simp] theorem State.composeCount_hw (s : State) : (s.composeCount).hw = s.hw := rfl
@[simp] theorem State.composeCount_pc (s : State) : (s.composeCount).pc = s.pc := rfl
@[simp] theorem State.composeCount_sub (s : State) : (s.composeCount).sub = s.sub := rfl
@[simp] theorem State.composeCount_session (s : State) : (s.composeCount).session = s.session := rfl
@[simp] theorem State.composeCount_status (s : State) : (s.composeCount).status = s.status := rfl
@[simp] theorem State.composeCount_result (s : State) : (s.composeCount).result = s.result := rfl
@[simp] theorem State.composeCount_bitcount (s : State) : (s.composeCount).bitcount = s.bitcount := rfl
@[simp] theorem State.composeCount_txlen (s : State) : (s.composeCount).txlen = s.txlen := rfl
@[simp] theorem State.composeCount_rxcap (s : State) : (s.composeCount).rxcap = s.rxcap := rfl
@[simp] theorem State.composeCount_irqen (s : State) : (s.composeCount).irqen = s.irqen := rfl
@[simp] theorem State.composeCount_rxcount (s : State) : (s.composeCount).rxcount = s.work.snap.count := rfl
@[simp] theorem State.composeCount_fifostat (s : State) : (s.composeCount).fifostat = s.fifostat := rfl
@[simp] theorem State.composeCount_collpos (s : State) : (s.composeCount).collpos = s.collpos := rfl
@[simp] theorem State.composeCount_req (s : State) : (s.composeCount).req = s.req := rfl
@[simp] theorem State.composeCount_cache (s : State) : (s.composeCount).cache = s.cache := rfl
@[simp] theorem State.composeCount_tmr (s : State) : (s.composeCount).tmr = s.tmr := rfl
@[simp] theorem State.composeCount_work (s : State) : (s.composeCount).work = { s.work with count := s.work.snap.count } := rfl
@[simp] theorem State.composeCount_txbuf (s : State) : (s.composeCount).txbuf = s.txbuf := rfl
@[simp] theorem State.composeCount_rxbuf (s : State) : (s.composeCount).rxbuf = s.rxbuf := rfl
@[simp] theorem State.composeCount_trace (s : State) : (s.composeCount).trace = s.trace := rfl
@[simp] theorem State.composeCount_responses (s : State) : (s.composeCount).responses = s.responses := rfl
@[simp] theorem State.composeCount_inputs (s : State) : (s.composeCount).inputs = s.inputs := rfl
@[simp] theorem State.composeCount_draws (s : State) : (s.composeCount).draws = s.draws := rfl

/-! ### setN -/

@[simp] theorem State.setN_hw (n : BitVec 16) (s : State) : (s.setN n).hw = s.hw := rfl
@[simp] theorem State.setN_pc (n : BitVec 16) (s : State) : (s.setN n).pc = s.pc := rfl
@[simp] theorem State.setN_sub (n : BitVec 16) (s : State) : (s.setN n).sub = s.sub := rfl
@[simp] theorem State.setN_session (n : BitVec 16) (s : State) : (s.setN n).session = s.session := rfl
@[simp] theorem State.setN_status (n : BitVec 16) (s : State) : (s.setN n).status = s.status := rfl
@[simp] theorem State.setN_result (n : BitVec 16) (s : State) : (s.setN n).result = s.result := rfl
@[simp] theorem State.setN_bitcount (n : BitVec 16) (s : State) : (s.setN n).bitcount = s.bitcount := rfl
@[simp] theorem State.setN_txlen (n : BitVec 16) (s : State) : (s.setN n).txlen = s.txlen := rfl
@[simp] theorem State.setN_rxcap (n : BitVec 16) (s : State) : (s.setN n).rxcap = s.rxcap := rfl
@[simp] theorem State.setN_irqen (n : BitVec 16) (s : State) : (s.setN n).irqen = s.irqen := rfl
@[simp] theorem State.setN_rxcount (n : BitVec 16) (s : State) : (s.setN n).rxcount = s.rxcount := rfl
@[simp] theorem State.setN_fifostat (n : BitVec 16) (s : State) : (s.setN n).fifostat = s.fifostat := rfl
@[simp] theorem State.setN_collpos (n : BitVec 16) (s : State) : (s.setN n).collpos = s.collpos := rfl
@[simp] theorem State.setN_req (n : BitVec 16) (s : State) : (s.setN n).req = s.req := rfl
@[simp] theorem State.setN_cache (n : BitVec 16) (s : State) : (s.setN n).cache = s.cache := rfl
@[simp] theorem State.setN_tmr (n : BitVec 16) (s : State) : (s.setN n).tmr = s.tmr := rfl
@[simp] theorem State.setN_work (n : BitVec 16) (s : State) : (s.setN n).work = { s.work with n := n } := rfl
@[simp] theorem State.setN_txbuf (n : BitVec 16) (s : State) : (s.setN n).txbuf = s.txbuf := rfl
@[simp] theorem State.setN_rxbuf (n : BitVec 16) (s : State) : (s.setN n).rxbuf = s.rxbuf := rfl
@[simp] theorem State.setN_trace (n : BitVec 16) (s : State) : (s.setN n).trace = s.trace := rfl
@[simp] theorem State.setN_responses (n : BitVec 16) (s : State) : (s.setN n).responses = s.responses := rfl
@[simp] theorem State.setN_inputs (n : BitVec 16) (s : State) : (s.setN n).inputs = s.inputs := rfl
@[simp] theorem State.setN_draws (n : BitVec 16) (s : State) : (s.setN n).draws = s.draws := rfl

/-! ### splitPrefix -/

@[simp] theorem State.splitPrefix_hw (s : State) : (s.splitPrefix).hw = s.hw := rfl
@[simp] theorem State.splitPrefix_pc (s : State) : (s.splitPrefix).pc = s.pc := rfl
@[simp] theorem State.splitPrefix_sub (s : State) : (s.splitPrefix).sub = s.sub := rfl
@[simp] theorem State.splitPrefix_session (s : State) : (s.splitPrefix).session = s.session := rfl
@[simp] theorem State.splitPrefix_status (s : State) : (s.splitPrefix).status = s.status := rfl
@[simp] theorem State.splitPrefix_result (s : State) : (s.splitPrefix).result = s.result := rfl
@[simp] theorem State.splitPrefix_bitcount (s : State) : (s.splitPrefix).bitcount = s.bitcount := rfl
@[simp] theorem State.splitPrefix_txlen (s : State) : (s.splitPrefix).txlen = s.txlen := rfl
@[simp] theorem State.splitPrefix_rxcap (s : State) : (s.splitPrefix).rxcap = s.rxcap := rfl
@[simp] theorem State.splitPrefix_irqen (s : State) : (s.splitPrefix).irqen = s.irqen := rfl
@[simp] theorem State.splitPrefix_rxcount (s : State) : (s.splitPrefix).rxcount = s.rxcount := rfl
@[simp] theorem State.splitPrefix_fifostat (s : State) : (s.splitPrefix).fifostat = s.fifostat := rfl
@[simp] theorem State.splitPrefix_collpos (s : State) : (s.splitPrefix).collpos = s.collpos := rfl
@[simp] theorem State.splitPrefix_req (s : State) : (s.splitPrefix).req = s.req := rfl
@[simp] theorem State.splitPrefix_cache (s : State) : (s.splitPrefix).cache = s.cache := rfl
@[simp] theorem State.splitPrefix_tmr (s : State) : (s.splitPrefix).tmr = s.tmr := rfl
@[simp] theorem State.splitPrefix_work (s : State) : (s.splitPrefix).work = { s.work with full := BitVec.ofNat 3 s.req.fullBytes, rem := BitVec.ofNat 3 s.req.remBits } := rfl
@[simp] theorem State.splitPrefix_txbuf (s : State) : (s.splitPrefix).txbuf = s.txbuf := rfl
@[simp] theorem State.splitPrefix_rxbuf (s : State) : (s.splitPrefix).rxbuf = s.rxbuf := rfl
@[simp] theorem State.splitPrefix_trace (s : State) : (s.splitPrefix).trace = s.trace := rfl
@[simp] theorem State.splitPrefix_responses (s : State) : (s.splitPrefix).responses = s.responses := rfl
@[simp] theorem State.splitPrefix_inputs (s : State) : (s.splitPrefix).inputs = s.inputs := rfl
@[simp] theorem State.splitPrefix_draws (s : State) : (s.splitPrefix).draws = s.draws := rfl

/-! ### takeCollPos -/

@[simp] theorem State.takeCollPos_hw (p : CollPos) (s : State) : (s.takeCollPos p).hw = s.hw := rfl
@[simp] theorem State.takeCollPos_pc (p : CollPos) (s : State) : (s.takeCollPos p).pc = s.pc := rfl
@[simp] theorem State.takeCollPos_sub (p : CollPos) (s : State) : (s.takeCollPos p).sub = s.sub := rfl
@[simp] theorem State.takeCollPos_session (p : CollPos) (s : State) : (s.takeCollPos p).session = s.session := rfl
@[simp] theorem State.takeCollPos_status (p : CollPos) (s : State) : (s.takeCollPos p).status = s.status := rfl
@[simp] theorem State.takeCollPos_result (p : CollPos) (s : State) : (s.takeCollPos p).result = s.result := rfl
@[simp] theorem State.takeCollPos_bitcount (p : CollPos) (s : State) : (s.takeCollPos p).bitcount = s.bitcount := rfl
@[simp] theorem State.takeCollPos_txlen (p : CollPos) (s : State) : (s.takeCollPos p).txlen = s.txlen := rfl
@[simp] theorem State.takeCollPos_rxcap (p : CollPos) (s : State) : (s.takeCollPos p).rxcap = s.rxcap := rfl
@[simp] theorem State.takeCollPos_irqen (p : CollPos) (s : State) : (s.takeCollPos p).irqen = s.irqen := rfl
@[simp] theorem State.takeCollPos_rxcount (p : CollPos) (s : State) : (s.takeCollPos p).rxcount = s.rxcount := rfl
@[simp] theorem State.takeCollPos_fifostat (p : CollPos) (s : State) : (s.takeCollPos p).fifostat = s.fifostat := rfl
@[simp] theorem State.takeCollPos_collpos (p : CollPos) (s : State) : (s.takeCollPos p).collpos = { pos := p, valid := true } := rfl
@[simp] theorem State.takeCollPos_req (p : CollPos) (s : State) : (s.takeCollPos p).req = s.req := rfl
@[simp] theorem State.takeCollPos_cache (p : CollPos) (s : State) : (s.takeCollPos p).cache = s.cache := rfl
@[simp] theorem State.takeCollPos_tmr (p : CollPos) (s : State) : (s.takeCollPos p).tmr = s.tmr := rfl
@[simp] theorem State.takeCollPos_work (p : CollPos) (s : State) : (s.takeCollPos p).work = { s.work with cpos := p } := rfl
@[simp] theorem State.takeCollPos_txbuf (p : CollPos) (s : State) : (s.takeCollPos p).txbuf = s.txbuf := rfl
@[simp] theorem State.takeCollPos_rxbuf (p : CollPos) (s : State) : (s.takeCollPos p).rxbuf = s.rxbuf := rfl
@[simp] theorem State.takeCollPos_trace (p : CollPos) (s : State) : (s.takeCollPos p).trace = s.trace ++ [.readCollPos p] := rfl
@[simp] theorem State.takeCollPos_responses (p : CollPos) (s : State) : (s.takeCollPos p).responses = s.responses := rfl
@[simp] theorem State.takeCollPos_inputs (p : CollPos) (s : State) : (s.takeCollPos p).inputs = s.inputs := rfl
@[simp] theorem State.takeCollPos_draws (p : CollPos) (s : State) : (s.takeCollPos p).draws = s.draws := rfl

/-! ### txStore -/

@[simp] theorem State.txStore_hw (i : Nat) (bs : List Byte) (s : State) : (s.txStore i bs).hw = s.hw := rfl
@[simp] theorem State.txStore_pc (i : Nat) (bs : List Byte) (s : State) : (s.txStore i bs).pc = s.pc := rfl
@[simp] theorem State.txStore_sub (i : Nat) (bs : List Byte) (s : State) : (s.txStore i bs).sub = s.sub := rfl
@[simp] theorem State.txStore_session (i : Nat) (bs : List Byte) (s : State) : (s.txStore i bs).session = s.session := rfl
@[simp] theorem State.txStore_status (i : Nat) (bs : List Byte) (s : State) : (s.txStore i bs).status = s.status := rfl
@[simp] theorem State.txStore_result (i : Nat) (bs : List Byte) (s : State) : (s.txStore i bs).result = s.result := rfl
@[simp] theorem State.txStore_bitcount (i : Nat) (bs : List Byte) (s : State) : (s.txStore i bs).bitcount = s.bitcount := rfl
@[simp] theorem State.txStore_txlen (i : Nat) (bs : List Byte) (s : State) : (s.txStore i bs).txlen = s.txlen := rfl
@[simp] theorem State.txStore_rxcap (i : Nat) (bs : List Byte) (s : State) : (s.txStore i bs).rxcap = s.rxcap := rfl
@[simp] theorem State.txStore_irqen (i : Nat) (bs : List Byte) (s : State) : (s.txStore i bs).irqen = s.irqen := rfl
@[simp] theorem State.txStore_rxcount (i : Nat) (bs : List Byte) (s : State) : (s.txStore i bs).rxcount = s.rxcount := rfl
@[simp] theorem State.txStore_fifostat (i : Nat) (bs : List Byte) (s : State) : (s.txStore i bs).fifostat = s.fifostat := rfl
@[simp] theorem State.txStore_collpos (i : Nat) (bs : List Byte) (s : State) : (s.txStore i bs).collpos = s.collpos := rfl
@[simp] theorem State.txStore_req (i : Nat) (bs : List Byte) (s : State) : (s.txStore i bs).req = s.req := rfl
@[simp] theorem State.txStore_cache (i : Nat) (bs : List Byte) (s : State) : (s.txStore i bs).cache = s.cache := rfl
@[simp] theorem State.txStore_tmr (i : Nat) (bs : List Byte) (s : State) : (s.txStore i bs).tmr = s.tmr := rfl
@[simp] theorem State.txStore_work (i : Nat) (bs : List Byte) (s : State) : (s.txStore i bs).work = s.work := rfl
@[simp] theorem State.txStore_txbuf (i : Nat) (bs : List Byte) (s : State) : (s.txStore i bs).txbuf = bufWriteList s.hw.txbufSize s.txbuf i bs := rfl
@[simp] theorem State.txStore_rxbuf (i : Nat) (bs : List Byte) (s : State) : (s.txStore i bs).rxbuf = s.rxbuf := rfl
@[simp] theorem State.txStore_trace (i : Nat) (bs : List Byte) (s : State) : (s.txStore i bs).trace = s.trace := rfl
@[simp] theorem State.txStore_responses (i : Nat) (bs : List Byte) (s : State) : (s.txStore i bs).responses = s.responses := rfl
@[simp] theorem State.txStore_inputs (i : Nat) (bs : List Byte) (s : State) : (s.txStore i bs).inputs = s.inputs := rfl
@[simp] theorem State.txStore_draws (i : Nat) (bs : List Byte) (s : State) : (s.txStore i bs).draws = s.draws := rfl

/-! ### clearStatus -/

@[simp] theorem State.clearStatus_hw (v : Word) (s : State) : (s.clearStatus v).hw = s.hw := rfl
@[simp] theorem State.clearStatus_pc (v : Word) (s : State) : (s.clearStatus v).pc = s.pc := rfl
@[simp] theorem State.clearStatus_sub (v : Word) (s : State) : (s.clearStatus v).sub = s.sub := rfl
@[simp] theorem State.clearStatus_session (v : Word) (s : State) : (s.clearStatus v).session = s.session := rfl
@[simp] theorem State.clearStatus_status (v : Word) (s : State) : (s.clearStatus v).status = s.status.clearBy v := rfl
@[simp] theorem State.clearStatus_result (v : Word) (s : State) : (s.clearStatus v).result = s.result := rfl
@[simp] theorem State.clearStatus_bitcount (v : Word) (s : State) : (s.clearStatus v).bitcount = s.bitcount := rfl
@[simp] theorem State.clearStatus_txlen (v : Word) (s : State) : (s.clearStatus v).txlen = s.txlen := rfl
@[simp] theorem State.clearStatus_rxcap (v : Word) (s : State) : (s.clearStatus v).rxcap = s.rxcap := rfl
@[simp] theorem State.clearStatus_irqen (v : Word) (s : State) : (s.clearStatus v).irqen = s.irqen := rfl
@[simp] theorem State.clearStatus_rxcount (v : Word) (s : State) : (s.clearStatus v).rxcount = s.rxcount := rfl
@[simp] theorem State.clearStatus_fifostat (v : Word) (s : State) : (s.clearStatus v).fifostat = s.fifostat := rfl
@[simp] theorem State.clearStatus_collpos (v : Word) (s : State) : (s.clearStatus v).collpos = s.collpos := rfl
@[simp] theorem State.clearStatus_req (v : Word) (s : State) : (s.clearStatus v).req = s.req := rfl
@[simp] theorem State.clearStatus_cache (v : Word) (s : State) : (s.clearStatus v).cache = s.cache := rfl
@[simp] theorem State.clearStatus_tmr (v : Word) (s : State) : (s.clearStatus v).tmr = s.tmr := rfl
@[simp] theorem State.clearStatus_work (v : Word) (s : State) : (s.clearStatus v).work = s.work := rfl
@[simp] theorem State.clearStatus_txbuf (v : Word) (s : State) : (s.clearStatus v).txbuf = s.txbuf := rfl
@[simp] theorem State.clearStatus_rxbuf (v : Word) (s : State) : (s.clearStatus v).rxbuf = s.rxbuf := rfl
@[simp] theorem State.clearStatus_trace (v : Word) (s : State) : (s.clearStatus v).trace = s.trace := rfl
@[simp] theorem State.clearStatus_responses (v : Word) (s : State) : (s.clearStatus v).responses = s.responses := rfl
@[simp] theorem State.clearStatus_inputs (v : Word) (s : State) : (s.clearStatus v).inputs = s.inputs := rfl
@[simp] theorem State.clearStatus_draws (v : Word) (s : State) : (s.clearStatus v).draws = s.draws := rfl

/-! ### setTxlen -/

@[simp] theorem State.setTxlen_hw (v : Word) (s : State) : (s.setTxlen v).hw = s.hw := rfl
@[simp] theorem State.setTxlen_pc (v : Word) (s : State) : (s.setTxlen v).pc = s.pc := rfl
@[simp] theorem State.setTxlen_sub (v : Word) (s : State) : (s.setTxlen v).sub = s.sub := rfl
@[simp] theorem State.setTxlen_session (v : Word) (s : State) : (s.setTxlen v).session = s.session := rfl
@[simp] theorem State.setTxlen_status (v : Word) (s : State) : (s.setTxlen v).status = s.status := rfl
@[simp] theorem State.setTxlen_result (v : Word) (s : State) : (s.setTxlen v).result = s.result := rfl
@[simp] theorem State.setTxlen_bitcount (v : Word) (s : State) : (s.setTxlen v).bitcount = s.bitcount := rfl
@[simp] theorem State.setTxlen_txlen (v : Word) (s : State) : (s.setTxlen v).txlen = v.setWidth 16 := rfl
@[simp] theorem State.setTxlen_rxcap (v : Word) (s : State) : (s.setTxlen v).rxcap = s.rxcap := rfl
@[simp] theorem State.setTxlen_irqen (v : Word) (s : State) : (s.setTxlen v).irqen = s.irqen := rfl
@[simp] theorem State.setTxlen_rxcount (v : Word) (s : State) : (s.setTxlen v).rxcount = s.rxcount := rfl
@[simp] theorem State.setTxlen_fifostat (v : Word) (s : State) : (s.setTxlen v).fifostat = s.fifostat := rfl
@[simp] theorem State.setTxlen_collpos (v : Word) (s : State) : (s.setTxlen v).collpos = s.collpos := rfl
@[simp] theorem State.setTxlen_req (v : Word) (s : State) : (s.setTxlen v).req = s.req := rfl
@[simp] theorem State.setTxlen_cache (v : Word) (s : State) : (s.setTxlen v).cache = s.cache := rfl
@[simp] theorem State.setTxlen_tmr (v : Word) (s : State) : (s.setTxlen v).tmr = s.tmr := rfl
@[simp] theorem State.setTxlen_work (v : Word) (s : State) : (s.setTxlen v).work = s.work := rfl
@[simp] theorem State.setTxlen_txbuf (v : Word) (s : State) : (s.setTxlen v).txbuf = s.txbuf := rfl
@[simp] theorem State.setTxlen_rxbuf (v : Word) (s : State) : (s.setTxlen v).rxbuf = s.rxbuf := rfl
@[simp] theorem State.setTxlen_trace (v : Word) (s : State) : (s.setTxlen v).trace = s.trace := rfl
@[simp] theorem State.setTxlen_responses (v : Word) (s : State) : (s.setTxlen v).responses = s.responses := rfl
@[simp] theorem State.setTxlen_inputs (v : Word) (s : State) : (s.setTxlen v).inputs = s.inputs := rfl
@[simp] theorem State.setTxlen_draws (v : Word) (s : State) : (s.setTxlen v).draws = s.draws := rfl

/-! ### setRxcap -/

@[simp] theorem State.setRxcap_hw (v : Word) (s : State) : (s.setRxcap v).hw = s.hw := rfl
@[simp] theorem State.setRxcap_pc (v : Word) (s : State) : (s.setRxcap v).pc = s.pc := rfl
@[simp] theorem State.setRxcap_sub (v : Word) (s : State) : (s.setRxcap v).sub = s.sub := rfl
@[simp] theorem State.setRxcap_session (v : Word) (s : State) : (s.setRxcap v).session = s.session := rfl
@[simp] theorem State.setRxcap_status (v : Word) (s : State) : (s.setRxcap v).status = s.status := rfl
@[simp] theorem State.setRxcap_result (v : Word) (s : State) : (s.setRxcap v).result = s.result := rfl
@[simp] theorem State.setRxcap_bitcount (v : Word) (s : State) : (s.setRxcap v).bitcount = s.bitcount := rfl
@[simp] theorem State.setRxcap_txlen (v : Word) (s : State) : (s.setRxcap v).txlen = s.txlen := rfl
@[simp] theorem State.setRxcap_rxcap (v : Word) (s : State) : (s.setRxcap v).rxcap = v.setWidth 16 := rfl
@[simp] theorem State.setRxcap_irqen (v : Word) (s : State) : (s.setRxcap v).irqen = s.irqen := rfl
@[simp] theorem State.setRxcap_rxcount (v : Word) (s : State) : (s.setRxcap v).rxcount = s.rxcount := rfl
@[simp] theorem State.setRxcap_fifostat (v : Word) (s : State) : (s.setRxcap v).fifostat = s.fifostat := rfl
@[simp] theorem State.setRxcap_collpos (v : Word) (s : State) : (s.setRxcap v).collpos = s.collpos := rfl
@[simp] theorem State.setRxcap_req (v : Word) (s : State) : (s.setRxcap v).req = s.req := rfl
@[simp] theorem State.setRxcap_cache (v : Word) (s : State) : (s.setRxcap v).cache = s.cache := rfl
@[simp] theorem State.setRxcap_tmr (v : Word) (s : State) : (s.setRxcap v).tmr = s.tmr := rfl
@[simp] theorem State.setRxcap_work (v : Word) (s : State) : (s.setRxcap v).work = s.work := rfl
@[simp] theorem State.setRxcap_txbuf (v : Word) (s : State) : (s.setRxcap v).txbuf = s.txbuf := rfl
@[simp] theorem State.setRxcap_rxbuf (v : Word) (s : State) : (s.setRxcap v).rxbuf = s.rxbuf := rfl
@[simp] theorem State.setRxcap_trace (v : Word) (s : State) : (s.setRxcap v).trace = s.trace := rfl
@[simp] theorem State.setRxcap_responses (v : Word) (s : State) : (s.setRxcap v).responses = s.responses := rfl
@[simp] theorem State.setRxcap_inputs (v : Word) (s : State) : (s.setRxcap v).inputs = s.inputs := rfl
@[simp] theorem State.setRxcap_draws (v : Word) (s : State) : (s.setRxcap v).draws = s.draws := rfl

/-! ### setIrqen -/

@[simp] theorem State.setIrqen_hw (v : Word) (s : State) : (s.setIrqen v).hw = s.hw := rfl
@[simp] theorem State.setIrqen_pc (v : Word) (s : State) : (s.setIrqen v).pc = s.pc := rfl
@[simp] theorem State.setIrqen_sub (v : Word) (s : State) : (s.setIrqen v).sub = s.sub := rfl
@[simp] theorem State.setIrqen_session (v : Word) (s : State) : (s.setIrqen v).session = s.session := rfl
@[simp] theorem State.setIrqen_status (v : Word) (s : State) : (s.setIrqen v).status = s.status := rfl
@[simp] theorem State.setIrqen_result (v : Word) (s : State) : (s.setIrqen v).result = s.result := rfl
@[simp] theorem State.setIrqen_bitcount (v : Word) (s : State) : (s.setIrqen v).bitcount = s.bitcount := rfl
@[simp] theorem State.setIrqen_txlen (v : Word) (s : State) : (s.setIrqen v).txlen = s.txlen := rfl
@[simp] theorem State.setIrqen_rxcap (v : Word) (s : State) : (s.setIrqen v).rxcap = s.rxcap := rfl
@[simp] theorem State.setIrqen_irqen (v : Word) (s : State) : (s.setIrqen v).irqen = IrqEnable.ofWord v := rfl
@[simp] theorem State.setIrqen_rxcount (v : Word) (s : State) : (s.setIrqen v).rxcount = s.rxcount := rfl
@[simp] theorem State.setIrqen_fifostat (v : Word) (s : State) : (s.setIrqen v).fifostat = s.fifostat := rfl
@[simp] theorem State.setIrqen_collpos (v : Word) (s : State) : (s.setIrqen v).collpos = s.collpos := rfl
@[simp] theorem State.setIrqen_req (v : Word) (s : State) : (s.setIrqen v).req = s.req := rfl
@[simp] theorem State.setIrqen_cache (v : Word) (s : State) : (s.setIrqen v).cache = s.cache := rfl
@[simp] theorem State.setIrqen_tmr (v : Word) (s : State) : (s.setIrqen v).tmr = s.tmr := rfl
@[simp] theorem State.setIrqen_work (v : Word) (s : State) : (s.setIrqen v).work = s.work := rfl
@[simp] theorem State.setIrqen_txbuf (v : Word) (s : State) : (s.setIrqen v).txbuf = s.txbuf := rfl
@[simp] theorem State.setIrqen_rxbuf (v : Word) (s : State) : (s.setIrqen v).rxbuf = s.rxbuf := rfl
@[simp] theorem State.setIrqen_trace (v : Word) (s : State) : (s.setIrqen v).trace = s.trace := rfl
@[simp] theorem State.setIrqen_responses (v : Word) (s : State) : (s.setIrqen v).responses = s.responses := rfl
@[simp] theorem State.setIrqen_inputs (v : Word) (s : State) : (s.setIrqen v).inputs = s.inputs := rfl
@[simp] theorem State.setIrqen_draws (v : Word) (s : State) : (s.setIrqen v).draws = s.draws := rfl

/-! ### resetStep -/

@[simp] theorem State.resetStep_hw (tx rx : List Byte) (s : State) : (s.resetStep tx rx).hw = s.hw := rfl
@[simp] theorem State.resetStep_pc (tx rx : List Byte) (s : State) : (s.resetStep tx rx).pc = .idle := rfl
@[simp] theorem State.resetStep_sub (tx rx : List Byte) (s : State) : (s.resetStep tx rx).sub = 0 := rfl
@[simp] theorem State.resetStep_session (tx rx : List Byte) (s : State) : (s.resetStep tx rx).session = false := rfl
@[simp] theorem State.resetStep_status (tx rx : List Byte) (s : State) : (s.resetStep tx rx).status = {} := rfl
@[simp] theorem State.resetStep_result (tx rx : List Byte) (s : State) : (s.resetStep tx rx).result = {} := rfl
@[simp] theorem State.resetStep_bitcount (tx rx : List Byte) (s : State) : (s.resetStep tx rx).bitcount = 0 := rfl
@[simp] theorem State.resetStep_txlen (tx rx : List Byte) (s : State) : (s.resetStep tx rx).txlen = 0 := rfl
@[simp] theorem State.resetStep_rxcap (tx rx : List Byte) (s : State) : (s.resetStep tx rx).rxcap = 0 := rfl
@[simp] theorem State.resetStep_irqen (tx rx : List Byte) (s : State) : (s.resetStep tx rx).irqen = {} := rfl
@[simp] theorem State.resetStep_rxcount (tx rx : List Byte) (s : State) : (s.resetStep tx rx).rxcount = 0 := rfl
@[simp] theorem State.resetStep_fifostat (tx rx : List Byte) (s : State) : (s.resetStep tx rx).fifostat = {} := rfl
@[simp] theorem State.resetStep_collpos (tx rx : List Byte) (s : State) : (s.resetStep tx rx).collpos = {} := rfl
@[simp] theorem State.resetStep_req (tx rx : List Byte) (s : State) : (s.resetStep tx rx).req = {} := rfl
@[simp] theorem State.resetStep_cache (tx rx : List Byte) (s : State) : (s.resetStep tx rx).cache = 0 := rfl
@[simp] theorem State.resetStep_tmr (tx rx : List Byte) (s : State) : (s.resetStep tx rx).tmr = 0 := rfl
@[simp] theorem State.resetStep_work (tx rx : List Byte) (s : State) : (s.resetStep tx rx).work = {} := rfl
@[simp] theorem State.resetStep_txbuf (tx rx : List Byte) (s : State) : (s.resetStep tx rx).txbuf = bufWriteList s.hw.txbufSize [] 0 tx := rfl
@[simp] theorem State.resetStep_rxbuf (tx rx : List Byte) (s : State) : (s.resetStep tx rx).rxbuf = bufWriteList s.hw.rxbufSize [] 0 rx := rfl
@[simp] theorem State.resetStep_trace (tx rx : List Byte) (s : State) : (s.resetStep tx rx).trace = s.trace := rfl
@[simp] theorem State.resetStep_responses (tx rx : List Byte) (s : State) : (s.resetStep tx rx).responses = s.responses := rfl
@[simp] theorem State.resetStep_inputs (tx rx : List Byte) (s : State) : (s.resetStep tx rx).inputs = s.inputs := rfl
@[simp] theorem State.resetStep_draws (tx rx : List Byte) (s : State) : (s.resetStep tx rx).draws = s.draws := rfl

/-! ### The operations made of these -/

/-- `raise` is a completion with the error's RESULT (R279). -/
theorem State.raise_eq_finish (e : ExchangeError) (src : Bool) (s : State) :
    s.raise e src =
      s.finish { err := e.code, kind := decide (e = .timeout), tosrc := src, op := s.req.op } 0 .ready := rfl

/-- `complete` is a completion with an error-free RESULT (R254). -/
theorem State.complete_eq_finish (b : Nat) (s : State) :
    s.complete b = s.finish { op := s.req.op } (BitVec.ofNat 32 b) .ready := rfl

/-- Taking the next event changes the list of events, or the index of free ones, and nothing else. -/
theorem State.consume_eq (s : State) :
    ∃ es n, s.consume = { s with inputs := es, draws := n } := by
  unfold State.consume
  split
  · exact ⟨_, s.draws, rfl⟩
  · exact ⟨s.inputs, _, rfl⟩

end Sys2Proof.Machine
end

