-- ==== Sys2Proof/Laws/Commands.lean ====
section
/-! SUPPORT. Acceptance, said once per shared operation: what `exec` does with each command word, and what the fields
of its word are. -/

namespace Sys2Proof

open Sys2Proof.Machine

/-! ## Fields of a word, as arithmetic -/

/-- A field of a word is a quotient and a remainder of its number (R9, R121). -/
theorem field_toNat (w : Word) (lo n : Nat) : (w.extractLsb' lo n).toNat = w.toNat / 2 ^ lo % 2 ^ n := by
  simp [BitVec.extractLsb'_toNat, Nat.shiftRight_eq_div_pow]

/-- `anticoll <bits>` is the word 0x00000006 | (bits << 8) (R135). -/
theorem encode_anticoll_toNat (bits : BitVec 6) : (encode (.anticoll bits)).toNat = bits.toNat * 256 + 6 := by
  revert bits; decide

/-- `xchg <fwt>` is the word 0x00000007 | (fwt << 16) (R135). -/
theorem encode_xchg_toNat (fwt : BitVec 16) : (encode (.xchg fwt)).toNat = fwt.toNat * 65536 + 7 := by
  show (fwt ++ 0x0007#16 : BitVec 32).toNat = _
  rw [BitVec.toNat_append, ← Nat.shiftLeft_add_eq_or_of_lt (by decide), Nat.shiftLeft_eq]
  rfl

theorem opField_xchg (fwt : BitVec 16) : opField (encode (.xchg fwt)) = 0x7 := by
  apply BitVec.eq_of_toNat_eq
  simp only [opField, field_toNat, encode_xchg_toNat]
  simp
  omega

theorem bitsField_xchg (fwt : BitVec 16) : bitsField (encode (.xchg fwt)) = 0 := by
  apply BitVec.eq_of_toNat_eq
  simp only [bitsField, field_toNat, encode_xchg_toNat]
  simp
  omega

theorem fwtField_xchg (fwt : BitVec 16) : fwtField (encode (.xchg fwt)) = fwt := by
  apply BitVec.eq_of_toNat_eq
  have := fwt.isLt
  simp only [fwtField, field_toNat, encode_xchg_toNat]
  omega

theorem opField_anticoll (bits : BitVec 6) : opField (encode (.anticoll bits)) = 0x6 := by
  revert bits; decide

theorem bitsField_anticoll (bits : BitVec 6) : bitsField (encode (.anticoll bits)) = bits := by
  revert bits; decide

theorem fwtField_anticoll (bits : BitVec 6) : fwtField (encode (.anticoll bits)) = 0 := by
  revert bits; decide

namespace Machine

/-! ## What `exec` does -/

/-- `ceil_div(n, 8)` as R129 uses it. -/
theorem ceilDiv_eight (n : Nat) : ceilDiv n 8 = (n + 7) / 8 := rfl

/-- The state an accepted command leaves (R130). -/
def acceptedState (s : State) : Instr → State
  | .sstart => s.acceptSession (encode .sstart) .sMode
  | .sstop => s.acceptSession (encode .sstop) .tStop
  | .reqa => s.acceptExchange (encode .reqa)
  | .wupa => s.acceptExchange (encode .wupa)
  | .anticoll bits => s.acceptExchange (encode (.anticoll bits))
  | .xchg fwt => s.acceptExchange (encode (.xchg fwt))

/-- A command word is accepted when its preconditions hold and rejected when they do not: there is no third outcome
(R127, R129, R130). -/
theorem exec_cases (i : Instr) (s : State) :
    (preconditions s i ∧ exec i s = .next (acceptedState s i))
      ∨ (¬ preconditions s i ∧ exec i s = .next s.reject) := by
  cases i with
  | sstart =>
    simp only [preconditions, exec, execSstart, acceptedState]
    split
    · exact .inl ⟨‹_›, rfl⟩
    · exact .inr ⟨‹_›, rfl⟩
  | sstop =>
    simp only [preconditions, exec, execSstop, acceptedState]
    split
    · exact .inl ⟨‹_›, rfl⟩
    · exact .inr ⟨‹_›, rfl⟩
  | reqa =>
    simp only [preconditions, exec, execReqa, acceptedState]
    split
    · exact .inl ⟨‹_›, rfl⟩
    · exact .inr ⟨‹_›, rfl⟩
  | wupa =>
    simp only [preconditions, exec, execWupa, acceptedState]
    split
    · exact .inl ⟨‹_›, rfl⟩
    · exact .inr ⟨‹_›, rfl⟩
  | anticoll bits =>
    simp only [preconditions, exec, execAnticoll, acceptedState]
    split
    · rename_i h
      exact .inl ⟨⟨h.1.1, h.1.2.1, h.1.2.2, h.2.1, h.2.2.1, h.2.2.2⟩, rfl⟩
    · rename_i h
      exact .inr ⟨fun g => h ⟨⟨g.1, g.2.1, g.2.2.1⟩, g.2.2.2.1, g.2.2.2.2.1, g.2.2.2.2.2⟩, rfl⟩
  | xchg fwt =>
    simp only [preconditions, exec, execXchg, acceptedState]
    split
    · rename_i h
      exact .inl ⟨⟨h.1.1, h.1.2.1, h.1.2.2, h.2⟩, rfl⟩
    · rename_i h
      exact .inr ⟨fun g => h ⟨⟨g.1, g.2.1, g.2.2.1⟩, g.2.2.2⟩, rfl⟩

end Machine

end Sys2Proof
end

