-- ==== Sys2Proof/Laws/Memory.lean ====
section
/-! SUPPORT. The laws of buffer memory: a read after a write, the canonical form, and the bytes a list of writes
leaves. -/

namespace Sys2Proof.Machine

/-! ## Reading -/

theorem Memory.read_erase (m : Memory) (a b : Nat) :
    (m.erase a).read b = if b = a then Memory.blank else m.read b := by
  induction m with
  | nil => simp [Memory.erase, Memory.read]
  | cons c m ih =>
    obtain ⟨k, v⟩ := c
    simp only [Memory.erase] at ih ⊢
    by_cases hk : k = a
    · subst hk
      simp only [ne_eq, not_true_eq_false, decide_false, List.filter_cons, Bool.false_eq_true, if_false,
        Memory.read]
      rw [ih]
      split <;> simp_all
    · simp only [ne_eq, hk, not_false_eq_true, decide_true, List.filter_cons, if_true, Memory.read]
      rw [ih]
      split <;> split <;> simp_all

theorem Memory.read_put (m : Memory) (a b : Nat) (v : Byte) :
    (m.put a v).read b = if b = a then v else m.read b := by
  induction m with
  | nil => simp [Memory.put, Memory.read]
  | cons c m ih =>
    obtain ⟨k, w⟩ := c
    simp only [Memory.put]
    split
    · simp only [Memory.read]
    · split
      · simp only [Memory.read]
        split <;> simp_all
      · simp only [Memory.read, ih]
        split <;> split <;> simp_all

/-- A write gives its value at its index and leaves every other index alone. -/
theorem Memory.read_write (m : Memory) (a b : Nat) (v : Byte) :
    (m.write a v).read b = if b = a then v else m.read b := by
  unfold Memory.write
  split
  · rename_i h
    rw [Memory.read_erase, h]
  · exact Memory.read_put m a b v

theorem bufRead_bufWrite (size : Nat) (m : Memory) (a b : Nat) (v : Byte) :
    bufRead size (bufWrite size m a v) b = if b = a ∧ b < size then v else bufRead size m b := by
  unfold bufWrite bufRead
  by_cases ha : a < size <;> by_cases hb : b < size <;> simp only [ha, hb, if_true, if_false, and_true, and_false]
  · exact Memory.read_write m a b v
  · split
    · omega
    · rfl

/-- The bytes after a list of writes: the list's where it reaches and the buffer goes, the old ones elsewhere. -/
theorem bufRead_bufWriteList (size : Nat) (bs : List Byte) (m : Memory) (i k : Nat) :
    bufRead size (bufWriteList size m i bs) k =
      if i ≤ k ∧ k < i + bs.length ∧ k < size then bs.getD (k - i) 0 else bufRead size m k := by
  induction bs generalizing m i with
  | nil =>
    simp only [bufWriteList, List.length_nil, Nat.add_zero]
    split
    · omega
    · rfl
  | cons b bs ih =>
    simp only [bufWriteList, ih, bufRead_bufWrite, List.length_cons]
    by_cases hk : k = i
    · subst hk
      by_cases hs : k < size
      · simp [hs]
      · simp [hs]
    · by_cases hlt : i + 1 ≤ k
      · have h1 : i ≤ k := by omega
        have h2 : k - i = (k - (i + 1)) + 1 := by omega
        have h3 : i + 1 + bs.length = i + (bs.length + 1) := by omega
        simp [hlt, h1, h2, hk, h3]
      · have h1 : ¬ i ≤ k := by omega
        simp [hlt, h1, hk]

/-! ## The canonical form -/

theorem Memory.wf_nil : Memory.wf [] := ⟨List.Pairwise.nil, by simp⟩

theorem Memory.wf_erase (m : Memory) (a : Nat) (h : m.wf) : (m.erase a).wf :=
  ⟨h.1.filter _, fun c hc => h.2 c (List.mem_filter.mp hc).1⟩

/-- The cells of `put` are the new one and old ones. -/
theorem Memory.mem_put (m : Memory) (a : Nat) (v : Byte) (c : Host.Cell) (h : c ∈ m.put a v) :
    c = (a, v) ∨ c ∈ m := by
  induction m with
  | nil => simpa [Memory.put] using h
  | cons d m ih =>
    obtain ⟨k, w⟩ := d
    simp only [Memory.put] at h
    split at h
    · simpa using h
    · split at h
      · rcases List.mem_cons.mp h with h | h
        · exact .inl h
        · exact .inr (List.mem_cons_of_mem _ h)
      · rcases List.mem_cons.mp h with h | h
        · exact .inr (by simp [h])
        · exact (ih h).imp id (List.mem_cons_of_mem _)

theorem Memory.wf_put (m : Memory) (a : Nat) (v : Byte) (hv : v ≠ Memory.blank) (h : m.wf) : (m.put a v).wf := by
  refine ⟨?_, fun c hc => ?_⟩
  · obtain ⟨hp, -⟩ := h
    induction m with
    | nil => simp [Memory.put]
    | cons d m ih =>
      obtain ⟨k, w⟩ := d
      obtain ⟨hk, hm⟩ := List.pairwise_cons.mp hp
      simp only [Memory.put]
      split
      · rename_i hlt
        refine List.pairwise_cons.mpr ⟨fun c hc => ?_, hp⟩
        rcases List.mem_cons.mp hc with rfl | hc
        · exact hlt
        · exact Nat.lt_trans hlt (hk c hc)
      · split
        · rename_i heq
          exact List.pairwise_cons.mpr ⟨fun c hc => heq ▸ hk c hc, hm⟩
        · refine List.pairwise_cons.mpr ⟨fun c hc => ?_, ih hm⟩
          rcases Memory.mem_put m a v c hc with rfl | hc
          · simp only
            omega
          · exact hk c hc
  · rcases Memory.mem_put m a v c hc with rfl | hc
    · exact hv
    · exact h.2 c hc

/-- Every write keeps the canonical form. -/
theorem Memory.wf_write (m : Memory) (a : Nat) (v : Byte) (h : m.wf) : (m.write a v).wf := by
  unfold Memory.write
  split
  · exact Memory.wf_erase m a h
  · exact Memory.wf_put m a v ‹_› h

/-- A write inside a size keeps every cell inside it. -/
theorem Memory.within_write (size : Nat) (m : Memory) (a : Nat) (v : Byte) (ha : a < size) (h : m.within size) :
    (m.write a v).within size := by
  intro c hc
  unfold Memory.write at hc
  split at hc
  · exact h c (List.mem_filter.mp hc).1
  · rcases Memory.mem_put m a v c hc with rfl | hc
    · exact ha
    · exact h c hc

/-- Writes to a buffer keep it canonical and inside its size. -/
theorem bufWriteList_ok (size : Nat) (bs : List Byte) (m : Memory) (i : Nat) (hw : m.wf) (hs : m.within size) :
    (bufWriteList size m i bs).wf ∧ (bufWriteList size m i bs).within size := by
  induction bs generalizing m i with
  | nil => exact ⟨hw, hs⟩
  | cons b bs ih =>
    simp only [bufWriteList]
    by_cases hi : i < size
    · simp only [bufWrite, hi, if_true]
      exact ih _ _ (Memory.wf_write m i b hw) (Memory.within_write size m i b hi hs)
    · simp only [bufWrite, hi, if_false]
      exact ih _ _ hw hs

/-! ## Canonical memories are equal when they read alike -/

theorem Memory.read_eq_blank_of_lt (m : Memory) (a : Nat) (h : ∀ c ∈ m, a < c.1) : m.read a = Memory.blank := by
  induction m with
  | nil => rfl
  | cons c m ih =>
    obtain ⟨k, v⟩ := c
    have hk : a < k := h (k, v) (by simp)
    simp only [Memory.read, show a ≠ k by omega, if_false]
    exact ih fun c hc => h c (List.mem_cons_of_mem _ hc)

/-- Equal memories are equal data: canonical memories that read the same at every index are the same list. -/
theorem Memory.eq_of_read_eq (m n : Memory) (hm : m.wf) (hn : n.wf) (h : ∀ a, m.read a = n.read a) : m = n := by
  induction m generalizing n with
  | nil =>
    cases n with
    | nil => rfl
    | cons d n =>
      obtain ⟨k, v⟩ := d
      have := h k
      simp only [Memory.read, if_true] at this
      exact absurd this.symm (hn.2 (k, v) (by simp))
  | cons c m ih =>
    obtain ⟨k, v⟩ := c
    obtain ⟨hmp, hmr⟩ := List.pairwise_cons.mp hm.1
    cases n with
    | nil =>
      have := h k
      simp only [Memory.read, if_true] at this
      exact absurd this (hm.2 (k, v) (by simp))
    | cons d n =>
      obtain ⟨l, w⟩ := d
      obtain ⟨hnp, hnr⟩ := List.pairwise_cons.mp hn.1
      have hv : v ≠ Memory.blank := hm.2 (k, v) (by simp)
      have hw : w ≠ Memory.blank := hn.2 (l, w) (by simp)
      have hkl : k = l := by
        rcases Nat.lt_trichotomy k l with hlt | heq | hgt
        · have h1 := h k
          rw [Memory.read_eq_blank_of_lt ((l, w) :: n) k (fun c hc => by
            rcases List.mem_cons.mp hc with rfl | hc
            · exact hlt
            · exact Nat.lt_trans hlt (hnp c hc))] at h1
          simp only [Memory.read, if_true] at h1
          exact absurd h1 hv
        · exact heq
        · have h1 := h l
          rw [Memory.read_eq_blank_of_lt ((k, v) :: m) l (fun c hc => by
            rcases List.mem_cons.mp hc with rfl | hc
            · exact hgt
            · exact Nat.lt_trans hgt (hmp c hc))] at h1
          simp only [Memory.read, if_true] at h1
          exact absurd h1.symm hw
      subst hkl
      have hvw : v = w := by simpa [Memory.read] using h k
      subst hvw
      have hrest : m = n := by
        refine ih n ⟨hmr, fun c hc => hm.2 c (List.mem_cons_of_mem _ hc)⟩
          ⟨hnr, fun c hc => hn.2 c (List.mem_cons_of_mem _ hc)⟩ fun a => ?_
        by_cases ha : a = k
        · subst ha
          rw [Memory.read_eq_blank_of_lt m a hmp, Memory.read_eq_blank_of_lt n a hnp]
        · simpa [Memory.read, ha] using h a
      rw [hrest]

end Sys2Proof.Machine
end

