-- ==== Sys2Proof/Laws/Extract.lean ====
section
/-! SUPPORT. What the operations of steps 8-10 do, said once: chip answers within their widths, the checks'
numbers, the bytes each write leaves, and everything each operation of step 10 leaves unchanged. -/

namespace Sys2Proof.Machine

/-! ## Chip answers within their widths -/

@[simp] theorem FifoStatus.narrow_cntLo (h : HwParams) (f : FifoStatus) : (f.narrow h).cntLo = f.cntLo := rfl
@[simp] theorem FifoStatus.narrow_ovr (h : HwParams) (f : FifoStatus) : (f.narrow h).ovr = f.ovr := rfl
@[simp] theorem FifoStatus.narrow_unf (h : HwParams) (f : FifoStatus) : (f.narrow h).unf = f.unf := rfl
@[simp] theorem FifoStatus.narrow_nplb (h : HwParams) (f : FifoStatus) : (f.narrow h).nplb = f.nplb := rfl
@[simp] theorem CollPos.narrow_cbit (h : HwParams) (c : CollPos) : (c.narrow h).cbit = c.cbit := rfl

theorem lowBits_lt (k : Nat) (b : Byte) : (lowBits k b).toNat < 2 ^ k := by
  simp only [lowBits, BitVec.toNat_and, BitVec.toNat_ofNat]
  have := Nat.and_le_right (n := b.toNat) (m := (2 ^ k - 1) % 2 ^ 8)
  have := Nat.mod_le (2 ^ k - 1) (2 ^ 8)
  have := Nat.two_pow_pos k
  omega

theorem lowBits_toNat (k : Nat) (b : Byte) : (lowBits k b).toNat = b.toNat % 2 ^ k := by
  simp only [lowBits, BitVec.toNat_and, BitVec.toNat_ofNat]
  rcases Nat.lt_or_ge k 8 with h | h
  · have hk : 2 ^ k ≤ 2 ^ 7 := Nat.pow_le_pow_right (by decide) (by omega)
    have := Nat.two_pow_pos k
    rw [Nat.mod_eq_of_lt (by omega), Nat.and_two_pow_sub_one_eq_mod]
  · have hk : 2 ^ k = 2 ^ 8 * 2 ^ (k - 8) := by rw [← Nat.pow_add]; congr 1; omega
    have hp := Nat.two_pow_pos (k - 8)
    have hm : (2 ^ k - 1) % 2 ^ 8 = 2 ^ 8 - 1 := by omega
    have hb : b.toNat < 2 ^ k := Nat.lt_of_lt_of_le b.isLt (Nat.pow_le_pow_right (by decide) h)
    rw [hm, Nat.and_two_pow_sub_one_eq_mod, Nat.mod_eq_of_lt b.isLt, Nat.mod_eq_of_lt hb]

theorem FifoStatus.narrow_cntHi_lt (h : HwParams) (f : FifoStatus) :
    (f.narrow h).cntHi.toNat < 2 ^ h.cntHiBits := lowBits_lt _ _

theorem CollPos.narrow_cbyte_lt (h : HwParams) (c : CollPos) :
    (c.narrow h).cbyte.toNat < 2 ^ h.cbyteBits := lowBits_lt _ _

/-! ## The numbers of steps 9 and 10 (R187, R242, R246, R257) -/

theorem FifoStatus.count_toNat (f : FifoStatus) : f.count.toNat = f.cntHi.toNat * 256 + f.cntLo.toNat := by
  have h1 := f.cntHi.isLt
  have h2 := f.cntLo.isLt
  simp only [FifoStatus.count, Config.cntLoBits, BitVec.toNat_ofNat]
  omega

theorem plainLength_toNat (s : State) (h : ¬ s.req.isRaw → 2 ≤ s.work.count.toNat) :
    (plainLength s).toNat = if s.req.isRaw then s.work.count.toNat else s.work.count.toNat - 2 := by
  unfold plainLength
  split
  · rfl
  · have h2 := h ‹_›
    have := s.work.count.isLt
    simp only [BitVec.toNat_sub, BitVec.toNat_ofNat, Config.crcLen]
    omega

theorem splitPrefix_full_toNat (s : State) : s.splitPrefix.work.full.toNat = s.req.fullBytes := by
  have := s.req.bits.isLt
  simp only [State.splitPrefix_work, BitVec.toNat_ofNat, Request.fullBytes]
  omega

theorem splitPrefix_rem_toNat (s : State) : s.splitPrefix.work.rem.toNat = s.req.remBits := by
  simp only [State.splitPrefix_work, BitVec.toNat_ofNat, Request.remBits]
  omega

/-! ## Byte sequences -/

@[simp] theorem State.txPrefix_length (s : State) (n : Nat) : (s.txPrefix n).length = n := by
  simp [State.txPrefix]

@[simp] theorem ChipAnswers.fifoBytes_length (a : ChipAnswers) (n : Nat) : (a.fifoBytes n).length = n := by
  simp [ChipAnswers.fifoBytes]

theorem State.txPrefix_getD (s : State) (n k : Nat) (h : k < n) : (s.txPrefix n).getD k 0 = s.txByte k := by
  simp [State.txPrefix, List.getD, h]

theorem ChipAnswers.fifoBytes_getD (a : ChipAnswers) (n k : Nat) (h : k < n) :
    (a.fifoBytes n).getD k 0 = a.fifo.getD k 0 := by
  simp [ChipAnswers.fifoBytes, List.getD, h]

/-- The bytes of RXBUF after a store. -/
theorem State.rxByte_rxStore (s : State) (i k : Nat) (bs : List Byte) :
    (s.rxStore i bs).rxByte k =
      if i ≤ k ∧ k < i + bs.length ∧ k < s.hw.rxbufSize then bs.getD (k - i) 0 else s.rxByte k := by
  simp only [State.rxByte, State.rxStore_hw, State.rxStore_rxbuf, bufRead_bufWriteList]

/-- The bytes of TXBUF after a host's store. -/
theorem State.txByte_txStore (s : State) (i k : Nat) (bs : List Byte) :
    (s.txStore i bs).txByte k =
      if i ≤ k ∧ k < i + bs.length ∧ k < s.hw.txbufSize then bs.getD (k - i) 0 else s.txByte k := by
  simp only [State.txByte, State.txStore_hw, State.txStore_txbuf, bufRead_bufWriteList]

/-! ## What step 10 leaves unchanged -/

/-! ### fifoReadTo -/

@[simp] theorem fifoReadTo_hw (a : ChipAnswers) (n i : Nat) (s : State) : (fifoReadTo a n i s).hw = s.hw := by
  unfold fifoReadTo; split <;> rfl
@[simp] theorem fifoReadTo_pc (a : ChipAnswers) (n i : Nat) (s : State) : (fifoReadTo a n i s).pc = s.pc := by
  unfold fifoReadTo; split <;> rfl
@[simp] theorem fifoReadTo_sub (a : ChipAnswers) (n i : Nat) (s : State) : (fifoReadTo a n i s).sub = s.sub := by
  unfold fifoReadTo; split <;> rfl
@[simp] theorem fifoReadTo_session (a : ChipAnswers) (n i : Nat) (s : State) : (fifoReadTo a n i s).session = s.session := by
  unfold fifoReadTo; split <;> rfl
@[simp] theorem fifoReadTo_status (a : ChipAnswers) (n i : Nat) (s : State) : (fifoReadTo a n i s).status = s.status := by
  unfold fifoReadTo; split <;> rfl
@[simp] theorem fifoReadTo_result (a : ChipAnswers) (n i : Nat) (s : State) : (fifoReadTo a n i s).result = s.result := by
  unfold fifoReadTo; split <;> rfl
@[simp] theorem fifoReadTo_bitcount (a : ChipAnswers) (n i : Nat) (s : State) : (fifoReadTo a n i s).bitcount = s.bitcount := by
  unfold fifoReadTo; split <;> rfl
@[simp] theorem fifoReadTo_txlen (a : ChipAnswers) (n i : Nat) (s : State) : (fifoReadTo a n i s).txlen = s.txlen := by
  unfold fifoReadTo; split <;> rfl
@[simp] theorem fifoReadTo_rxcap (a : ChipAnswers) (n i : Nat) (s : State) : (fifoReadTo a n i s).rxcap = s.rxcap := by
  unfold fifoReadTo; split <;> rfl
@[simp] theorem fifoReadTo_irqen (a : ChipAnswers) (n i : Nat) (s : State) : (fifoReadTo a n i s).irqen = s.irqen := by
  unfold fifoReadTo; split <;> rfl
@[simp] theorem fifoReadTo_rxcount (a : ChipAnswers) (n i : Nat) (s : State) : (fifoReadTo a n i s).rxcount = s.rxcount := by
  unfold fifoReadTo; split <;> rfl
@[simp] theorem fifoReadTo_fifostat (a : ChipAnswers) (n i : Nat) (s : State) : (fifoReadTo a n i s).fifostat = s.fifostat := by
  unfold fifoReadTo; split <;> rfl
@[simp] theorem fifoReadTo_collpos (a : ChipAnswers) (n i : Nat) (s : State) : (fifoReadTo a n i s).collpos = s.collpos := by
  unfold fifoReadTo; split <;> rfl
@[simp] theorem fifoReadTo_req (a : ChipAnswers) (n i : Nat) (s : State) : (fifoReadTo a n i s).req = s.req := by
  unfold fifoReadTo; split <;> rfl
@[simp] theorem fifoReadTo_cache (a : ChipAnswers) (n i : Nat) (s : State) : (fifoReadTo a n i s).cache = s.cache := by
  unfold fifoReadTo; split <;> rfl
@[simp] theorem fifoReadTo_tmr (a : ChipAnswers) (n i : Nat) (s : State) : (fifoReadTo a n i s).tmr = s.tmr := by
  unfold fifoReadTo; split <;> rfl
@[simp] theorem fifoReadTo_work (a : ChipAnswers) (n i : Nat) (s : State) : (fifoReadTo a n i s).work = s.work := by
  unfold fifoReadTo; split <;> rfl
@[simp] theorem fifoReadTo_txbuf (a : ChipAnswers) (n i : Nat) (s : State) : (fifoReadTo a n i s).txbuf = s.txbuf := by
  unfold fifoReadTo; split <;> rfl
@[simp] theorem fifoReadTo_responses (a : ChipAnswers) (n i : Nat) (s : State) : (fifoReadTo a n i s).responses = s.responses := by
  unfold fifoReadTo; split <;> rfl
@[simp] theorem fifoReadTo_inputs (a : ChipAnswers) (n i : Nat) (s : State) : (fifoReadTo a n i s).inputs = s.inputs := by
  unfold fifoReadTo; split <;> rfl
@[simp] theorem fifoReadTo_draws (a : ChipAnswers) (n i : Nat) (s : State) : (fifoReadTo a n i s).draws = s.draws := by
  unfold fifoReadTo; split <;> rfl

/-! ### prefixCopy -/

@[simp] theorem prefixCopy_hw (s : State) : (prefixCopy s).hw = s.hw := rfl
@[simp] theorem prefixCopy_pc (s : State) : (prefixCopy s).pc = s.pc := rfl
@[simp] theorem prefixCopy_sub (s : State) : (prefixCopy s).sub = s.sub := rfl
@[simp] theorem prefixCopy_session (s : State) : (prefixCopy s).session = s.session := rfl
@[simp] theorem prefixCopy_status (s : State) : (prefixCopy s).status = s.status := rfl
@[simp] theorem prefixCopy_result (s : State) : (prefixCopy s).result = s.result := rfl
@[simp] theorem prefixCopy_bitcount (s : State) : (prefixCopy s).bitcount = s.bitcount := rfl
@[simp] theorem prefixCopy_txlen (s : State) : (prefixCopy s).txlen = s.txlen := rfl
@[simp] theorem prefixCopy_rxcap (s : State) : (prefixCopy s).rxcap = s.rxcap := rfl
@[simp] theorem prefixCopy_irqen (s : State) : (prefixCopy s).irqen = s.irqen := rfl
@[simp] theorem prefixCopy_rxcount (s : State) : (prefixCopy s).rxcount = s.rxcount := rfl
@[simp] theorem prefixCopy_fifostat (s : State) : (prefixCopy s).fifostat = s.fifostat := rfl
@[simp] theorem prefixCopy_collpos (s : State) : (prefixCopy s).collpos = s.collpos := rfl
@[simp] theorem prefixCopy_req (s : State) : (prefixCopy s).req = s.req := rfl
@[simp] theorem prefixCopy_cache (s : State) : (prefixCopy s).cache = s.cache := rfl
@[simp] theorem prefixCopy_tmr (s : State) : (prefixCopy s).tmr = s.tmr := rfl
@[simp] theorem prefixCopy_work (s : State) : (prefixCopy s).work = s.work := rfl
@[simp] theorem prefixCopy_txbuf (s : State) : (prefixCopy s).txbuf = s.txbuf := rfl
@[simp] theorem prefixCopy_trace (s : State) : (prefixCopy s).trace = s.trace := rfl
@[simp] theorem prefixCopy_responses (s : State) : (prefixCopy s).responses = s.responses := rfl
@[simp] theorem prefixCopy_inputs (s : State) : (prefixCopy s).inputs = s.inputs := rfl
@[simp] theorem prefixCopy_draws (s : State) : (prefixCopy s).draws = s.draws := rfl

/-! ### anticollRead -/

@[simp] theorem anticollRead_hw (a : ChipAnswers) (s : State) : (anticollRead a s).hw = s.hw := by
  unfold anticollRead fifoReadTo; split <;> rfl
@[simp] theorem anticollRead_pc (a : ChipAnswers) (s : State) : (anticollRead a s).pc = s.pc := by
  unfold anticollRead fifoReadTo; split <;> rfl
@[simp] theorem anticollRead_sub (a : ChipAnswers) (s : State) : (anticollRead a s).sub = s.sub := by
  unfold anticollRead fifoReadTo; split <;> rfl
@[simp] theorem anticollRead_session (a : ChipAnswers) (s : State) : (anticollRead a s).session = s.session := by
  unfold anticollRead fifoReadTo; split <;> rfl
@[simp] theorem anticollRead_status (a : ChipAnswers) (s : State) : (anticollRead a s).status = s.status := by
  unfold anticollRead fifoReadTo; split <;> rfl
@[simp] theorem anticollRead_result (a : ChipAnswers) (s : State) : (anticollRead a s).result = s.result := by
  unfold anticollRead fifoReadTo; split <;> rfl
@[simp] theorem anticollRead_bitcount (a : ChipAnswers) (s : State) : (anticollRead a s).bitcount = s.bitcount := by
  unfold anticollRead fifoReadTo; split <;> rfl
@[simp] theorem anticollRead_txlen (a : ChipAnswers) (s : State) : (anticollRead a s).txlen = s.txlen := by
  unfold anticollRead fifoReadTo; split <;> rfl
@[simp] theorem anticollRead_rxcap (a : ChipAnswers) (s : State) : (anticollRead a s).rxcap = s.rxcap := by
  unfold anticollRead fifoReadTo; split <;> rfl
@[simp] theorem anticollRead_irqen (a : ChipAnswers) (s : State) : (anticollRead a s).irqen = s.irqen := by
  unfold anticollRead fifoReadTo; split <;> rfl
@[simp] theorem anticollRead_rxcount (a : ChipAnswers) (s : State) : (anticollRead a s).rxcount = s.rxcount := by
  unfold anticollRead fifoReadTo; split <;> rfl
@[simp] theorem anticollRead_fifostat (a : ChipAnswers) (s : State) : (anticollRead a s).fifostat = s.fifostat := by
  unfold anticollRead fifoReadTo; split <;> rfl
@[simp] theorem anticollRead_collpos (a : ChipAnswers) (s : State) : (anticollRead a s).collpos = s.collpos := by
  unfold anticollRead fifoReadTo; split <;> rfl
@[simp] theorem anticollRead_req (a : ChipAnswers) (s : State) : (anticollRead a s).req = s.req := by
  unfold anticollRead fifoReadTo; split <;> rfl
@[simp] theorem anticollRead_cache (a : ChipAnswers) (s : State) : (anticollRead a s).cache = s.cache := by
  unfold anticollRead fifoReadTo; split <;> rfl
@[simp] theorem anticollRead_tmr (a : ChipAnswers) (s : State) : (anticollRead a s).tmr = s.tmr := by
  unfold anticollRead fifoReadTo; split <;> rfl
@[simp] theorem anticollRead_txbuf (a : ChipAnswers) (s : State) : (anticollRead a s).txbuf = s.txbuf := by
  unfold anticollRead fifoReadTo; split <;> rfl
@[simp] theorem anticollRead_responses (a : ChipAnswers) (s : State) : (anticollRead a s).responses = s.responses := by
  unfold anticollRead fifoReadTo; split <;> rfl
@[simp] theorem anticollRead_inputs (a : ChipAnswers) (s : State) : (anticollRead a s).inputs = s.inputs := by
  unfold anticollRead fifoReadTo; split <;> rfl
@[simp] theorem anticollRead_draws (a : ChipAnswers) (s : State) : (anticollRead a s).draws = s.draws := by
  unfold anticollRead fifoReadTo; split <;> rfl

/-! ### partialMerge -/

@[simp] theorem partialMerge_hw (s : State) : (partialMerge s).hw = s.hw := by
  unfold partialMerge; split <;> rfl
@[simp] theorem partialMerge_pc (s : State) : (partialMerge s).pc = s.pc := by
  unfold partialMerge; split <;> rfl
@[simp] theorem partialMerge_sub (s : State) : (partialMerge s).sub = s.sub := by
  unfold partialMerge; split <;> rfl
@[simp] theorem partialMerge_session (s : State) : (partialMerge s).session = s.session := by
  unfold partialMerge; split <;> rfl
@[simp] theorem partialMerge_status (s : State) : (partialMerge s).status = s.status := by
  unfold partialMerge; split <;> rfl
@[simp] theorem partialMerge_result (s : State) : (partialMerge s).result = s.result := by
  unfold partialMerge; split <;> rfl
@[simp] theorem partialMerge_bitcount (s : State) : (partialMerge s).bitcount = s.bitcount := by
  unfold partialMerge; split <;> rfl
@[simp] theorem partialMerge_txlen (s : State) : (partialMerge s).txlen = s.txlen := by
  unfold partialMerge; split <;> rfl
@[simp] theorem partialMerge_rxcap (s : State) : (partialMerge s).rxcap = s.rxcap := by
  unfold partialMerge; split <;> rfl
@[simp] theorem partialMerge_irqen (s : State) : (partialMerge s).irqen = s.irqen := by
  unfold partialMerge; split <;> rfl
@[simp] theorem partialMerge_rxcount (s : State) : (partialMerge s).rxcount = s.rxcount := by
  unfold partialMerge; split <;> rfl
@[simp] theorem partialMerge_fifostat (s : State) : (partialMerge s).fifostat = s.fifostat := by
  unfold partialMerge; split <;> rfl
@[simp] theorem partialMerge_collpos (s : State) : (partialMerge s).collpos = s.collpos := by
  unfold partialMerge; split <;> rfl
@[simp] theorem partialMerge_req (s : State) : (partialMerge s).req = s.req := by
  unfold partialMerge; split <;> rfl
@[simp] theorem partialMerge_cache (s : State) : (partialMerge s).cache = s.cache := by
  unfold partialMerge; split <;> rfl
@[simp] theorem partialMerge_tmr (s : State) : (partialMerge s).tmr = s.tmr := by
  unfold partialMerge; split <;> rfl
@[simp] theorem partialMerge_work (s : State) : (partialMerge s).work = s.work := by
  unfold partialMerge; split <;> rfl
@[simp] theorem partialMerge_txbuf (s : State) : (partialMerge s).txbuf = s.txbuf := by
  unfold partialMerge; split <;> rfl
@[simp] theorem partialMerge_trace (s : State) : (partialMerge s).trace = s.trace := by
  unfold partialMerge; split <;> rfl
@[simp] theorem partialMerge_responses (s : State) : (partialMerge s).responses = s.responses := by
  unfold partialMerge; split <;> rfl
@[simp] theorem partialMerge_inputs (s : State) : (partialMerge s).inputs = s.inputs := by
  unfold partialMerge; split <;> rfl
@[simp] theorem partialMerge_draws (s : State) : (partialMerge s).draws = s.draws := by
  unfold partialMerge; split <;> rfl

/-! ### collisionRead -/

@[simp] theorem collisionRead_hw (a : ChipAnswers) (s : State) : (collisionRead a s).hw = s.hw := by
  unfold collisionRead; split <;> rfl
@[simp] theorem collisionRead_pc (a : ChipAnswers) (s : State) : (collisionRead a s).pc = s.pc := by
  unfold collisionRead; split <;> rfl
@[simp] theorem collisionRead_sub (a : ChipAnswers) (s : State) : (collisionRead a s).sub = s.sub := by
  unfold collisionRead; split <;> rfl
@[simp] theorem collisionRead_session (a : ChipAnswers) (s : State) : (collisionRead a s).session = s.session := by
  unfold collisionRead; split <;> rfl
@[simp] theorem collisionRead_status (a : ChipAnswers) (s : State) : (collisionRead a s).status = s.status := by
  unfold collisionRead; split <;> rfl
@[simp] theorem collisionRead_result (a : ChipAnswers) (s : State) : (collisionRead a s).result = s.result := by
  unfold collisionRead; split <;> rfl
@[simp] theorem collisionRead_bitcount (a : ChipAnswers) (s : State) : (collisionRead a s).bitcount = s.bitcount := by
  unfold collisionRead; split <;> rfl
@[simp] theorem collisionRead_txlen (a : ChipAnswers) (s : State) : (collisionRead a s).txlen = s.txlen := by
  unfold collisionRead; split <;> rfl
@[simp] theorem collisionRead_rxcap (a : ChipAnswers) (s : State) : (collisionRead a s).rxcap = s.rxcap := by
  unfold collisionRead; split <;> rfl
@[simp] theorem collisionRead_irqen (a : ChipAnswers) (s : State) : (collisionRead a s).irqen = s.irqen := by
  unfold collisionRead; split <;> rfl
@[simp] theorem collisionRead_rxcount (a : ChipAnswers) (s : State) : (collisionRead a s).rxcount = s.rxcount := by
  unfold collisionRead; split <;> rfl
@[simp] theorem collisionRead_fifostat (a : ChipAnswers) (s : State) : (collisionRead a s).fifostat = s.fifostat := by
  unfold collisionRead; split <;> rfl
@[simp] theorem collisionRead_req (a : ChipAnswers) (s : State) : (collisionRead a s).req = s.req := by
  unfold collisionRead; split <;> rfl
@[simp] theorem collisionRead_cache (a : ChipAnswers) (s : State) : (collisionRead a s).cache = s.cache := by
  unfold collisionRead; split <;> rfl
@[simp] theorem collisionRead_tmr (a : ChipAnswers) (s : State) : (collisionRead a s).tmr = s.tmr := by
  unfold collisionRead; split <;> rfl
@[simp] theorem collisionRead_txbuf (a : ChipAnswers) (s : State) : (collisionRead a s).txbuf = s.txbuf := by
  unfold collisionRead; split <;> rfl
@[simp] theorem collisionRead_rxbuf (a : ChipAnswers) (s : State) : (collisionRead a s).rxbuf = s.rxbuf := by
  unfold collisionRead; split <;> rfl
@[simp] theorem collisionRead_responses (a : ChipAnswers) (s : State) : (collisionRead a s).responses = s.responses := by
  unfold collisionRead; split <;> rfl
@[simp] theorem collisionRead_inputs (a : ChipAnswers) (s : State) : (collisionRead a s).inputs = s.inputs := by
  unfold collisionRead; split <;> rfl
@[simp] theorem collisionRead_draws (a : ChipAnswers) (s : State) : (collisionRead a s).draws = s.draws := by
  unfold collisionRead; split <;> rfl

/-- COUNT, FULL, REM and SNAP stay when step 10 reads the FIFO; N is COUNT. -/
theorem anticollRead_work (a : ChipAnswers) (s : State) :
    (anticollRead a s).work = { s.work with n := s.work.count } := by
  unfold anticollRead fifoReadTo; split <;> rfl

/-- The collision read changes CPOS only. -/
theorem collisionRead_work (a : ChipAnswers) (s : State) :
    (collisionRead a s).work =
      { s.work with cpos := if s.cache.col then a.collPos.narrow s.hw else s.work.cpos } := by
  unfold collisionRead; split <;> rfl

end Sys2Proof.Machine
end

