-- ==== Sys2Proof/Laws/HostBus.lean ====
section
/-! SUPPORT. The arithmetic of the host bus, said once: addresses and offsets, and words as four bytes
(20_memory.md R80, R86). -/

namespace Sys2Proof.Machine

/-- Every offset is the one its own address selects (R80). -/
theorem HwParams.offsetAt_address (h : HwParams) (off : BitVec 14) : h.offsetAt (h.address off) = some off := by
  have := off.isLt
  unfold HwParams.offsetAt HwParams.address
  rw [if_pos (by omega), Nat.add_sub_cancel_left, BitVec.ofNat_toNat, BitVec.setWidth_eq]

/-- A word is the sum of its bytes, the first in [7:0]. -/
theorem wordOfBytes_toNat (b0 b1 b2 b3 : Byte) :
    (wordOfBytes b0 b1 b2 b3).toNat =
      b0.toNat + 2 ^ 8 * b1.toNat + 2 ^ 16 * b2.toNat + 2 ^ 24 * b3.toNat := by
  have h0 := b0.isLt
  have h1 := b1.isLt
  have h2 := b2.isLt
  unfold wordOfBytes
  rw [BitVec.toNat_append, ← Nat.shiftLeft_add_eq_or_of_lt h0, BitVec.toNat_append,
    ← Nat.shiftLeft_add_eq_or_of_lt h1, BitVec.toNat_append, ← Nat.shiftLeft_add_eq_or_of_lt h2]
  simp only [Nat.shiftLeft_eq]
  omega

/-- The byte at place j of a word. -/
theorem bytesOfWord_getD (v : Word) (j : Nat) (h : j < 4) :
    (bytesOfWord v).getD j 0 = BitVec.ofNat 8 (v.toNat / 2 ^ (8 * j)) := by
  apply BitVec.eq_of_toNat_eq
  obtain rfl | rfl | rfl | rfl : j = 0 ∨ j = 1 ∨ j = 2 ∨ j = 3 := by omega
  all_goals simp [bytesOfWord, BitVec.extractLsb'_toNat, Nat.shiftRight_eq_div_pow]

@[simp] theorem bytesOfWord_length (v : Word) : (bytesOfWord v).length = 4 := by
  simp [bytesOfWord]

/-- A word put together again from its bytes. -/
theorem wordOfBytes_bytesOfWord (v : Word) :
    wordOfBytes ((bytesOfWord v).getD 0 0) ((bytesOfWord v).getD 1 0) ((bytesOfWord v).getD 2 0)
      ((bytesOfWord v).getD 3 0) = v := by
  apply BitVec.eq_of_toNat_eq
  have := v.isLt
  rw [wordOfBytes_toNat, bytesOfWord_getD v 0 (by decide), bytesOfWord_getD v 1 (by decide),
    bytesOfWord_getD v 2 (by decide), bytesOfWord_getD v 3 (by decide)]
  simp only [BitVec.toNat_ofNat]
  omega

/-- The register space has no window bytes, and the space above the windows reads 0 (R88). -/
theorem State.windowByte_reserved (s : State) (off : Nat) (h : windowEnd ≤ off) : s.windowByte off = 0 := by
  have h' : 0x3000 ≤ off := h
  unfold State.windowByte
  rw [if_neg (by unfold txWindow; omega), if_neg (by unfold rxWindow; omega), if_neg (by unfold windowEnd; omega)]

/-- A byte of the TXBUF window (R81). -/
theorem State.windowByte_tx (s : State) (i : Nat) (h : i < 0x1000) : s.windowByte (0x1000 + i) = s.txByte i := by
  unfold State.windowByte
  rw [if_neg (by unfold txWindow; omega), if_pos (by unfold rxWindow; omega)]
  rw [show 0x1000 + i - txWindow = i by unfold txWindow; omega]

/-- A byte of the RXBUF window (R82). -/
theorem State.windowByte_rx (s : State) (i : Nat) (h : i < 0x1000) : s.windowByte (0x2000 + i) = s.rxByte i := by
  unfold State.windowByte
  rw [if_neg (by unfold txWindow; omega), if_neg (by unfold rxWindow; omega), if_pos (by unfold windowEnd; omega)]
  rw [show 0x2000 + i - rxWindow = i by unfold rxWindow; omega]

/-! ## Accesses that the bus does not refuse -/

theorem hostStep_readWord (s : State) (off : BitVec 14) (h : off.toNat % 4 = 0) :
    hostStep (.readWord off) s = .next (s.respond (.word (s.readWordAt off.toNat))) := by
  unfold hostStep
  rw [if_neg (by simp [HostAccess.refusedByBus, h])]

theorem hostStep_readByte (s : State) (off : BitVec 14) (h : 0x1000 ≤ off.toNat) :
    hostStep (.readByte off) s = .next (s.respond (.byte (s.windowByte off.toNat))) := by
  unfold hostStep
  have h' : ¬ off.toNat < txWindow := Nat.not_lt.mpr h
  rw [if_neg (by simp [HostAccess.refusedByBus, h'])]

theorem hostStep_writeByte (s : State) (off : BitVec 14) (b : Byte) (h : 0x1000 ≤ off.toNat) :
    hostStep (.writeByte off b) s = .next (writeWindow off.toNat [b] (s.respond .done)) := by
  unfold hostStep
  have h' : ¬ off.toNat < txWindow := Nat.not_lt.mpr h
  rw [if_neg (by simp [HostAccess.refusedByBus, h'])]

theorem hostStep_writeWord (s : State) (off : BitVec 14) (v : Word) (h : off.toNat % 4 = 0) :
    hostStep (.writeWord off v) s =
      if off.toNat < 0x1000 then writeReg off.toNat v (s.respond .done)
      else .next (writeWindow off.toNat (bytesOfWord v) (s.respond .done)) := by
  unfold hostStep
  rw [if_neg (by simp [HostAccess.refusedByBus, h])]
  rfl

/-- A write to the TXBUF window (R81, R91). -/
theorem writeWindow_tx (s : State) (i : Nat) (bs : List Byte) (h : i < 0x1000) :
    writeWindow (0x1000 + i) bs s = if s.busy then s.dropWrite else s.txStore i bs := by
  unfold writeWindow
  rw [if_pos (by unfold rxWindow; omega), show 0x1000 + i - txWindow = i by unfold txWindow; omega]
  rfl

/-- A write to the RXBUF window (R82, R91). -/
theorem writeWindow_rx (s : State) (i : Nat) (bs : List Byte) (h : i < 0x1000) :
    writeWindow (0x2000 + i) bs s = if s.busy then s.dropWrite else s.rxStore i bs := by
  unfold writeWindow
  rw [if_neg (by unfold rxWindow; omega), if_pos (by unfold windowEnd; omega),
    show 0x2000 + i - rxWindow = i by unfold rxWindow; omega]
  rfl

/-- A write above the windows (R88). -/
theorem writeWindow_reserved (s : State) (off : Nat) (bs : List Byte) (h : 0x3000 ≤ off) :
    writeWindow off bs s = s := by
  unfold writeWindow
  rw [if_neg (by unfold rxWindow; omega), if_neg (by unfold windowEnd; omega)]

/-- A 4-byte read in or above the windows (R86). -/
theorem State.readWordAt_window (s : State) (off : Nat) (h : 0x1000 ≤ off) :
    s.readWordAt off =
      wordOfBytes (s.windowByte off) (s.windowByte (off + 1)) (s.windowByte (off + 2)) (s.windowByte (off + 3)) := by
  unfold State.readWordAt
  rw [if_neg (by unfold txWindow; omega)]

end Sys2Proof.Machine
end

