-- ==== Sys2Proof/Laws/Run.lean ====
section
/-! SUPPORT. Steps and runs: a step delivers the next event, and a run of given events is the machine's own run
(Host.Core.run) with those events pending. -/

namespace Sys2Proof.Machine

/-- A step with a known next event delivers it. -/
theorem step_of_inputs (s : State) (e : Event) (es : List Event) (h : s.inputs = e :: es) :
    step s = deliver e { s with inputs := es } := by
  simp [step, State.nextEvent, State.consume, h]

/-- A step with no known next event delivers a free one. -/
theorem step_of_no_inputs (s : State) (h : s.inputs = []) :
    step s = deliver (Config.freeEvent s.draws) { s with draws := s.draws + 1 } := by
  simp [step, State.nextEvent, State.consume, h]

theorem step_eq_deliver (s : State) : ∃ e es n, step s = deliver e { s with inputs := es, draws := n } := by
  obtain ⟨es, n, h⟩ := s.consume_eq
  exact ⟨s.nextEvent, es, n, by rw [step, h]⟩

@[simp] theorem runEvents_nil (s : State) : runEvents [] s = .next s := rfl

/-- A run of one event more is the delivery of that event, then the rest. -/
theorem runEvents_cons (e : Event) (es : List Event) (s : State) :
    runEvents (e :: es) s =
      match deliver e { s with inputs := es } with
      | .next t => runEvents es t
      | .fault r => .fault r
      | .refused r => .refused r := by
  rw [← step_of_inputs { s with inputs := e :: es } e es rfl]
  rfl

theorem runEvents_cons_next (e : Event) (es : List Event) (s t : State)
    (h : deliver e { s with inputs := es } = .next t) : runEvents (e :: es) s = runEvents es t := by
  rw [runEvents_cons, h]

/-- The events a state holds are replaced by the run's, so they do not matter to it. -/
theorem runEvents_inputs (es l : List Event) (s : State) (h : es ≠ []) :
    runEvents es { s with inputs := l } = runEvents es s := by
  cases es with
  | nil => exact absurd rfl h
  | cons e es => rfl

/-! ## Timelines, and what ENV2 gives -/

@[simp] theorem Timeline.run_zero (σ : Timeline) (s : State) : σ.run s 0 = .next s := rfl

/-- The run of one event more is the run, then the delivery of that event. -/
theorem Timeline.run_succ {σ : Timeline} {s t : State} {n : Nat} (h : σ.run s n = .next t) :
    σ.run s (n + 1) = deliver (σ n).2 { t with inputs := [] } := by
  rw [Timeline.run, h]
  exact (runEvents_cons _ _ _).trans (by split <;> simp [*])

/-- A run of one event more that answers a next state went through one before it. -/
theorem Timeline.run_succ_next {σ : Timeline} {s u : State} {n : Nat} (h : σ.run s (n + 1) = .next u) :
    ∃ t, σ.run s n = .next t ∧ deliver (σ n).2 { t with inputs := [] } = .next u := by
  cases ht : σ.run s n with
  | next t => exact ⟨t, rfl, (Timeline.run_succ ht).symm.trans h⟩
  | fault r => rw [Timeline.run, ht] at h; cases h
  | refused r => rw [Timeline.run, ht] at h; cases h

theorem Timeline.events_succ (σ : Timeline) (n : Nat) : σ.events (n + 1) = σ.events n ++ [(σ n).2] := by
  simp [Timeline.events, List.range_succ]

/-- More events hold no fewer edges. -/
theorem Timeline.count_tick_mono (σ : Timeline) {m n : Nat} (h : m ≤ n) :
    (σ.events m).count .tick ≤ (σ.events n).count .tick := by
  induction h with
  | refl => exact Nat.le_refl _
  | step _ ih => rw [Timeline.events_succ, List.count_append]; omega

/-- Times do not go back. -/
theorem Env2.time_mono {h : HwParams} {σ : Timeline} (he : Env2 h σ) {m n : Nat} (hmn : m ≤ n) :
    (σ m).1 ≤ (σ n).1 := by
  induction hmn with
  | refl => exact Nat.le_refl _
  | step _ ih => exact Nat.le_trans ih (he.1 _)

/-- Under ENV2 two edges are at least one TICK_PERIOD apart, so no two come at one time. -/
theorem Env2.edges_apart {h : HwParams} {σ : Timeline} (he : Env2 h σ) {m n : Nat} (hmn : m < n)
    (hm : (σ m).2 = .tick) (hn : (σ n).2 = .tick) : (σ m).1 + h.tickPeriodUs ≤ (σ n).1 := by
  obtain ⟨k, ⟨-, h1, h2⟩, hk⟩ := he.2 (σ m).1
  have hle := he.time_mono (Nat.le_of_lt hmn)
  by_contra hlt
  have := hk m ⟨hm, Nat.le_refl _, by omega⟩
  have := hk n ⟨hn, hle, by omega⟩
  omega

/-- Under ENV2 any number of edges comes, so every deadline is reached (92_eei_decisions.md D33). -/
theorem Env2.edges_keep_arriving {h : HwParams} {σ : Timeline} (he : Env2 h σ) (k : Nat) :
    ∃ n, k ≤ (σ.events n).count .tick := by
  induction k with
  | zero => exact ⟨0, Nat.zero_le _⟩
  | succ k ih =>
    obtain ⟨m, hm⟩ := ih
    obtain ⟨n, ⟨ht, hlt, -⟩, -⟩ := he.2 ((σ m).1 + 1)
    have hmn : m ≤ n := by
      by_contra hgt
      have := he.time_mono (Nat.le_of_lt (Nat.lt_of_not_le hgt))
      omega
    refine ⟨n + 1, ?_⟩
    have := σ.count_tick_mono hmn
    rw [Timeline.events_succ, List.count_append, ht]
    simp only [List.count_singleton_self]
    omega

end Sys2Proof.Machine
end

