-- ==== Sys2Proof/Laws/Moves.lean ====
section
/-! SUPPORT. What one event can do, said once: `SeqMove`, `HostMove` and `Move` list every way a turn of SEQ, a host
access or any event can lead to a next state, with the conditions of each way, and the inversion lemmas say there is no
other. Later proofs go by cases on them and unfold no step. -/

namespace Sys2Proof.Machine

/-- The ways a turn of SEQ leads from s to a next state (40_session.md, 41_exchange_sequence.md,
43_fifo_read.md). -/
inductive SeqMove (a : ChipAnswers) (s : State) : State → Prop where
  | rest (h : s.busy = false) : SeqMove a s s
  | modeOn (h : s.pc = .sMode) : SeqMove a s ((s.perform .modeOn).enter .sField)
  | fieldOn (h : s.pc = .sField) (hs : s.sub = 0) (ha : a.field = .ok) :
      SeqMove a s ((s.perform (.fieldOn .ok)).enter .sGuard)
  | fieldCollision (h : s.pc = .sField) (hs : s.sub = 0) (ha : a.field = .fieldCollision) :
      SeqMove a s (s.perform (.fieldOn .fieldCollision)).nextSub
  | startFails (h : s.pc = .sField) (hs : s.sub = 1) :
      SeqMove a s ((s.perform .modeOff).finish { serr := serrFieldCollision, op := opSstart } 0 .idle)
  | guardHolds (h : s.pc = .sGuard) (ht : ¬ s.elapsed Config.tGuardMs) : SeqMove a s s
  | startEnds (h : s.pc = .sGuard) (ht : s.elapsed Config.tGuardMs) :
      SeqMove a s ((s.setSession true).finish { op := opSstart } 0 .ready)
  | fieldOff (h : s.pc = .tStop) (hs : s.sub = 0) : SeqMove a s (s.perform .fieldOff).nextSub
  | stopEnds (h : s.pc = .tStop) (hs : s.sub = 1) :
      SeqMove a s (((s.perform .modeOff).setSession false).finish { op := opSstop } 0 .idle)
  | predelayHolds (h : s.pc = .xPredelay) (ht : ¬ s.elapsed Config.tIfsMs) : SeqMove a s s
  | predelayEnds (h : s.pc = .xPredelay) (ht : s.elapsed Config.tIfsMs) : SeqMove a s (s.enter .xReset)
  | resetStop (h : s.pc = .xReset) (hs : s.sub = 0) : SeqMove a s (s.perform (.cmd .stop)).nextSub
  | resetGain (h : s.pc = .xReset) (hs : s.sub = 1) : SeqMove a s (s.perform (.cmd .resetRxGain)).nextSub
  | resetClear (h : s.pc = .xReset) (hs : s.sub = 2) : SeqMove a s (s.irqClearAll.enter .xProgram)
  | program (v : Variant) (x : ChipTxn) (h : s.pc = .xProgram) (hv : s.req.variant = some v)
      (hx : (programTxns s v)[s.sub]? = some x) (hl : s.sub + 1 ≠ (programTxns s v).length) :
      SeqMove a s (s.perform x).nextSub
  | programEnds (v : Variant) (x : ChipTxn) (h : s.pc = .xProgram) (hv : s.req.variant = some v)
      (hx : (programTxns s v)[s.sub]? = some x) (hl : s.sub + 1 = (programTxns s v).length) :
      SeqMove a s ((s.perform x).enter .xDispatch)
  | dispatch (v : Variant) (h : s.pc = .xDispatch) (hv : s.req.variant = some v) :
      SeqMove a s ((s.perform (.cmd v.txCommand)).clearCache.enter .xTxwait)
  | txwaitStays (h : s.pc = .xTxwait) (hc : IrqFlags.txe (s.cache ||| a.irq) = false) :
      SeqMove a s (s.irqRefresh a.irq)
  | txwaitEnds (h : s.pc = .xTxwait) (hc : IrqFlags.txe (s.cache ||| a.irq) = true) :
      SeqMove a s ((s.irqRefresh a.irq).enter .xRxswait)
  | rxswaitEnds (h : s.pc = .xRxswait) (hc : IrqFlags.rxs (s.cache ||| a.irq) = true) :
      SeqMove a s ((s.irqRefresh a.irq).enter .xPoll)
  | rxswaitExpires (h : s.pc = .xRxswait) (hc : IrqFlags.rxs (s.cache ||| a.irq) = false)
      (ht : s.elapsed s.req.fwtMs) : SeqMove a s ((s.irqRefresh a.irq).raise .timeout false)
  | rxswaitStays (h : s.pc = .xRxswait) (hc : IrqFlags.rxs (s.cache ||| a.irq) = false)
      (ht : ¬ s.elapsed s.req.fwtMs) : SeqMove a s (s.irqRefresh a.irq)
  | pollFails (e : ExchangeError) (src : Bool) (h : s.pc = .xPoll) (hs : s.sub = 0) (he : src = true → e = .timeout)
      (hd : pollChecks (s.irqRefresh a.irq) = (s.irqRefresh a.irq).raise e src) :
      SeqMove a s ((s.irqRefresh a.irq).raise e src)
  | pollEnds (h : s.pc = .xPoll) (hs : s.sub = 0) (hc : IrqFlags.rxe (s.cache ||| a.irq) = true)
      (hd : pollChecks (s.irqRefresh a.irq) = (s.irqRefresh a.irq).enter .xPostchk) :
      SeqMove a s ((s.irqRefresh a.irq).enter .xPostchk)
  | pollYields (h : s.pc = .xPoll) (hs : s.sub = 0)
      (hd : pollChecks (s.irqRefresh a.irq) = (s.irqRefresh a.irq).nextSub) :
      SeqMove a s (s.irqRefresh a.irq).nextSub
  | yieldEnds (h : s.pc = .xPoll) (hs : s.sub = 1) : SeqMove a s { s with sub := 0 }
  | postchkFails (e : ExchangeError) (h : s.pc = .xPostchk) :
      SeqMove a s ((s.takeSnapshot (a.fifoStatus.narrow s.hw)).raise e false)
  | postchkEnds (h : s.pc = .xPostchk)
      (hf : a.fifoStatus.ovr = false ∧ a.fifoStatus.unf = false ∧ a.fifoStatus.nplb = false) :
      SeqMove a s ((s.takeSnapshot (a.fifoStatus.narrow s.hw)).enter .xCount)
  | count (h : s.pc = .xCount) : SeqMove a s (s.composeCount.enter .xExtract)
  | plainTooShort (h : s.pc = .xExtract) (hq : ¬ s.req.isAnticoll) (hs : s.sub = 0) (hr : ¬ s.req.isRaw)
      (hc : s.work.count.toNat < Config.crcLen) : SeqMove a s (s.raise .responseTooShort false)
  | plainTooLong (h : s.pc = .xExtract) (hq : ¬ s.req.isAnticoll) (hs : s.sub = 0)
      (hc : ¬ s.req.isRaw → Config.crcLen ≤ s.work.count.toNat)
      (hr : s.req.rxcap.toNat < (plainLength s).toNat) :
      SeqMove a s ((s.setN (plainLength s)).raise .responseTooLong false)
  | plainFits (h : s.pc = .xExtract) (hq : ¬ s.req.isAnticoll) (hs : s.sub = 0)
      (hc : ¬ s.req.isRaw → Config.crcLen ≤ s.work.count.toNat)
      (hr : (plainLength s).toNat ≤ s.req.rxcap.toNat) : SeqMove a s (s.setN (plainLength s)).nextSub
  | plainReads (h : s.pc = .xExtract) (hq : ¬ s.req.isAnticoll) (hs : s.sub = 1) :
      SeqMove a s (fifoReadTo a s.work.n.toNat 0 s).nextSub
  | plainEnds (h : s.pc = .xExtract) (hq : ¬ s.req.isAnticoll) (hs : s.sub = 2) :
      SeqMove a s (s.complete (8 * s.work.n.toNat))
  | anticollFails (h : s.pc = .xExtract) (hq : s.req.isAnticoll) (hs : s.sub = 0)
      (hc : s.req.rxcap.toNat < anticollNeed s.req.fullBytes s.req.remBits s.work.count.toNat) :
      SeqMove a s (s.splitPrefix.raise .responseTooLong false)
  | anticollFits (h : s.pc = .xExtract) (hq : s.req.isAnticoll) (hs : s.sub = 0)
      (hc : anticollNeed s.req.fullBytes s.req.remBits s.work.count.toNat ≤ s.req.rxcap.toNat) :
      SeqMove a s s.splitPrefix.nextSub
  | prefixCopies (h : s.pc = .xExtract) (hq : s.req.isAnticoll) (hs : s.sub = 1) :
      SeqMove a s (prefixCopy s).nextSub
  | anticollReads (h : s.pc = .xExtract) (hq : s.req.isAnticoll) (hs : s.sub = 2) :
      SeqMove a s (anticollRead a s).nextSub
  | merges (h : s.pc = .xExtract) (hq : s.req.isAnticoll) (hs : s.sub = 3) : SeqMove a s (partialMerge s).nextSub
  | collisionReads (h : s.pc = .xExtract) (hq : s.req.isAnticoll) (hs : s.sub = 4) :
      SeqMove a s (collisionRead a s).nextSub
  | anticollEnds (h : s.pc = .xExtract) (hq : s.req.isAnticoll) (hs : s.sub = 5) :
      SeqMove a s (s.complete (anticollBitCount s))

/-- Step 3 makes field writes and FIFO loads only (R173-R175). -/
theorem programTxns_kinds (s : State) (v : Variant) (x : ChipTxn) (h : x ∈ programTxns s v) :
    (∃ f n, x = .write f n) ∨ ∃ bs, x = .fifoWrite bs := by
  have load (n : Nat) (h : x ∈ fifoLoad s n) : ∃ bs, x = .fifoWrite bs := by
    unfold fifoLoad at h
    split at h
    · cases h
    · exact ⟨_, List.mem_singleton.mp h⟩
  have frame (a b c : Nat) (h : x ∈ framingWrites a b c) : ∃ f n, x = .write f n := by
    simp only [framingWrites, List.mem_cons, List.not_mem_nil, or_false] at h
    rcases h with h | h | h | h <;> exact ⟨_, _, h⟩
  cases v with
  | reqa => exact .inl (frame _ _ _ h)
  | wupa => exact .inl (frame _ _ _ h)
  | anticoll =>
    rcases List.mem_append.mp h with h | h
    · rcases List.mem_cons.mp h with h | h
      · exact .inl ⟨_, _, h⟩
      · exact .inr (load _ h)
    · exact .inl (frame _ _ _ h)
  | xchg =>
    rcases List.mem_append.mp h with h | h
    · rcases List.mem_cons.mp h with h | h
      · exact .inl ⟨_, _, h⟩
      · exact .inr (load _ h)
    · exact .inl (frame _ _ _ h)

/-- The checks of a poll iteration raise an error, end the poll on RXE, or lead to the Yield. -/
theorem pollChecks_cases (r : State) :
    (∃ e src, (src = true → e = .timeout) ∧ pollChecks r = r.raise e src)
      ∨ (r.cache.rxe = true ∧ pollChecks r = r.enter .xPostchk) ∨ pollChecks r = r.nextSub := by
  unfold pollChecks
  split
  · exact .inl ⟨_, _, by simp, rfl⟩
  split
  · exact .inl ⟨_, _, by simp, rfl⟩
  split
  · exact .inl ⟨_, _, by simp, rfl⟩
  split
  · exact .inl ⟨_, _, by simp, rfl⟩
  split
  · exact .inr (.inl ⟨‹_›, rfl⟩)
  split
  · exact .inl ⟨_, _, by simp, rfl⟩
  · exact .inr (.inr rfl)

/-- A turn of SEQ that answers a next state made one of the moves. -/
theorem seqStep_move (a : ChipAnswers) (s t : State) (h : seqStep a s = .next t) : SeqMove a s t := by
  unfold seqStep at h
  split at h
  case h_1 hp => cases h; exact .rest (by simp [State.busy, hp, FsmState.busy])
  case h_2 hp => cases h; exact .modeOn hp
  case h_3 hp =>
    unfold seqField at h
    split at h
    · split at h
      · cases h; exact .fieldOn hp ‹_› ‹_›
      · cases h; exact .fieldCollision hp ‹_› ‹_›
    · cases h; exact .startFails hp ‹_›
    · cases h
  case h_4 hp =>
    unfold seqGuard at h
    split at h
    · cases h; exact .startEnds hp ‹_›
    · cases h; exact .guardHolds hp ‹_›
  case h_5 hp => cases h; exact .rest (by simp [State.busy, hp, FsmState.busy])
  case h_6 hp =>
    unfold seqPredelay at h
    split at h
    · cases h; exact .predelayEnds hp ‹_›
    · cases h; exact .predelayHolds hp ‹_›
  case h_7 hp =>
    unfold seqReset at h
    split at h
    · cases h; exact .resetStop hp ‹_›
    · cases h; exact .resetGain hp ‹_›
    · cases h; exact .resetClear hp ‹_›
    · cases h
  case h_8 hp =>
    unfold seqProgram performAt at h
    split at h
    · cases h
    · split at h
      · cases h
      · split at h
        · cases h; exact .programEnds _ _ hp ‹_› ‹_› ‹_›
        · cases h; exact .program _ _ hp ‹_› ‹_› ‹_›
  case h_9 hp =>
    unfold seqDispatch at h
    split at h
    · cases h
    · cases h; exact .dispatch _ hp ‹_›
  case h_10 hp =>
    unfold seqTxwait at h
    dsimp only at h
    split at h
    · cases h; exact .txwaitEnds hp ‹_›
    · cases h; exact .txwaitStays hp (Bool.eq_false_iff.mpr ‹_›)
  case h_11 hp =>
    unfold seqRxswait at h
    dsimp only at h
    split at h
    · cases h; exact .rxswaitEnds hp ‹_›
    · rename_i hc
      split at h
      · cases h; exact .rxswaitExpires hp (Bool.eq_false_iff.mpr hc) ‹_›
      · cases h; exact .rxswaitStays hp (Bool.eq_false_iff.mpr hc) ‹_›
  case h_12 hp =>
    unfold seqPoll at h
    split at h
    · cases h
      rcases pollChecks_cases (s.irqRefresh a.irq) with ⟨e, src, he, hd⟩ | ⟨hc, hd⟩ | hd
      · rw [hd]; exact .pollFails e src hp ‹_› he hd
      · rw [hd]; exact .pollEnds hp ‹_› hc hd
      · rw [hd]; exact .pollYields hp ‹_› hd
    · cases h; exact .yieldEnds hp ‹_›
    · cases h
  case h_13 hp =>
    unfold seqPostchk at h
    dsimp only at h
    split at h
    · cases h; exact .postchkFails _ hp
    · rename_i h1
      split at h
      · cases h; exact .postchkFails _ hp
      · rename_i h2
        split at h
        · cases h; exact .postchkFails _ hp
        · rename_i h3
          cases h
          exact .postchkEnds hp
            ⟨Bool.eq_false_iff.mpr h1, Bool.eq_false_iff.mpr h2, Bool.eq_false_iff.mpr h3⟩
  case h_14 hp => cases h; exact .count hp
  case h_15 hp =>
    unfold seqExtract at h
    split at h
    · rename_i hq
      unfold extractAnticoll at h
      split at h
      · cases h
        unfold anticollCheck
        split
        · exact .anticollFails hp hq ‹_› ‹_›
        · exact .anticollFits hp hq ‹_› (Nat.le_of_not_lt ‹_›)
      · cases h; exact .prefixCopies hp hq ‹_›
      · cases h; exact .anticollReads hp hq ‹_›
      · cases h; exact .merges hp hq ‹_›
      · cases h; exact .collisionReads hp hq ‹_›
      · cases h; exact .anticollEnds hp hq ‹_›
      · cases h
    · rename_i hq
      unfold extractPlain at h
      split at h
      · cases h
        unfold plainCheck
        split
        · rename_i hc
          exact .plainTooShort hp hq ‹_› hc.1 hc.2
        · rename_i hc
          have hl : ¬ s.req.isRaw → Config.crcLen ≤ s.work.count.toNat := fun hr =>
            Nat.le_of_not_lt fun hl => hc ⟨hr, hl⟩
          split
          · exact .plainTooLong hp hq ‹_› hl ‹_›
          · exact .plainFits hp hq ‹_› hl (Nat.le_of_not_lt ‹_›)
      · cases h; exact .plainReads hp hq ‹_›
      · cases h; exact .plainEnds hp hq ‹_›
      · cases h
  case h_16 hp =>
    unfold seqStop at h
    split at h
    · cases h; exact .fieldOff hp ‹_›
    · cases h; exact .stopEnds hp ‹_›
    · cases h

/-! ## Host accesses -/

/-- The ways a host access leads from s to a next state (20_memory.md R83-R91, 30_encoding.md R130). -/
inductive HostMove (a : HostAccess) (s : State) : State → Prop where
  | busError (h : a.refusedByBus = true) : HostMove a s s.busFault
  | answers (r : HostResponse) : HostMove a s (s.respond r)
  | drops (hb : s.busy = true) : HostMove a s (s.respond .done).dropWrite
  | rejects (w : Word) (h : a = .writeWord 0 w) : HostMove a s (s.respond .done).reject
  | starts (w : Word) (h : a = .writeWord 0 w) (hd : decode w = .instr .sstart) (hp : preconditions s .sstart) :
      HostMove a s ((s.respond .done).acceptSession (encode .sstart) .sMode)
  | stops (w : Word) (h : a = .writeWord 0 w) (hd : decode w = .instr .sstop) (hp : preconditions s .sstop) :
      HostMove a s ((s.respond .done).acceptSession (encode .sstop) .tStop)
  | exchanges (w : Word) (i : Instr) (h : a = .writeWord 0 w) (hd : decode w = .instr i)
      (hi : i ≠ .sstart ∧ i ≠ .sstop) (hp : preconditions s i) :
      HostMove a s ((s.respond .done).acceptExchange (encode i))
  | clears (v : Word) : HostMove a s ((s.respond .done).clearStatus v)
  | setsTxlen (v : Word) (hb : s.busy = false) : HostMove a s ((s.respond .done).setTxlen v)
  | setsRxcap (v : Word) (hb : s.busy = false) : HostMove a s ((s.respond .done).setRxcap v)
  | setsIrqen (v : Word) : HostMove a s ((s.respond .done).setIrqen v)
  | writesTx (i : Nat) (bs : List Byte) (hb : s.busy = false) : HostMove a s ((s.respond .done).txStore i bs)
  | writesRx (i : Nat) (bs : List Byte) (hb : s.busy = false) : HostMove a s ((s.respond .done).rxStore i bs)

theorem writeWindow_move (a : HostAccess) (off : Nat) (bs : List Byte) (s : State) :
    HostMove a s (writeWindow off bs (s.respond .done)) := by
  unfold writeWindow State.unlessBusy
  split
  · split
    · exact .drops ‹_›
    · exact .writesTx _ _ (Bool.eq_false_iff.mpr ‹_›)
  · split
    · split
      · exact .drops ‹_›
      · exact .writesRx _ _ (Bool.eq_false_iff.mpr ‹_›)
    · exact .answers .done

theorem issueCommand_move (w : Word) (s : State) :
    ∃ t, issueCommand w (s.respond .done) = .next t ∧ HostMove (.writeWord 0 w) s t := by
  unfold issueCommand
  split
  · rename_i i hd
    rcases exec_cases i (s.respond .done) with ⟨hp, he⟩ | ⟨-, he⟩
    · refine ⟨_, he, ?_⟩
      cases i with
      | sstart => exact .starts w rfl hd hp
      | sstop => exact .stops w rfl hd hp
      | reqa => exact .exchanges w _ rfl hd (by simp) hp
      | wupa => exact .exchanges w _ rfl hd (by simp) hp
      | anticoll bits => exact .exchanges w _ rfl hd (by simp) hp
      | xchg fwt => exact .exchanges w _ rfl hd (by simp) hp
    · exact ⟨_, he, .rejects w rfl⟩
  · exact ⟨_, rfl, .rejects w rfl⟩

/-- Every host access answers a next state, and made one of the moves: the host bus never stops the machine. -/
theorem hostStep_move (a : HostAccess) (s : State) : ∃ t, hostStep a s = .next t ∧ HostMove a s t := by
  unfold hostStep
  split
  · exact ⟨_, rfl, .busError ‹_›⟩
  · split
    · exact ⟨_, rfl, .answers _⟩
    · exact ⟨_, rfl, .answers _⟩
    · exact ⟨_, rfl, writeWindow_move _ _ _ s⟩
    · rename_i off v _
      split
      · unfold writeReg
        split
        · rename_i h
          have h0 : off = 0 := BitVec.eq_of_toNat_eq (by simpa [offCmd] using h)
          subst h0
          exact issueCommand_move v s
        · unfold State.unlessBusy
          split
          · exact ⟨_, rfl, .clears v⟩
          split
          · split
            · exact ⟨_, rfl, .drops ‹_›⟩
            · exact ⟨_, rfl, .setsTxlen v (Bool.eq_false_iff.mpr ‹_›)⟩
          split
          · split
            · exact ⟨_, rfl, .drops ‹_›⟩
            · exact ⟨_, rfl, .setsRxcap v (Bool.eq_false_iff.mpr ‹_›)⟩
          split
          · exact ⟨_, rfl, .setsIrqen v⟩
          · exact ⟨_, rfl, .answers .done⟩
      · exact ⟨_, rfl, writeWindow_move _ _ _ s⟩

/-- What one event leads to (00_scope.md R6). -/
inductive Move (s : State) : Event → State → Prop where
  | host (a : HostAccess) (t : State) (h : HostMove a s t) : Move s (.host a) t
  | seq (a : ChipAnswers) (t : State) (h : SeqMove a s t) : Move s (.seq a) t
  | tick : Move s .tick s.tick
  | rst (tx rx : List Byte) : Move s (.rst tx rx) (s.resetStep tx rx)

/-- An event that answers a next state made one of the moves of its agent. -/
theorem deliver_move (e : Event) (s t : State) (h : deliver e s = .next t) : Move s e t := by
  cases e with
  | host a =>
    obtain ⟨u, hu, hm⟩ := hostStep_move a s
    have : u = t := by
      rw [show deliver (.host a) s = hostStep a s from rfl, hu] at h
      cases h
      rfl
    exact this ▸ .host a u hm
  | seq a => exact .seq a t (seqStep_move a s t h)
  | tick => cases h; exact .tick
  | rst tx rx => cases h; exact .rst tx rx

end Sys2Proof.Machine
end

