-- ==== Sys2Proof/Laws/PerInstr.lean ====
section
/-! SUPPORT. The per-instruction family EncodedFields: the word of each command has its opcode and operands in the
fields of R121 and 0 in every other bit. One lemma per constructor of Instr. -/

namespace Sys2Proof.Laws.EncodedFields

open Sys2Proof

/-- A word with these values in OP, BITS and FWT and 0 in its reserved fields (R121). -/
def Fields (w : Word) (op bits fwt : Nat) : Prop :=
  w.toNat % 2 ^ 4 = op ∧ w.toNat / 2 ^ 4 % 2 ^ 4 = 0 ∧ w.toNat / 2 ^ 8 % 2 ^ 6 = bits
    ∧ w.toNat / 2 ^ 14 % 2 ^ 2 = 0 ∧ w.toNat / 2 ^ 16 = fwt

/-- The fields of each command's word, with the opcode of R123. -/
def Statement (i : Instr) : Prop :=
  match i with
  | .sstart => Fields (encode i) 0x1 0 0
  | .sstop => Fields (encode i) 0x2 0 0
  | .reqa => Fields (encode i) 0x4 0 0
  | .wupa => Fields (encode i) 0x5 0 0
  | .anticoll bits => Fields (encode i) 0x6 bits.toNat 0
  | .xchg fwt => Fields (encode i) 0x7 0 fwt.toNat

theorem sstart : Statement .sstart := by
  simp [Statement, Fields, encode]

theorem sstop : Statement .sstop := by
  simp [Statement, Fields, encode]

theorem reqa : Statement .reqa := by
  simp [Statement, Fields, encode]

theorem wupa : Statement .wupa := by
  simp [Statement, Fields, encode]

theorem anticoll (bits : BitVec 6) : Statement (.anticoll bits) := by
  have := bits.isLt
  simp only [Statement, Fields, encode_anticoll_toNat]
  omega

theorem xchg (fwt : BitVec 16) : Statement (.xchg fwt) := by
  have := fwt.isLt
  simp only [Statement, Fields, encode_xchg_toNat]
  omega

end Sys2Proof.Laws.EncodedFields
end

