-- ==== Sys2Proof/Tests/Slice0.lean ====
section
/-! SUPPORT. Tests with values from spec/ (30_encoding.md R121, R135; 95_test_vectors.md), and for every statement
with hypotheses a state and operands that meet them all. -/

namespace Sys2Proof.Tests

open Sys2Proof Sys2Proof.Machine

/-! ## Small states -/

/-- A state at p in which an exchange of the given opcode runs (or a session is open, or none, as p says), after
`sw TXW[0], 000A2093`, `settx 3`, `setrx 5` (95_test_vectors.md S1). -/
def inState (p : FsmState) (op : BitVec 4) : State :=
  { State.reset with
    pc := p
    session := p.inSession
    txlen := 3
    rxcap := 5
    txbuf := [(0, 0x93), (1, 0x20), (2, 0x0A)]
    req := { op := op, bits := 20, fwt := 10, txlen := 3, rxcap := 5 } }

/-- The state `inState` in step 10, with COUNT received bytes and the prefix split of `anticoll 20`. -/
def inExtract (op : BitVec 4) (sub : Nat) (count : BitVec 8) : State :=
  { inState .xExtract op with
    sub := sub
    rxcount := count.setWidth 16
    fifostat := { snap := { cntLo := count }, valid := true }
    work := { snap := { cntLo := count }, count := count.setWidth 16, full := 2, rem := 4 } }

/-- The next state of an outcome; the outcomes tested below are next states. -/
def nextOf (o : Outcome) : Option State :=
  match o with
  | .next t => some t
  | .fault _ => none
  | .refused _ => none

/-! ## Well-formedness: the one check, and a term it refuses (R125: BITS = 41 > 40) -/

theorem test_anticoll_41_is_ill_formed : Instr.wellFormed (.anticoll 41) = false := by decide

theorem test_anticoll_40_is_well_formed : Instr.wellFormed (.anticoll 40) = true := by decide

/-! ## Decoding: words written out bit by bit from R121, `FFFFFFFFFFFFFFFF 00 BBBBBB 0000 OOOO` -/

theorem test_decode_sstart : decode 0b00000000000000000000000000000001 = .instr .sstart := by decide

theorem test_decode_sstop : decode 0b00000000000000000000000000000010 = .instr .sstop := by decide

theorem test_decode_reqa : decode 0b00000000000000000000000000000100 = .instr .reqa := by decide

theorem test_decode_wupa : decode 0b00000000000000000000000000000101 = .instr .wupa := by decide

theorem test_decode_anticoll : decode 0b00000000000000000001010000000110 = .instr (.anticoll 20) := by decide

theorem test_decode_xchg : decode 0b00000000000010100000000000000111 = .instr (.xchg 10) := by decide

/-- The illegal words of 95_test_vectors.md 2.1. -/
theorem test_decode_illegal :
    ([0x00000000, 0x00000003, 0x00000008, 0x0000000F].map decode =
        List.replicate 4 (.illegal .reservedOpcode))
      ∧ ([0x00000011, 0x00010004, 0x00004006, 0x00010006, 0x00000017, 0x00000107].map decode =
        List.replicate 6 (.illegal .reservedBits))
      ∧ ([0x00002906, 0x00003F06].map decode = List.replicate 2 (.illegal .bitsOutOfRange)) := by decide

/-- What the host asks of the decoder and of the fetch: the word numbered as the opcode table numbers it. -/
theorem test_table_word :
    decodeTableWord 32 0x00001406 = some (.anticoll 20) ∧ decodeTableWord 32 0x00000003 = none
      ∧ (nextOf (step (State.reset.withFetchWord 32 0x00000001))).map State.pc = some .sMode := by decide

/-! ## Commands: single steps of 95_test_vectors.md 2.1-2.5 -/

/-- Row `00000001`, IDLE: accepted, pc S_MODE. -/
theorem test_sstart_accepted : (nextOf (exec .sstart State.reset)).map State.pc = some .sMode := by decide

/-- Row `sstart` timing: the step of S_GUARD with TMR = 6 completes with RESULT 00000100, STATUS 00000406. -/
theorem test_sstart_guard_end :
    (nextOf (deliver (.seq {}) { inState .sGuard 0x1 with tmr := 6 })).map
      (fun t => (t.result.word, t.statusWord)) = some (0x00000100, 0x00000406) := by decide

/-- Row `00000002`, IDLE with SESSION 0: rejected, CMDERR. -/
theorem test_sstop_rejected :
    exec .sstop State.reset = .next { State.reset with status := { cmderr := true } } := rfl

/-- Row `sstop` from READY, last step: RESULT 00000200, STATUS 00000004. -/
theorem test_sstop_end :
    (nextOf (deliver (.seq {}) { inState .tStop 0x2 with sub := 1 })).map
      (fun t => (t.result.word, t.statusWord)) = some (0x00000200, 0x00000004) := by decide

/-- Row FWT elapsed: an evaluation at TMR 6 with no RXS gives 00000441, STATUS 00000406 (S4). -/
theorem test_reqa_timeout :
    (nextOf (deliver (.seq {}) { inState .xRxswait 0x4 with tmr := 6 })).map
      (fun t => (t.result.word, t.statusWord)) = some (0x00000441, 0x00000406) := by decide

/-- Row "Crc" of the polls: {CRC, COL, RXE} gives 00000404. -/
theorem test_reqa_crc_beats_collision :
    (nextOf (deliver (.seq { irq := 0b1100100 }) (inState .xPoll 0x4))).map (fun t => t.result.word) =
      some 0x00000404 := by decide

/-- `wupa` dispatches TX_WUPA. -/
theorem test_wupa_dispatch :
    (nextOf (deliver (.seq {}) (inState .xDispatch 0x5))).map State.trace = some [.cmd .txWupa] := by decide

/-- WUPA, COUNT 2: the last step gives BITCOUNT 16, RESULT 00000500. -/
theorem test_wupa_end :
    (nextOf (deliver (.seq {}) { inExtract 0x5 2 2 with work := { n := 2 } })).map
      (fun t => (t.bitcount, t.result.word)) = some (16, 0x00000500) := by decide

/-- S1: with RXBUF[2] = 50 from the FIFO, the merge of `anticoll 20` leaves 5A. -/
theorem test_anticoll_merge :
    (nextOf (deliver (.seq {}) { inExtract 0x6 3 3 with rxbuf := [(2, 0x50)] })).map (fun t => t.rxByte 2) =
      some 0x5A := by decide

/-- S5: a collision at {CBYTE 2, CBIT 3} gives COLLPOS 80000203. -/
theorem test_anticoll_collision_position :
    (nextOf (deliver (.seq { collPos := { cbyte := 2, cbit := 3 } }) { inExtract 0x6 4 3 with cache := 0x47 })).map
      (fun t => t.collpos.word) = some 0x80000203 := by decide

/-- Row `XCHG`, COUNT 1: 00000707 (S2). -/
theorem test_xchg_too_short :
    (nextOf (deliver (.seq {}) (inExtract 0x7 0 1))).map (fun t => t.result.word) = some 0x00000707 := by decide

/-- Row XCHG FWT 10: an evaluation with TMR 10 and no RXS stays. -/
theorem test_xchg_waits :
    (nextOf (deliver (.seq {}) { inState .xRxswait 0x7 with tmr := 10 })).map State.pc = some .xRxswait := by decide

/-! ## Host bus: rows of 95_test_vectors.md 2.2 -/

/-- `sw TXW[0], 000A2093` stores [93, 20, 0A, 00]. -/
theorem test_word_write_little_endian :
    (nextOf (deliver (.host (.writeWord 0x1000 0x000A2093)) State.reset)).map (fun t => t.txPrefix 4) =
      some [0x93, 0x20, 0x0A, 0x00] := by decide

/-- `lw TXW[0]` after it answers 000A2093; a 4-byte read beyond the buffer answers 0. -/
theorem test_word_read :
    (inState .ready 0).readWordAt 0x1000 = 0x000A2093 ∧ (inState .ready 0).readWordAt 0x1040 = 0 := by decide

/-- HWCFG reads 00400040 with both sizes 64; STATUS of the busy state X_TXWAIT shows FSM 9. -/
theorem test_register_reads :
    State.reset.readWordAt 0x02C = 0x00400040 ∧ (inState .xTxwait 0x4).readWordAt 0x004 = 0x00000903 := by decide

/-- A 4-byte write of 00000004 at offset 001: bus error, BUSERR, not a command. -/
theorem test_misaligned_write :
    (nextOf (deliver (.host (.writeWord 0x001 0x00000004)) State.reset)).map State.status =
      some { buserr := true } := by decide

/-! ## A state and operands that meet the hypotheses of each statement -/

theorem witness_DecodeInvertsEncode : (Instr.anticoll 40).wellFormed = true := by decide

theorem witness_DecodedWordIsTheEncoding : decode 0xFFFF0007 = .instr (.xchg 65535) := by decide

theorem witness_StepDeliversNextEvent :
    State.inputs { State.reset with inputs := [.tick] } = .tick :: [] ∧ State.inputs State.reset = [] :=
  ⟨rfl, rfl⟩

theorem witness_StepRunsDecodedCommand :
    State.inputs { State.reset with inputs := [.host (.writeWord 0x000 0x00000001)] } =
        .host (.writeWord 0x000 0x00000001) :: [] ∧ decode 0x00000001 = .instr .sstart :=
  ⟨rfl, by decide⟩

theorem witness_StepRejectsIllegalWord :
    State.inputs { State.reset with inputs := [.host (.writeWord 0x000 0x00002906)] } =
        .host (.writeWord 0x000 0x00002906) :: [] ∧ decode 0x00002906 = .illegal .bitsOutOfRange :=
  ⟨rfl, by decide⟩

theorem witness_SstartAccepted : State.reset.busy = false ∧ State.reset.session = false := by decide

theorem witness_SstopAccepted :
    (inState .ready 0).busy = false ∧ (inState .ready 0).session = true := by decide

/-- RXCAP = RXBUF_SIZE is still accepted. -/
theorem witness_ReqaAndWupaAccepted :
    State.busy { inState .ready 0 with rxcap := 64 } = false
      ∧ State.session { inState .ready 0 with rxcap := 64 } = true
      ∧ (64 : BitVec 16).toNat ≤ (inState .ready 0).hw.rxbufSize := by decide

/-- `anticoll 40` with TXLEN 5, the least TXLEN it needs. -/
theorem witness_AnticollAccepted :
    State.busy { inState .ready 0 with txlen := 5 } = false
      ∧ State.session { inState .ready 0 with txlen := 5 } = true
      ∧ (inState .ready 0).rxcap.toNat ≤ (inState .ready 0).hw.rxbufSize ∧ (40 : BitVec 6).toNat ≤ 40
      ∧ ((40 : BitVec 6).toNat + 7) / 8 ≤ (5 : BitVec 16).toNat
      ∧ (5 : BitVec 16).toNat ≤ (inState .ready 0).hw.txbufSize := by
  refine ⟨by decide, by decide, by decide, by decide, by decide, by decide⟩

theorem witness_XchgAccepted :
    (inState .ready 0).busy = false ∧ (inState .ready 0).session = true
      ∧ (inState .ready 0).rxcap.toNat ≤ (inState .ready 0).hw.rxbufSize
      ∧ (inState .ready 0).txlen.toNat ≤ (inState .ready 0).hw.txbufSize := by decide

/-- One unmet precondition per command: SESSION 1; SESSION 0; BUSY; BUSY; TXLEN 2 for `anticoll 20`; TXLEN 65. -/
theorem witness_RejectionOnlySetsCmderr :
    ¬ preconditions (inState .ready 0) .sstart ∧ ¬ preconditions State.reset .sstop
      ∧ ¬ preconditions (inState .xPoll 0x4) .reqa ∧ ¬ preconditions (inState .xPoll 0x4) .wupa
      ∧ ¬ preconditions { inState .ready 0 with txlen := 2 } (.anticoll 20)
      ∧ ¬ preconditions { inState .ready 0 with txlen := 65 } (.xchg 10) := by
  simp [preconditions, inState, State.reset, State.busy, FsmState.busy, FsmState.inSession, FsmState.exchange,
    HwParams.default]

theorem witness_SessionOpensStepByStep :
    (inState .sMode 0x1).pc = .sMode
      ∧ ((inState .sField 0x1).pc = .sField ∧ (inState .sField 0x1).sub = 0)
      ∧ ChipAnswers.field {} = .ok ∧ ChipAnswers.field { field := .fieldCollision } = .fieldCollision
      ∧ (State.pc { inState .sField 0x1 with sub := 1 } = .sField
          ∧ State.sub { inState .sField 0x1 with sub := 1 } = 1)
      ∧ (State.pc { inState .sGuard 0x1 with tmr := 5 } = .sGuard ∧ (5 : BitVec 32).toNat < 6)
      ∧ (State.pc { inState .sGuard 0x1 with tmr := 6 } = .sGuard ∧ 6 ≤ (6 : BitVec 32).toNat) := by decide

theorem witness_SessionClosesStepByStep :
    (inState .tStop 0x2).pc = .tStop ∧ (inState .tStop 0x2).sub = 0
      ∧ State.pc { inState .tStop 0x2 with sub := 1 } = .tStop
      ∧ State.sub { inState .tStop 0x2 with sub := 1 } = 1 := by decide

theorem witness_PredelayHolds :
    (State.pc { inState .xPredelay 0x4 with tmr := 1 } = .xPredelay ∧ (1 : BitVec 32).toNat < 2)
      ∧ (State.pc { inState .xPredelay 0x4 with tmr := 2 } = .xPredelay ∧ 2 ≤ (2 : BitVec 32).toNat) := by decide

theorem witness_SstartRunOpensSession :
    State.reset.busy = false ∧ State.reset.session = false ∧ ChipAnswers.field { field := .ok } = .ok := by decide

theorem witness_SstartRunCollides :
    State.reset.busy = false ∧ State.reset.session = false
      ∧ ChipAnswers.field { field := .fieldCollision } = .fieldCollision := by decide

theorem witness_SstopRunClosesSession :
    (inState .ready 0).busy = false ∧ (inState .ready 0).session = true := by decide

theorem witness_ResetStepTransactions :
    ∀ n ∈ [0, 1, 2], State.pc { inState .xReset 0x4 with sub := n } = .xReset
      ∧ State.sub { inState .xReset 0x4 with sub := n } = n := by decide

/-- The hypotheses of ProgramTransactionsInOrder together, for a request and the list of its transactions. -/
def ProgramHypotheses (op : BitVec 4) (bits : BitVec 6) (len : BitVec 16) (txns : List ChipTxn) : Prop :=
  let s := { inState .xProgram op with req := { op := op, bits := bits, txlen := len } }
  s.pc = .xProgram ∧ s.sub = 0
    ∧ (s.req.op = 0x4 ∨ s.req.op = 0x5 →
        txns = [.write .raw 1, .write .antcl 0, .write .agcEn 1, .write .squelchEn 1])
    ∧ (s.req.op = 0x6 → txns = [.write .txNbits s.req.bits.toNat]
        ++ (if 0 < s.req.bits.toNat then
              [.fifoWrite ((List.range ((s.req.bits.toNat + 7) / 8)).map s.txByte)] else [])
        ++ [.write .raw 1, .write .antcl 1, .write .agcEn 0, .write .squelchEn 1])
    ∧ (s.req.op = 0x7 → txns = [.write .txNbits (8 * s.req.txlen.toNat)]
        ++ (if 0 < s.req.txlen.toNat then
              [.fifoWrite ((List.range s.req.txlen.toNat).map s.txByte)] else [])
        ++ [.write .raw 0, .write .antcl 0, .write .agcEn 1, .write .squelchEn 1])
    ∧ (s.req.op = 0x4 ∨ s.req.op = 0x5 ∨ s.req.op = 0x6 ∨ s.req.op = 0x7)
    ∧ (List.replicate txns.length ({} : ChipAnswers)).length = txns.length

/-! The rows of 95_test_vectors.md 2.4, with the transactions it lists. -/

theorem witness_ProgramTransactionsInOrder_reqa : ProgramHypotheses 0x4 0 0
    [.write .raw 1, .write .antcl 0, .write .agcEn 1, .write .squelchEn 1] := by
  refine ⟨rfl, rfl, ?_, ?_, ?_, ?_, rfl⟩ <;> decide

theorem witness_ProgramTransactionsInOrder_wupa : ProgramHypotheses 0x5 0 0
    [.write .raw 1, .write .antcl 0, .write .agcEn 1, .write .squelchEn 1] := by
  refine ⟨rfl, rfl, ?_, ?_, ?_, ?_, rfl⟩ <;> decide

theorem witness_ProgramTransactionsInOrder_anticoll : ProgramHypotheses 0x6 20 3
    [.write .txNbits 20, .fifoWrite [0x93, 0x20, 0x0A], .write .raw 1, .write .antcl 1, .write .agcEn 0,
      .write .squelchEn 1] := by
  refine ⟨rfl, rfl, ?_, ?_, ?_, ?_, rfl⟩ <;> decide

theorem witness_ProgramTransactionsInOrder_anticoll_empty : ProgramHypotheses 0x6 0 0
    [.write .txNbits 0, .write .raw 1, .write .antcl 1, .write .agcEn 0, .write .squelchEn 1] := by
  refine ⟨rfl, rfl, ?_, ?_, ?_, ?_, rfl⟩ <;> decide

theorem witness_ProgramTransactionsInOrder_xchg : ProgramHypotheses 0x7 0 2
    [.write .txNbits 16, .fifoWrite [0x93, 0x20], .write .raw 0, .write .antcl 0, .write .agcEn 1,
      .write .squelchEn 1] := by
  refine ⟨rfl, rfl, ?_, ?_, ?_, ?_, rfl⟩ <;> decide

theorem witness_ProgramTransactionsInOrder_xchg_empty : ProgramHypotheses 0x7 0 0
    [.write .txNbits 0, .write .raw 0, .write .antcl 0, .write .agcEn 1, .write .squelchEn 1] := by
  refine ⟨rfl, rfl, ?_, ?_, ?_, ?_, rfl⟩ <;> decide

theorem witness_DispatchIssuesTransmitCommand :
    ∀ p ∈ [((0x4 : BitVec 4), ChipCmd.txReqa), (0x5, .txWupa), (0x6, .txNoCrc), (0x7, .txCrc)],
      (inState .xDispatch p.1).pc = .xDispatch
        ∧ ((inState .xDispatch p.1).req.op = 0x4 ∧ p.2 = .txReqa ∨ (inState .xDispatch p.1).req.op = 0x5 ∧ p.2 = .txWupa
          ∨ (inState .xDispatch p.1).req.op = 0x6 ∧ p.2 = .txNoCrc
          ∨ (inState .xDispatch p.1).req.op = 0x7 ∧ p.2 = .txCrc) := by decide

theorem witness_TxwaitEvaluation : (inState .xTxwait 0x4).pc = .xTxwait := by decide

/-- XCHG with FWT 10, and REQA with the fixed 5 ms. -/
theorem witness_RxswaitEvaluation :
    ∀ p ∈ [((0x7 : BitVec 4), 10), (0x4, 5)],
      (inState .xRxswait p.1).pc = .xRxswait
        ∧ p.2 = (if (inState .xRxswait p.1).req.op = 0x7 then (inState .xRxswait p.1).req.fwt.toNat else 5) := by decide

/-- The refreshed state and the failed states are what the hypotheses name. -/
theorem witness_PollChecksInPriorityOrder :
    ∃ (r : State) (fail : BitVec 4 → Bool → Bool → State),
      (inState .xPoll 0x4).pc = .xPoll ∧ (inState .xPoll 0x4).sub = 0
      ∧ r = { inState .xPoll 0x4 with trace := [] ++ [.irqRefresh 4], cache := 0 ||| 4 }
      ∧ ∀ code kind src, fail code kind src = { r with
          result := { err := code, kind := kind, tosrc := src, op := 0x4 }, bitcount := 0
          status := { (inState .xPoll 0x4).status with done := true }, pc := .ready, sub := 0 } :=
  ⟨_, _, rfl, rfl, rfl, fun _ _ _ => rfl⟩

theorem witness_YieldHasNoEffect :
    State.pc { inState .xPoll 0x4 with sub := 1 } = .xPoll
      ∧ State.sub { inState .xPoll 0x4 with sub := 1 } = 1 := by decide

theorem witness_PostchkReadsAndChecksOnce :
    ∃ (f : FifoStatus) (r : State) (fail : BitVec 4 → State),
      (inState .xPostchk 0x4).pc = .xPostchk ∧ (inState .xPostchk 0x4).hw.cntHiBits ≤ 8
      ∧ f = { cntLo := 4, cntHi := BitVec.ofNat 8 ((1 : BitVec 8).toNat % 2 ^ 8), ovr := true }
      ∧ r = { inState .xPostchk 0x4 with
          trace := [] ++ [.readFifoStatus f], work := { snap := f }, fifostat := { snap := f, valid := true } }
      ∧ ∀ code, fail code = { r with
          result := { err := code, op := 0x4 }, bitcount := 0
          status := { (inState .xPostchk 0x4).status with done := true }, pc := .ready, sub := 0 } :=
  ⟨_, _, _, rfl, by decide, rfl, rfl, fun _ => rfl⟩

theorem witness_CountComposedFromSnapshot : (inState .xCount 0x4).pc = .xCount := by decide

/-- Each clause at its boundary: XCHG with COUNT 1 (too short); REQA with COUNT 6 > 5 and XCHG with N = 6 > 5 (too
long); REQA with COUNT 5 and XCHG with N = 5 (fit). -/
theorem witness_PlainExtractionChecksFirst :
    ∀ p ∈ [((0x7 : BitVec 4), (1 : BitVec 8), 0), (0x4, 6, 6), (0x7, 8, 6), (0x4, 5, 5), (0x7, 7, 5)],
      let s := inExtract p.1 0 p.2.1
      s.pc = .xExtract ∧ s.sub = 0 ∧ (s.req.op = 0x4 ∨ s.req.op = 0x5 ∨ s.req.op = 0x7)
        ∧ p.2.2 = (if s.req.op = 0x7 then s.work.count.toNat - 2 else s.work.count.toNat) := by decide

theorem witness_PlainExtractionChecksFirst_clauses :
    (inExtract 0x7 0 1).work.count.toNat < 2
      ∧ (¬ ((inExtract 0x4 0 6).req.op = 0x7 ∧ (inExtract 0x4 0 6).work.count.toNat < 2)
          ∧ (inExtract 0x4 0 6).req.rxcap.toNat < 6)
      ∧ (¬ ((inExtract 0x7 0 7).req.op = 0x7 ∧ (inExtract 0x7 0 7).work.count.toNat < 2)
          ∧ 5 ≤ (inExtract 0x7 0 7).req.rxcap.toNat) := by decide

/-- `anticoll 20` with COUNT 4 (need 6 > 5) and with COUNT 3 (need 5). -/
theorem witness_AnticollExtractionChecksFirst :
    ∀ p ∈ [((4 : BitVec 8), 6), (3, 5)],
      let s := inExtract 0x6 0 p.1
      s.pc = .xExtract ∧ s.sub = 0 ∧ s.req.op = 0x6
        ∧ p.2 = s.req.bits.toNat / 8 + max s.work.count.toNat (if s.req.bits.toNat % 8 ≠ 0 then 1 else 0)
        ∧ (s.req.rxcap.toNat < p.2 ∨ p.2 ≤ s.req.rxcap.toNat) := by decide

theorem witness_AnticollExtractionChecksFirst_clauses :
    (inExtract 0x6 0 4).req.rxcap.toNat < 6 ∧ 5 ≤ (inExtract 0x6 0 3).req.rxcap.toNat := by decide

theorem witness_PartialByteMergeKeepsLowBits :
    (inExtract 0x6 3 3).pc = .xExtract ∧ (inExtract 0x6 3 3).sub = 3 ∧ (inExtract 0x6 3 3).req.op = 0x6
      ∧ (inExtract 0x6 3 3).work.full.toNat < (inExtract 0x6 3 3).hw.rxbufSize := by decide

/-- The chip's answers of 95_test_vectors.md P1, P5 and S5. -/
def script (last : IrqFlags) (count : BitVec 8) : ChipScript :=
  { txEnd := 1, rxStart := 2, rxEnd := last, status := { cntLo := count }, fifo := [0x44, 0x00] }

theorem witness_ReqaAndWupaExchange :
    preconditions (inState .ready 0) .reqa ∧ preconditions (inState .ready 0) .wupa
      ∧ (script 4 2).endsWaits ∧ (script 4 2).flags.col = false ∧ (script 4 2).clean
      ∧ ((script 4 2).status.narrow HwParams.default).count.toNat ≤ (inState .ready 0).rxcap.toNat := by
  refine ⟨?_, ?_, by decide, by decide, by decide, by decide⟩ <;> simp only [preconditions] <;> decide

theorem witness_XchgExchange :
    preconditions (inState .ready 0) (.xchg 10)
      ∧ (script 4 7).endsWaits ∧ (script 4 7).flags.col = false ∧ (script 4 7).clean
      ∧ ((script 4 7).status.narrow HwParams.default).count.toNat = 5 + 2
      ∧ 5 ≤ (inState .ready 0).rxcap.toNat := by
  refine ⟨?_, by decide, by decide, by decide, by decide, by decide⟩; simp only [preconditions]; decide

/-- With and without a collision, at the capacity's boundary (need = 5 = RXCAP). -/
theorem witness_AnticollExchange :
    HwParams.default.ok ∧ preconditions (inState .ready 0) (.anticoll 20)
      ∧ ∀ last ∈ [(4 : IrqFlags), 0x44], (script last 3).endsWaits ∧ (script last 3).clean
        ∧ (20 : BitVec 6).toNat / 8
            + max ((script last 3).status.narrow HwParams.default).count.toNat
                (if (20 : BitVec 6).toNat % 8 ≠ 0 then 1 else 0) ≤ (inState .ready 0).rxcap.toNat := by
  refine ⟨by decide, ?_, by decide⟩; simp only [preconditions]; decide

theorem ready_legal : State.Legal (inState .ready 0) :=
  ⟨by decide, by decide, by decide, by decide, by decide, by decide, by decide, by decide, by decide⟩

theorem txwait_legal : State.Legal { inState .xTxwait 0x4 with inputs := [.seq {}] } :=
  ⟨by decide, by decide, by decide, by decide, by decide, by decide, by decide, by decide, by decide⟩

theorem field_legal : State.Legal { inState .sField 0x1 with inputs := [.seq {}] } :=
  ⟨by decide, by decide, by decide, by decide, by decide, by decide, by decide, by decide, by decide⟩

theorem merge_legal : State.Legal (inExtract 0x6 3 3) :=
  ⟨by decide, by decide, by decide, by decide, by decide, by decide, by decide, by decide, by decide⟩

theorem short_legal : State.Legal (inExtract 0x7 0 1) :=
  ⟨by decide, by decide, by decide, by decide, by decide, by decide, by decide, by decide, by decide⟩

/-- XCHG with one received byte ends with ResponseTooShort. -/
theorem witness_ErrorLeavesRxbufUnchanged :
    State.Legal (inExtract 0x7 0 1) ∧ (inExtract 0x7 0 1).pc.exchange = true
      ∧ ¬ ((inExtract 0x7 0 1).pc = .xExtract ∧ 1 ≤ (inExtract 0x7 0 1).sub)
      ∧ (∀ e ∈ [Event.seq {}, .tick], e.passive = true)
      ∧ ∃ t, runEvents [.seq {}, .tick] (inExtract 0x7 0 1) = .next t ∧ t.result.err ≠ 0 :=
  ⟨short_legal, by decide, by decide, by decide, _, rfl, by decide⟩

theorem witness_TxwaitHangsWithoutTxe :
    (inState .xTxwait 0x4).pc = .xTxwait ∧ (inState .xTxwait 0x4).cache[0] = false
      ∧ ∀ e ∈ [Event.seq { irq := 0x7E }, .tick, .host (.writeWord 0x000 0x00000002)],
          e.notReset = true ∧ ∀ a, e = .seq a → a.irq[0] = false := by
  refine ⟨rfl, rfl, ?_⟩
  simp [Event.notReset]

/-- The transmit command, a refresh that reports TXE, and then only ticks. -/
def txEndTimeline : Timeline := fun n =>
  (1000 * n, match n with
    | 0 => .seq {}
    | 1 => .seq { irq := 1 }
    | _ => .tick)

theorem txEndTimeline_env1 : Env1 (inState .xDispatch 0x4) txEndTimeline := by
  intro n c h _
  match n with
  | 0 => exact ⟨1, by decide, .inr ⟨1, rfl, _, _, rfl, rfl, rfl⟩⟩
  | 1 =>
    obtain ⟨t, u, ht, hu, h⟩ := h
    cases ht
    cases hu
    cases h
  | n + 2 =>
    obtain ⟨t, u, ht, hu, h⟩ := h
    rw [Timeline.run_succ ht] at hu
    cases hu
    have := congrArg List.length h
    simp [State.tick] at this

/-- From X_TXWAIT; and from the dispatch of a transmit command, under ENV1. -/
theorem witness_TxwaitEndsUnderEnv1 :
    ((inState .xTxwait 0x4).pc = .xTxwait ∧ (∀ e ∈ [Event.tick, .seq { irq := 1 }], e.notReset = true)
        ∧ Event.seq { irq := 1 } ∈ [Event.tick, .seq { irq := 1 }] ∧ (1 : IrqFlags)[0] = true)
      ∧ (∀ k, (txEndTimeline k).2.notReset = true) ∧ Env1 (inState .xDispatch 0x4) txEndTimeline
      ∧ txEndTimeline.performs (inState .xDispatch 0x4) 0 (.cmd .txReqa) ∧ ChipCmd.transmits .txReqa = true := by
  refine ⟨⟨rfl, by decide, by simp, rfl⟩, fun k => ?_, txEndTimeline_env1, ⟨_, _, rfl, rfl, rfl⟩, rfl⟩
  match k with
  | 0 => rfl
  | 1 => rfl
  | _ + 2 => rfl

/-! ## The environment obligations can be met -/

/-- One edge per millisecond and nothing else. -/
theorem env2_met : Env2 HwParams.default fun n => (1000 * n, .tick) := by
  refine ⟨fun n => ?_, fun a => ⟨(a + 999) / 1000, ⟨rfl, ?_, ?_⟩, ?_⟩⟩
  · show 1000 * n ≤ 1000 * (n + 1)
    omega
  · show a ≤ 1000 * ((a + 999) / 1000)
    omega
  · show 1000 * ((a + 999) / 1000) < a + 1000
    omega
  · rintro n ⟨-, h1, h2⟩
    have h1 : a ≤ 1000 * n := h1
    have h2 : 1000 * n < a + 1000 := h2
    show n = (a + 999) / 1000
    omega

/-- What a chip that receives nothing answers: no byte in its FIFO, none read from it. -/
def silentAnswer : ChipTxn → Prop
  | .readFifoStatus f => f.count = 0
  | .fifoRead _ bs => bs = []
  | _ => True

/-- A chip that receives nothing. -/
def silentChip : Chip where
  St := Unit
  acts _ _ := False
  answers _ x _ := silentAnswer x
  rxFifo _ := []

theorem silentChip_runs (xs : List ChipTxn) (c : Unit) :
    (∃ d, silentChip.runs c xs d) ↔ ∀ x ∈ xs, silentAnswer x := by
  induction xs with
  | nil => exact ⟨fun _ _ h => (nomatch h), fun _ => ⟨c, Relation.ReflTransGen.refl⟩⟩
  | cons x xs ih =>
    rw [List.forall_mem_cons, ← ih]
    constructor
    · rintro ⟨d, _, b, -, hx, hr⟩
      exact ⟨hx, d, hr⟩
    · rintro ⟨hx, d, hr⟩
      exact ⟨d, c, c, Relation.ReflTransGen.refl, hx, hr⟩

theorem chip_obligations_met : silentChip.Env3 ∧ silentChip.Env4 ∧ silentChip.Env5 HwParams.default := by
  refine ⟨fun _ _ _ => rfl, ⟨?_, ?_⟩, ?_, ?_⟩
  · intro c x _
    cases x with
    | readFifoStatus f => exact ⟨.readFifoStatus {}, c, trivial, rfl⟩
    | readCollPos p => exact ⟨.readCollPos p, c, trivial, trivial⟩
    | fifoRead n bs => exact ⟨.fifoRead n [], c, rfl, rfl⟩
    | irqRefresh l => exact ⟨.irqRefresh l, c, trivial, trivial⟩
    | fieldOn a => exact ⟨.fieldOn a, c, trivial, trivial⟩
    | cmd a => exact ⟨.cmd a, c, rfl, trivial⟩
    | write a n => exact ⟨.write a n, c, rfl, trivial⟩
    | fifoWrite bs => exact ⟨.fifoWrite bs, c, rfl, trivial⟩
    | irqClearAll => exact ⟨.irqClearAll, c, rfl, trivial⟩
    | modeOn => exact ⟨.modeOn, c, rfl, trivial⟩
    | modeOff => exact ⟨.modeOff, c, rfl, trivial⟩
    | fieldOff => exact ⟨.fieldOff, c, rfl, trivial⟩
  · intro s v ys zs c hp
    have : ∀ x, x ∈ ys ++ zs ↔ x ∈ programTxns s v ++ zs := by
      intro x
      simp only [List.mem_append, hp.mem_iff]
    have hs : (∀ x ∈ programTxns s v ++ zs, silentAnswer x) ↔ ∀ x ∈ ys ++ zs, silentAnswer x := by
      simp only [this]
    exact (silentChip_runs _ c).trans (hs.trans (silentChip_runs _ c).symm)
  · intro c f d h
    have hf : f.count = 0 := h
    rw [hf]
    exact ⟨Nat.zero_le _, rfl, rfl⟩
  · intro c n bs d h _
    have hb : bs = [] := h
    exact ⟨hb.trans List.take_nil.symm, List.drop_nil.symm⟩

theorem witness_HostReadsHaveNoSideEffect :
    (0x3FFC : BitVec 14).toNat % 4 = 0 ∧ 0x1000 ≤ (0x1000 : BitVec 14).toNat := by decide

theorem witness_BusErrorsOnlySetBuserr :
    ∃ t : State, t = { State.reset with
        responses := State.reset.responses ++ [.busError], status := { State.reset.status with buserr := true } }
      ∧ (0x1002 : BitVec 14).toNat % 4 ≠ 0 ∧ (0xFFF : BitVec 14).toNat < 0x1000 :=
  ⟨_, rfl, by decide, by decide⟩

/-- Each register's offset, a reserved one, and both ends of the space above the windows. -/
theorem witness_RegisterReadsShowTheFields :
    HwParams.default.ok
      ∧ (∀ off ∈ [(0x000 : BitVec 14), 0x004, 0x008, 0x00C, 0x010, 0x014, 0x018, 0x01C, 0x020, 0x024, 0x028, 0x02C,
          0x030, 0xFFC, 0x3000, 0x3FFC], off.toNat % 4 = 0)
      ∧ 0x3000 ≤ (0x3000 : BitVec 14).toNat ∧ 0x3000 ≤ (0x3FFF : BitVec 14).toNat :=
  ⟨by decide, by simp, by decide, by decide⟩

theorem witness_RegisterWritesStoreTheField :
    ∃ r : State, r = { inState .ready 0 with responses := (inState .ready 0).responses ++ [.done] }
      ∧ (inState .ready 0).busy = false
      ∧ (0x01C ≤ (0x01C : BitVec 14).toNat ∧ (0x01C : BitVec 14).toNat < 0x1000)
      ∧ (0x3000 ≤ (0x3000 : BitVec 14).toNat ∧ (0x3000 : BitVec 14).toNat % 4 = 0)
      ∧ 0x3000 ≤ (0x3FFF : BitVec 14).toNat :=
  ⟨_, rfl, rfl, by decide, by decide, by decide⟩

theorem witness_BusyWritesAreDropped :
    ∃ t : State, (inState .xPredelay 0x6).busy = true
      ∧ t = { inState .xPredelay 0x6 with
          responses := (inState .xPredelay 0x6).responses ++ [.done]
          status := { (inState .xPredelay 0x6).status with accerr := true } }
      ∧ (0x1000 ≤ (0x1000 : BitVec 14).toNat ∧ (0x1000 : BitVec 14).toNat < 0x3000)
      ∧ (0x1000 ≤ (0x2FFC : BitVec 14).toNat ∧ (0x2FFC : BitVec 14).toNat < 0x3000
          ∧ (0x2FFC : BitVec 14).toNat % 4 = 0)
      ∧ ((0x010 : BitVec 14).toNat % 4 = 0 ∧ (0x014 : BitVec 14).toNat % 4 = 0) :=
  ⟨_, rfl, rfl, by decide, by decide, by decide⟩

/-- In each window the last word inside a buffer of 64 bytes, and a word beyond it. -/
theorem witness_WindowWordIsLittleEndian :
    (inState .ready 0).busy = false ∧ 60 < 0x1000 ∧ 60 % 4 = 0 ∧ 64 < 0x1000 ∧ 64 % 4 = 0
      ∧ ((0x103C : BitVec 14).toNat = 0x1000 + 60 ∧ 60 + 4 ≤ (inState .ready 0).hw.txbufSize)
      ∧ ((0x203C : BitVec 14).toNat = 0x2000 + 60 ∧ 60 + 4 ≤ (inState .ready 0).hw.rxbufSize)
      ∧ (0x1040 : BitVec 14).toNat = 0x1000 + 64 ∧ (0x2040 : BitVec 14).toNat = 0x2000 + 64 := by decide

/-- In each window the last byte inside a buffer of 64 bytes, and the first beyond it. -/
theorem witness_WindowByteMovesOneByte :
    (inState .ready 0).busy = false ∧ 63 < 0x1000 ∧ 64 < 0x1000
      ∧ (0x103F : BitVec 14).toNat = 0x1000 + 63 ∧ (0x1040 : BitVec 14).toNat = 0x1000 + 64
      ∧ (0x203F : BitVec 14).toNat = 0x2000 + 63 ∧ (0x2040 : BitVec 14).toNat = 0x2000 + 64 := by decide

theorem witness_HostCannotTouchRunningCommand : (inState .xTxwait 0x4).busy = true := by decide

/-- A rejected SSTOP, a dropped write and a refresh during X_TXWAIT. -/
theorem witness_RunningCommandIgnoresHost :
    (∀ e ∈ [Event.host (.writeWord 0x000 0x00000002), .seq { irq := 1 }], e.notReset = true)
      ∧ (∀ (k : Nat) (u : State), k < 2 →
          runEvents ([Event.host (.writeWord 0x000 0x00000002), .seq { irq := 1 }].take k) (inState .xTxwait 0x4)
            = .next u → u.busy = true)
      ∧ ∃ t, runEvents [.host (.writeWord 0x000 0x00000002), .seq { irq := 1 }] (inState .xTxwait 0x4) = .next t := by
  refine ⟨by decide, ?_, _, rfl⟩
  intro k u hk h
  obtain rfl | rfl : k = 0 ∨ k = 1 := by omega
  · cases h; rfl
  · cases h; rfl

theorem witness_StepKeepsLegal :
    State.Legal { inState .xTxwait 0x4 with inputs := [.seq {}] }
      ∧ ∃ t, step { inState .xTxwait 0x4 with inputs := [.seq {}] } = .next t :=
  ⟨txwait_legal, _, rfl⟩

theorem witness_LegalStepNeverStops : State.Legal (inState .ready 0) := ready_legal

/-- A move by a turn of SEQ and a move by an accepted CMD write; and an idle state for the second clause. -/
theorem witness_PcMovesOnlyAlongTheRules :
    (State.Legal (inExtract 0x7 0 1) ∧ Event.notReset (.seq {}) = true
        ∧ ∃ t, deliver (.seq {}) (inExtract 0x7 0 1) = .next t ∧ t.pc = .ready)
      ∧ (State.Legal (inState .ready 0) ∧ Event.notReset (.host (.writeWord 0x000 0x00000002)) = true
        ∧ ∃ t, deliver (.host (.writeWord 0x000 0x00000002)) (inState .ready 0) = .next t ∧ t.pc = .tStop)
      ∧ State.reset.busy = false :=
  ⟨⟨short_legal, rfl, _, rfl, rfl⟩, ⟨ready_legal, rfl, _, rfl, rfl⟩, rfl⟩

theorem witness_OneTransactionPerSeqTurn : ∃ t, deliver (.seq {}) (inState .xTxwait 0x4) = .next t := ⟨_, rfl⟩

theorem witness_SeqWritesStayBelowCapacity :
    State.Legal (inExtract 0x6 3 3) ∧ ∃ t, deliver (.seq {}) (inExtract 0x6 3 3) = .next t ∧ t.rxByte 2 ≠ 0 :=
  ⟨merge_legal, _, rfl, by decide⟩

/-- XCHG with one received byte completes with ResponseTooShort. -/
theorem witness_DoneRisesOnlyAtCompletion :
    State.Legal (inExtract 0x7 0 1)
      ∧ ∃ t, deliver (.seq {}) (inExtract 0x7 0 1) = .next t
        ∧ (inExtract 0x7 0 1).status.done = false ∧ t.status.done = true :=
  ⟨short_legal, _, rfl, rfl, rfl⟩

theorem witness_SessionChangesOnlyInSessionCommands :
    Event.notReset (.seq {}) = true
      ∧ ∃ t, deliver (.seq {}) { inState .sGuard 0x1 with tmr := 6 } = .next t
        ∧ t.session ≠ State.session { inState .sGuard 0x1 with tmr := 6 } :=
  ⟨rfl, _, rfl, by decide⟩

theorem witness_StepKeepsReleaseLedger :
    State.Legal { inState .sField 0x1 with inputs := [.seq {}] }
      ∧ State.ReleaseLedger { inState .sField 0x1 with inputs := [.seq {}] }
      ∧ ∃ t, step { inState .sField 0x1 with inputs := [.seq {}] } = .next t ∧ t.releaseDue :=
  ⟨field_legal, by decide, _, rfl, by decide⟩

/-- The field comes up in S_FIELD; and a reset in a session, on a platform that resets the chip too. -/
theorem witness_StepKeepsReleaseLedger_field :
    (State.Legal { inState .sField 0x1 with inputs := [.seq {}] }
        ∧ State.FieldAsDue { inState .sField 0x1 with inputs := [.seq {}] } false
        ∧ ∃ t, deliver (.seq {}) { inState .sField 0x1 with inputs := [.seq {}] } = .next t
          ∧ FieldMay (.seq {}) { inState .sField 0x1 with inputs := [.seq {}] } t false true
          ∧ PlatformResetsChip (.seq {}) true)
      ∧ (State.Legal (inState .ready 0) ∧ State.FieldAsDue (inState .ready 0) true
        ∧ ∃ t, deliver (.rst [] []) (inState .ready 0) = .next t
          ∧ FieldMay (.rst [] []) (inState .ready 0) t true false ∧ PlatformResetsChip (.rst [] []) false) :=
  ⟨⟨field_legal, by decide, _, rfl, fun _ => rfl, by simp [Event.notReset]⟩,
    ready_legal, by decide, _, rfl, by simp [Event.notReset], fun _ => rfl⟩

theorem witness_ParametersNeverChange :
    ∃ t, step { inState .ready 0 with inputs := [.rst [] []] } = .next t := ⟨_, rfl⟩

/-- For the statements that split on the timed states: one of each kind. -/
theorem witness_TickCountsInTimedStates :
    (inState .xPoll 0x4).pc = .xPoll
      ∧ ¬ ((inState .ready 0).pc = .sGuard ∨ (inState .ready 0).pc = .xPredelay ∨ (inState .ready 0).pc = .xRxswait
        ∨ (inState .ready 0).pc = .xPoll) := by decide

theorem witness_ResetPutsEveryRegister :
    0 < (inState .ready 0).hw.txbufSize ∧ 63 < (inState .ready 0).hw.rxbufSize := by decide

end Sys2Proof.Tests
end

section
/-! SUPPORT. Accesses that the bus refuses: the bus-error response of 20_memory.md R85. -/

namespace Sys2Proof.Machine

/-! ## Which accesses the bus refuses -/

@[simp] theorem HostAccess.refusedByBus_readWord (off : BitVec 14) :
    (HostAccess.readWord off).refusedByBus = true ↔ off.toNat % 4 ≠ 0 :=
  decide_eq_true_iff

@[simp] theorem HostAccess.refusedByBus_writeWord (off : BitVec 14) (w : Word) :
    (HostAccess.writeWord off w).refusedByBus = true ↔ off.toNat % 4 ≠ 0 :=
  decide_eq_true_iff

@[simp] theorem HostAccess.refusedByBus_readByte (off : BitVec 14) :
    (HostAccess.readByte off).refusedByBus = true ↔ off.toNat < 0x1000 :=
  decide_eq_true_iff

@[simp] theorem HostAccess.refusedByBus_writeByte (off : BitVec 14) (b : Byte) :
    (HostAccess.writeByte off b).refusedByBus = true ↔ off.toNat < 0x1000 :=
  decide_eq_true_iff

/-! ## What a refused access does -/

/-- The refusal comes before any look at the offset or the word, so CMD is no exception. -/
theorem hostStep_of_refusedByBus (a : HostAccess) (s : State) (h : a.refusedByBus = true) :
    hostStep a s = .next s.busFault :=
  if_pos h

/-- Settles O39: each of the four accesses is one the bus refuses, and the bus fault is the state asked for. -/
theorem busErrorsOnlySetBuserr : Obligations.BusErrorsOnlySetBuserr := by
  rintro s t off b w rfl
  have refused : ∀ a : HostAccess, a.refusedByBus = true → deliver (.host a) s = .next s.busFault :=
    fun a h => hostStep_of_refusedByBus a s h
  refine ⟨fun misaligned => ⟨?_, ?_⟩, fun inRegisters => ⟨?_, ?_⟩⟩
  · exact refused _ ((HostAccess.refusedByBus_readWord off).mpr misaligned)
  · exact refused _ ((HostAccess.refusedByBus_writeWord off w).mpr misaligned)
  · exact refused _ ((HostAccess.refusedByBus_readByte off).mpr inRegisters)
  · exact refused _ ((HostAccess.refusedByBus_writeByte off b).mpr inRegisters)

end Sys2Proof.Machine
end

section
/-! SUPPORT. The steps of the session commands, one equation per position of `pc` and `sub` (40_session.md R151-R156),
and the acceptance of a command word that is written to CMD (30_encoding.md R127, R130). -/

namespace Sys2Proof.Machine

/-! ## A command word written to CMD -/

/-- A word that decodes is executed once the bus has answered its write (R120, R127). -/
theorem deliver_commandEvent (s : State) {w : Word} {i : Instr} (hd : decode w = .instr i) :
    deliver (commandEvent w) s = exec i (s.respond .done) := by
  have issued : deliver (commandEvent w) s = issueCommand w (s.respond .done) := rfl
  rw [issued, issueCommand, hd]

theorem preconditions_respond (r : HostResponse) (s : State) (i : Instr) :
    preconditions (s.respond r) i ↔ preconditions s i := by
  cases i <;> exact Iff.rfl

theorem exec_of_preconditions {s : State} {i : Instr} (hp : preconditions s i) :
    exec i s = .next (acceptedState s i) := by
  obtain ⟨-, accepted⟩ | ⟨unmet, -⟩ := exec_cases i s
  · exact accepted
  · exact absurd hp unmet

/-- The write of a command word whose preconditions hold is accepted (R130). -/
theorem deliver_commandEvent_accepted {s : State} {w : Word} {i : Instr} (hd : decode w = .instr i)
    (hp : preconditions s i) : deliver (commandEvent w) s = .next (acceptedState (s.respond .done) i) := by
  rw [deliver_commandEvent s hd, exec_of_preconditions ((preconditions_respond .done s i).mpr hp)]

theorem preconditions_inputs (es : List Event) (s : State) (i : Instr) :
    preconditions { s with inputs := es } i ↔ preconditions s i := by
  cases i <;> exact Iff.rfl

/-- A run that begins with an accepted command goes on from the state its acceptance leaves. -/
theorem runEvents_accepted {s : State} {w : Word} {i : Instr} (es : List Event) (hd : decode w = .instr i)
    (hp : preconditions s i) :
    runEvents (commandEvent w :: es) s =
      runEvents es (acceptedState (State.respond .done { s with inputs := es }) i) :=
  runEvents_cons_next _ _ _ _ (deliver_commandEvent_accepted hd ((preconditions_inputs es s i).mpr hp))

/-! ## Turns of SEQ in the states of a session command -/

/-- The second position of a state, as the obligations write it. -/
theorem State.nextSub_of_sub_zero {s : State} (hs : s.sub = 0) : s.nextSub = { s with sub := 1 } := by
  simp only [State.nextSub, hs, Nat.zero_add]

section

variable {s : State} (a : ChipAnswers)

/-- S_MODE (R151). -/
theorem deliver_modeOn (h : s.pc = .sMode) :
    deliver (.seq a) s = .next ((s.perform .modeOn).enter .sField) := by
  simp only [deliver, seqStep, h, seqMode]

theorem deliver_seq_sField (h : s.pc = .sField) : deliver (.seq a) s = seqField a s := by
  simp only [deliver, seqStep, h]

/-- S_FIELD with a field that comes up (R152). -/
theorem deliver_fieldOn (h : s.pc = .sField) (hs : s.sub = 0) (ha : a.field = .ok) :
    deliver (.seq a) s = .next ((s.perform (.fieldOn .ok)).enter .sGuard) := by
  simp only [deliver_seq_sField a h, seqField, hs, ha]

/-- S_FIELD with a collision (R152). -/
theorem deliver_fieldCollision (h : s.pc = .sField) (hs : s.sub = 0) (ha : a.field = .fieldCollision) :
    deliver (.seq a) s = .next (s.perform (.fieldOn .fieldCollision)).nextSub := by
  simp only [deliver_seq_sField a h, seqField, hs, ha]

/-- After a collision the mode is reverted and SSTART fails (R152). -/
theorem deliver_startFails (h : s.pc = .sField) (hs : s.sub = 1) :
    deliver (.seq a) s =
      .next ((s.perform .modeOff).finish { serr := serrFieldCollision, op := opSstart } 0 .idle) := by
  simp only [deliver_seq_sField a h, seqField, hs]

theorem deliver_seq_sGuard (h : s.pc = .sGuard) : deliver (.seq a) s = seqGuard s := by
  simp only [deliver, seqStep, h]

/-- S_GUARD before the guard time is over (R153). -/
theorem deliver_guardHolds (h : s.pc = .sGuard) (ht : ¬ s.elapsed Config.tGuardMs) :
    deliver (.seq a) s = .next s :=
  (deliver_seq_sGuard a h).trans (if_neg ht)

/-- S_GUARD once the guard time is over (R153). -/
theorem deliver_startEnds (h : s.pc = .sGuard) (ht : s.elapsed Config.tGuardMs) :
    deliver (.seq a) s = .next ((s.setSession true).finish { op := opSstart } 0 .ready) :=
  (deliver_seq_sGuard a h).trans (if_pos ht)

theorem deliver_seq_tStop (h : s.pc = .tStop) : deliver (.seq a) s = seqStop s := by
  simp only [deliver, seqStep, h]

/-- T_STOP's first transaction (R155). -/
theorem deliver_fieldOff (h : s.pc = .tStop) (hs : s.sub = 0) :
    deliver (.seq a) s = .next (s.perform .fieldOff).nextSub := by
  simp only [deliver_seq_tStop a h, seqStop, hs]

/-- T_STOP's second transaction, in the step that closes the session (R156). -/
theorem deliver_stopEnds (h : s.pc = .tStop) (hs : s.sub = 1) :
    deliver (.seq a) s =
      .next (((s.perform .modeOff).setSession false).finish { op := opSstop } 0 .idle) := by
  simp only [deliver_seq_tStop a h, seqStop, hs]

end

/-! ## Runs of SSTART -/

/-- From any state that accepts SSTART, its write and one turn of SEQ lead to S_FIELD (R150, R151). -/
theorem runEvents_sstart {s : State} (a : ChipAnswers) (es : List Event) (hp : preconditions s .sstart) :
    runEvents (commandEvent (encode .sstart) :: .seq a :: es) s =
      runEvents es
        (((acceptedState (State.respond .done { s with inputs := es }) .sstart).perform .modeOn).enter .sField) := by
  have decoded : decode (encode .sstart) = .instr .sstart := by decide
  exact Eq.trans (runEvents_accepted _ decoded hp) (runEvents_cons_next _ _ _ _ (deliver_modeOn a rfl))

/-- From S_FIELD, a collision and the turn after it end SSTART in IDLE (R152). -/
theorem runEvents_fieldCollision {s : State} (b c : ChipAnswers) (h : s.pc = .sField) (hs : s.sub = 0)
    (hb : b.field = .fieldCollision) :
    runEvents [.seq b, .seq c] s =
      .next (((State.perform (.fieldOn .fieldCollision) { s with inputs := [] }).nextSub.perform .modeOff).finish
        { serr := serrFieldCollision, op := opSstart } 0 .idle) :=
  Eq.trans (runEvents_cons_next _ _ _ _ (deliver_fieldCollision b h hs hb)) <|
    runEvents_cons_next _ [] _ _ (deliver_startFails c h (congrArg (· + 1) hs))

/-! ## The obligations -/

/-- Settles O14: one equation for each position of S_MODE, S_FIELD and S_GUARD; 5 ms have elapsed once TMR >= 6
(R286). -/
theorem sessionOpensStepByStep : Obligations.SessionOpensStepByStep := by
  intro s a
  refine ⟨deliver_modeOn a, deliver_fieldOn a, fun h hs ha => ?_, deliver_startFails a, fun h ht => ?_,
    deliver_startEnds a⟩
  · exact (deliver_fieldCollision a h hs ha).trans (congrArg _ (State.nextSub_of_sub_zero hs))
  · exact deliver_guardHolds a h (Nat.not_le.mpr ht)

/-- Settles O15: the two positions of T_STOP. -/
theorem sessionClosesStepByStep : Obligations.SessionClosesStepByStep := by
  intro s a h
  refine ⟨fun hs => ?_, deliver_stopEnds a h⟩
  exact (deliver_fieldOff a h hs).trans (congrArg _ (State.nextSub_of_sub_zero hs))

/-- Settles O18: SSTART reaches S_FIELD, and the collision ends it there; no FieldOff is among the transactions. -/
theorem sstartRunCollides : Obligations.SstartRunCollides := by
  intro s a b c notBusy noSession collision
  rw [runEvents_sstart a _ ⟨notBusy, noSession⟩, runEvents_fieldCollision b c rfl rfl collision]
  refine ⟨_, rfl, rfl, ?session, ?status, rfl, rfl, ?trace⟩
  case session => simpa [acceptedState, State.acceptSession] using noSession
  case status => simp [acceptedState, State.acceptSession]
  case trace => simp [acceptedState, State.acceptSession]

end Sys2Proof.Machine
end

section
/-! SUPPORT. The exchange's turns of SEQ that no chip answer sways: steps 1-4 and step 9 (41_exchange_sequence.md
R171-R176, R187), one equation per position, and the run of step 3 from its first transaction to its last. -/

namespace Sys2Proof.Machine

/-! ## The request's variant -/

/-- REQ.OP of each variant (R123). -/
def Variant.op : Variant → BitVec 4
  | .reqa => 0x4
  | .wupa => 0x5
  | .anticoll => 0x6
  | .xchg => 0x7

theorem Request.variant_of_op {r : Request} {v : Variant} (h : r.op = v.op) : r.variant = some v := by
  cases v <;> simp [Request.variant, h, Variant.op, opReqa, opWupa, opAnticoll, opXchg]

/-! ## Positions of a state -/

/-- The position after the n-th, as the obligations write it. -/
theorem State.nextSub_of_sub {s : State} {n : Nat} (hs : s.sub = n) : s.nextSub = { s with sub := n + 1 } := by
  rw [State.nextSub, hs]

/-- A transaction with others to come keeps the state of the sequencer. -/
theorem performAt_of_drop_cons {txns rest : List ChipTxn} {x y : ChipTxn} {s : State} (p : FsmState)
    (h : txns.drop s.sub = x :: y :: rest) : performAt txns p s = .next (s.perform x).nextSub := by
  have atSub : txns[s.sub]? = some x := by rw [← List.head?_drop, h]; rfl
  have notLast : s.sub + 1 ≠ txns.length := by
    have := congrArg List.length h
    simp only [List.length_drop, List.length_cons] at this
    omega
  simp only [performAt, atSub, if_neg notLast]

/-- The last transaction moves on (R175). -/
theorem performAt_of_drop_singleton {txns : List ChipTxn} {x : ChipTxn} {s : State} (p : FsmState)
    (h : txns.drop s.sub = [x]) : performAt txns p s = .next ((s.perform x).enter p) := by
  have atSub : txns[s.sub]? = some x := by rw [← List.head?_drop, h]; rfl
  have last : s.sub + 1 = txns.length := by
    have := congrArg List.length h
    simp only [List.length_drop, List.length_singleton] at this
    omega
  simp only [performAt, atSub, if_pos last]

/-! ## Turns of SEQ -/

section

variable {s : State} (a : ChipAnswers)

theorem deliver_seq_xPredelay (h : s.pc = .xPredelay) : deliver (.seq a) s = seqPredelay s := by
  simp only [deliver, seqStep, h]

/-- X_PREDELAY before the pre-delay is over (R171). -/
theorem deliver_predelayHolds (h : s.pc = .xPredelay) (ht : ¬ s.elapsed Config.tIfsMs) :
    deliver (.seq a) s = .next s :=
  (deliver_seq_xPredelay a h).trans (if_neg ht)

/-- X_PREDELAY once the pre-delay is over (R171). -/
theorem deliver_predelayEnds (h : s.pc = .xPredelay) (ht : s.elapsed Config.tIfsMs) :
    deliver (.seq a) s = .next (s.enter .xReset) :=
  (deliver_seq_xPredelay a h).trans (if_pos ht)

theorem deliver_seq_xReset (h : s.pc = .xReset) : deliver (.seq a) s = seqReset s := by
  simp only [deliver, seqStep, h]

/-- X_RESET's first transaction (R172). -/
theorem deliver_resetStop (h : s.pc = .xReset) (hs : s.sub = 0) :
    deliver (.seq a) s = .next (s.perform (.cmd .stop)).nextSub := by
  simp only [deliver_seq_xReset a h, seqReset, hs]

/-- X_RESET's second transaction (R172). -/
theorem deliver_resetGain (h : s.pc = .xReset) (hs : s.sub = 1) :
    deliver (.seq a) s = .next (s.perform (.cmd .resetRxGain)).nextSub := by
  simp only [deliver_seq_xReset a h, seqReset, hs]

/-- X_RESET's third transaction, in the step that moves on (R172). -/
theorem deliver_resetClear (h : s.pc = .xReset) (hs : s.sub = 2) :
    deliver (.seq a) s = .next (s.irqClearAll.enter .xProgram) := by
  simp only [deliver_seq_xReset a h, seqReset, hs]

theorem deliver_seq_xProgram {v : Variant} (h : s.pc = .xProgram) (hv : s.req.variant = some v) :
    deliver (.seq a) s = performAt (programTxns s v) .xDispatch s := by
  simp only [deliver, seqStep, h, seqProgram, hv]

/-- X_PROGRAM with further transactions due (R175). -/
theorem deliver_program {v : Variant} {txns due : List ChipTxn} {x y : ChipTxn} (h : s.pc = .xProgram)
    (hv : s.req.variant = some v) (htxns : programTxns s v = txns) (hdue : txns.drop s.sub = x :: y :: due) :
    deliver (.seq a) s = .next (s.perform x).nextSub := by
  rw [deliver_seq_xProgram a h hv, htxns, performAt_of_drop_cons _ hdue]

/-- X_PROGRAM with one transaction due (R175). -/
theorem deliver_programEnds {v : Variant} {txns : List ChipTxn} {x : ChipTxn} (h : s.pc = .xProgram)
    (hv : s.req.variant = some v) (htxns : programTxns s v = txns) (hdue : txns.drop s.sub = [x]) :
    deliver (.seq a) s = .next ((s.perform x).enter .xDispatch) := by
  rw [deliver_seq_xProgram a h hv, htxns, performAt_of_drop_singleton _ hdue]

/-- X_DISPATCH (R176). -/
theorem deliver_dispatch {v : Variant} (h : s.pc = .xDispatch) (hv : s.req.variant = some v) :
    deliver (.seq a) s = .next ((s.perform (.cmd v.txCommand)).clearCache.enter .xTxwait) := by
  simp only [deliver, seqStep, h, seqDispatch, hv]

/-- X_COUNT (R187). -/
theorem deliver_count (h : s.pc = .xCount) : deliver (.seq a) s = .next (s.composeCount.enter .xExtract) := by
  simp only [deliver, seqStep, h, seqCount]

end

/-! ## Step 3 -/

/-- Step 3's list is made from REQ and TXBUF alone. -/
theorem programTxns_congr {s t : State} (hreq : t.req = s.req) (hhw : t.hw = s.hw) (htx : t.txbuf = s.txbuf)
    (v : Variant) : programTxns t v = programTxns s v := by
  have sameBytes : t.txByte = s.txByte := by
    funext i
    rw [State.txByte, State.txByte, hhw, htx]
  cases v <;> simp only [programTxns, fifoLoad, State.txPrefix, hreq, sameBytes]

/-- From any position of X_PROGRAM, one turn of SEQ per transaction still due performs them in order and ends in
X_DISPATCH: no turn changes what the list is made from. -/
theorem runEvents_program {v : Variant} {txns due : List ChipTxn} {x : ChipTxn} {s : State}
    {turns : List ChipAnswers} (hpc : s.pc = .xProgram) (hv : s.req.variant = some v)
    (htxns : programTxns s v = txns) (hdue : txns.drop s.sub = x :: due)
    (hlen : turns.length = (x :: due).length) :
    runEvents (turns.map .seq) s =
      .next { s with trace := s.trace ++ x :: due, pc := .xDispatch, sub := 0, inputs := [] } := by
  induction due generalizing x s turns with
  | nil =>
    obtain ⟨a, rfl⟩ := List.length_eq_one_iff.mp hlen
    exact runEvents_cons_next _ [] _ _
      (deliver_programEnds a hpc hv ((programTxns_congr rfl rfl rfl v).trans htxns) hdue)
  | cons y due ih =>
    obtain ⟨a, turns, rfl⟩ := List.exists_cons_of_length_eq_add_one hlen
    have stillDue : txns.drop (s.sub + 1) = y :: due := by rw [← List.tail_drop, hdue, List.tail_cons]
    calc runEvents (.seq a :: turns.map .seq) s
      _ = runEvents (turns.map .seq) (State.perform x { s with inputs := turns.map .seq }).nextSub :=
        runEvents_cons_next _ _ _ _
          (deliver_program a hpc hv ((programTxns_congr rfl rfl rfl v).trans htxns) hdue)
      _ = _ := ih hpc hv ((programTxns_congr rfl rfl rfl v).trans htxns) stillDue (Nat.succ.inj hlen)
      _ = _ := by simp [State.perform, State.nextSub]

/-- From entry to X_PROGRAM, the variant's whole list (R175). -/
theorem runEvents_programTxns {v : Variant} {s : State} {turns : List ChipAnswers} (hpc : s.pc = .xProgram)
    (hsub : s.sub = 0) (hv : s.req.variant = some v) (hlen : turns.length = (programTxns s v).length) :
    runEvents (turns.map .seq) s =
      .next { s with trace := s.trace ++ programTxns s v, pc := .xDispatch, sub := 0, inputs := [] } := by
  obtain ⟨x, due, htxns⟩ : ∃ x due, programTxns s v = x :: due := by cases v <;> exact ⟨_, _, rfl⟩
  rw [htxns] at hlen ⊢
  exact runEvents_program hpc hv htxns (by rw [hsub, List.drop_zero]) hlen

/-- A load of no bytes is not issued, in whichever terms the condition is put (R97). -/
theorem fifoLoad_eq_ite (s : State) {n : Nat} {p : Prop} [Decidable p] (h : p ↔ n ≠ 0) :
    fifoLoad s n = if p then [.fifoWrite ((List.range n).map s.txByte)] else [] := by
  rw [fifoLoad, ← ite_not]
  exact if_congr h.symm rfl rfl

/-- ANTICOLL's list loads the bytes that hold its BITS bits, none for no bits (R174, R175, R97). -/
theorem programTxns_anticoll (s : State) :
    programTxns s .anticoll = [.write .txNbits s.req.bits.toNat]
      ++ (if 0 < s.req.bits.toNat then
            [.fifoWrite ((List.range ((s.req.bits.toNat + 7) / 8)).map s.txByte)] else [])
      ++ [.write .raw 1, .write .antcl 1, .write .agcEn 0, .write .squelchEn 1] := by
  rw [← fifoLoad_eq_ite s (by omega : 0 < s.req.bits.toNat ↔ (s.req.bits.toNat + 7) / 8 ≠ 0)]
  rfl

/-- XCHG's list loads TXLEN bytes, none for TXLEN = 0 (R174, R175, R97). -/
theorem programTxns_xchg (s : State) :
    programTxns s .xchg = [.write .txNbits (8 * s.req.txlen.toNat)]
      ++ (if 0 < s.req.txlen.toNat then
            [.fifoWrite ((List.range s.req.txlen.toNat).map s.txByte)] else [])
      ++ [.write .raw 0, .write .antcl 0, .write .agcEn 1, .write .squelchEn 1] := by
  rw [← fifoLoad_eq_ite s Nat.pos_iff_ne_zero]
  rfl

/-! ## The obligations -/

/-- Settles O21: the list the obligation asks for is the variant's, and the run performs that list. -/
theorem programTransactionsInOrder : Obligations.ProgramTransactionsInOrder := by
  intro s turns txns hpc hsub short anticoll xchg hop hlen
  obtain ⟨v, hv, rfl⟩ : ∃ v, s.req.variant = some v ∧ txns = programTxns s v := by
    rcases hop with h | h | h | h
    · exact ⟨.reqa, Request.variant_of_op h, short (.inl h)⟩
    · exact ⟨.wupa, Request.variant_of_op h, short (.inr h)⟩
    · exact ⟨.anticoll, Request.variant_of_op h, (anticoll h).trans (programTxns_anticoll s).symm⟩
    · exact ⟨.xchg, Request.variant_of_op h, (xchg h).trans (programTxns_xchg s).symm⟩
  exact runEvents_programTxns hpc hsub hv hlen

/-- Settles O16: 1 ms has elapsed once TMR >= 2 (R286), and X_RESET is not a timed state. -/
theorem predelayHolds : Obligations.PredelayHolds := by
  intro s a
  exact ⟨fun h ht => deliver_predelayHolds a h (Nat.not_le.mpr ht), deliver_predelayEnds a⟩

/-- Settles O20: the three positions of X_RESET; X_PROGRAM is not a timed state. -/
theorem resetStepTransactions : Obligations.ResetStepTransactions := by
  intro s a h
  refine ⟨fun hs => ?_, fun hs => ?_, deliver_resetClear a h⟩
  · exact (deliver_resetStop a h hs).trans (congrArg _ (State.nextSub_of_sub hs))
  · exact (deliver_resetGain a h hs).trans (congrArg _ (State.nextSub_of_sub hs))

/-- Settles O22: each opcode is that of the variant whose command is asked for. -/
theorem dispatchIssuesTransmitCommand : Obligations.DispatchIssuesTransmitCommand := by
  intro s a c h hc
  obtain ⟨v, hv, rfl⟩ : ∃ v, s.req.variant = some v ∧ c = v.txCommand := by
    rcases hc with ⟨hop, rfl⟩ | ⟨hop, rfl⟩ | ⟨hop, rfl⟩ | ⟨hop, rfl⟩
    · exact ⟨.reqa, Request.variant_of_op hop, rfl⟩
    · exact ⟨.wupa, Request.variant_of_op hop, rfl⟩
    · exact ⟨.anticoll, Request.variant_of_op hop, rfl⟩
    · exact ⟨.xchg, Request.variant_of_op hop, rfl⟩
  exact deliver_dispatch a h hv

/-- Settles O28: the snapshot's count is the sum, as both parts are bytes and COUNT has 16 bits. -/
theorem countComposedFromSnapshot : Obligations.CountComposedFromSnapshot :=
  fun s a h => ⟨s.work.snap.count, s.work.snap.count_toNat, deliver_count a h⟩

end Sys2Proof.Machine
end

section
/-! SUPPORT. The turn of SEQ that opens step 10: X_EXTRACT at sub 0, where the size of the response is checked before
anything is read or written (43_fifo_read.md R242, R243, R246, R247). -/

namespace Sys2Proof.Machine

/-! ## The request's mode -/

/-- Of the requests that step 10 reads in its plain branch, XCHG alone is in CRC mode (R241). -/
theorem Request.not_isRaw_iff_xchg {r : Request} (h : r.op = 0x4 ∨ r.op = 0x5 ∨ r.op = 0x7) :
    ¬ r.isRaw ↔ r.op = 0x7 := by
  rcases h with h | h | h <;> simp [h, opReqa, opWupa, opAnticoll]

theorem Request.not_isAnticoll_of_plain {r : Request} (h : r.op = 0x4 ∨ r.op = 0x5 ∨ r.op = 0x7) :
    ¬ r.isAnticoll := by
  rcases h with h | h | h <;> simp [h, opAnticoll]

/-! ## RESULT of an error -/

/-- Timeout alone has a KIND, so the code and the opcode are all that RESULT holds (R279). -/
theorem State.raise_result {s : State} {e : ExchangeError} {op : BitVec 4} (he : e ≠ .timeout)
    (hop : s.req.op = op) : (s.raise e false).result = { err := e.code, op := op } := by
  simp only [State.raise_eq_finish, State.finish_result, decide_eq_false he, hop]

/-! ## The first turn of X_EXTRACT -/

section

variable {s : State} (a : ChipAnswers)

theorem deliver_seq_xExtract (h : s.pc = .xExtract) : deliver (.seq a) s = seqExtract a s := by
  simp only [deliver, seqStep, h]

theorem deliver_plainCheck (h : s.pc = .xExtract) (hs : s.sub = 0) (hq : ¬ s.req.isAnticoll) :
    deliver (.seq a) s = .next (plainCheck s) := by
  simp only [deliver_seq_xExtract a h, seqExtract, if_neg hq, extractPlain, hs]

/-- In CRC mode, fewer bytes than a CRC (R242). -/
theorem deliver_plainTooShort (h : s.pc = .xExtract) (hs : s.sub = 0) (hq : ¬ s.req.isAnticoll)
    (hc : ¬ s.req.isRaw ∧ s.work.count.toNat < Config.crcLen) :
    deliver (.seq a) s = .next (s.raise .responseTooShort false) :=
  (deliver_plainCheck a h hs hq).trans (congrArg _ (if_pos hc))

/-- N above the receive capacity (R243). -/
theorem deliver_plainTooLong (h : s.pc = .xExtract) (hs : s.sub = 0) (hq : ¬ s.req.isAnticoll)
    (hc : ¬ (¬ s.req.isRaw ∧ s.work.count.toNat < Config.crcLen))
    (hn : s.req.rxcap.toNat < (plainLength s).toNat) :
    deliver (.seq a) s = .next ((s.setN (plainLength s)).raise .responseTooLong false) :=
  (deliver_plainCheck a h hs hq).trans (congrArg _ ((if_neg hc).trans (if_pos hn)))

/-- N within the receive capacity (R243). -/
theorem deliver_plainFits (h : s.pc = .xExtract) (hs : s.sub = 0) (hq : ¬ s.req.isAnticoll)
    (hc : ¬ (¬ s.req.isRaw ∧ s.work.count.toNat < Config.crcLen))
    (hn : (plainLength s).toNat ≤ s.req.rxcap.toNat) :
    deliver (.seq a) s = .next (s.setN (plainLength s)).nextSub :=
  (deliver_plainCheck a h hs hq).trans (congrArg _ ((if_neg hc).trans (if_neg (Nat.not_lt.mpr hn))))

theorem deliver_anticollCheck (h : s.pc = .xExtract) (hs : s.sub = 0) (hq : s.req.isAnticoll) :
    deliver (.seq a) s = .next (anticollCheck s) := by
  simp only [deliver_seq_xExtract a h, seqExtract, if_pos hq, extractAnticoll, hs]

/-- The bytes to write exceed the receive capacity (R247). -/
theorem deliver_anticollTooLong (h : s.pc = .xExtract) (hs : s.sub = 0) (hq : s.req.isAnticoll)
    (hn : s.req.rxcap.toNat < anticollNeed s.req.fullBytes s.req.remBits s.work.count.toNat) :
    deliver (.seq a) s = .next (s.splitPrefix.raise .responseTooLong false) :=
  (deliver_anticollCheck a h hs hq).trans (congrArg _ (if_pos hn))

/-- The bytes to write are within the receive capacity (R247). -/
theorem deliver_anticollFits (h : s.pc = .xExtract) (hs : s.sub = 0) (hq : s.req.isAnticoll)
    (hn : anticollNeed s.req.fullBytes s.req.remBits s.work.count.toNat ≤ s.req.rxcap.toNat) :
    deliver (.seq a) s = .next s.splitPrefix.nextSub :=
  (deliver_anticollCheck a h hs hq).trans (congrArg _ (if_neg (Nat.not_lt.mpr hn)))

end

/-! ## The obligations -/

/-- Settles O29: unless the response is shorter than a CRC, `plainLength` is the obligation's n; the three clauses are
the three outcomes of the check. -/
theorem plainExtractionChecksFirst : Obligations.PlainExtractionChecksFirst := by
  intro s a n hpc hsub hop hn
  have notAnticoll := Request.not_isAnticoll_of_plain hop
  have crcMode : ¬ s.req.isRaw ↔ s.req.op = 0x7 := Request.not_isRaw_iff_xchg hop
  by_cases short : s.req.op = 0x7 ∧ s.work.count.toNat < 2
  case pos =>
    obtain ⟨xchg, noCrc⟩ := short
    exact ⟨_, deliver_plainTooShort a hpc hsub notAnticoll ⟨crcMode.mpr xchg, noCrc⟩,
      rfl, rfl, rfl, rfl, rfl, rfl, fun _ _ => ⟨rfl, State.raise_result (by decide) xchg, rfl, rfl⟩,
      absurd ⟨xchg, noCrc⟩, absurd ⟨xchg, noCrc⟩⟩
  case neg =>
    have enough : ¬ (¬ s.req.isRaw ∧ s.work.count.toNat < Config.crcLen) := by rwa [crcMode]
    have length : (plainLength s).toNat = n := by
      rw [hn, plainLength_toNat s fun hr => Nat.not_lt.mp fun hc => enough ⟨hr, hc⟩, ← ite_not]
      exact if_congr crcMode rfl rfl
    rcases Nat.lt_or_ge s.req.rxcap.toNat n with tooLong | fits
    · exact ⟨_, deliver_plainTooLong a hpc hsub notAnticoll enough (length ▸ tooLong),
        rfl, rfl, rfl, rfl, rfl, rfl, fun hx hc => absurd ⟨hx, hc⟩ short,
        fun _ _ => ⟨rfl, State.raise_result (by decide) rfl, rfl, rfl⟩,
        fun _ fits => absurd tooLong (Nat.not_lt.mpr fits)⟩
    · exact ⟨_, deliver_plainFits a hpc hsub notAnticoll enough (length ▸ fits),
        rfl, rfl, rfl, rfl, rfl, rfl, fun hx hc => absurd ⟨hx, hc⟩ short,
        fun _ tooLong => absurd tooLong (Nat.not_lt.mpr fits),
        fun _ _ => ⟨hpc, congrArg (· + 1) hsub, length, rfl⟩⟩

/-- Settles O30: the obligation's need is `anticollNeed` of the split prefix, and FULL and REM are kept in both
outcomes of the check. -/
theorem anticollExtractionChecksFirst : Obligations.AnticollExtractionChecksFirst := by
  intro s a need hpc hsub hop hneed
  have needed : need = anticollNeed s.req.fullBytes s.req.remBits s.work.count.toNat := hneed
  rcases Nat.lt_or_ge s.req.rxcap.toNat need with tooLong | fits
  · exact ⟨_, deliver_anticollTooLong a hpc hsub hop (needed ▸ tooLong), rfl, rfl, rfl, rfl, rfl, rfl,
      splitPrefix_full_toNat s, splitPrefix_rem_toNat s,
      fun _ => ⟨rfl, State.raise_result (by decide) hop, rfl, rfl⟩,
      fun fits => absurd tooLong (Nat.not_lt.mpr fits)⟩
  · exact ⟨_, deliver_anticollFits a hpc hsub hop (needed ▸ fits), rfl, rfl, rfl, rfl, rfl, rfl,
      splitPrefix_full_toNat s, splitPrefix_rem_toNat s, fun tooLong => absurd tooLong (Nat.not_lt.mpr fits),
      fun _ => ⟨hpc, congrArg (· + 1) hsub, rfl⟩⟩

end Sys2Proof.Machine
end

section
/-! SUPPORT. The interrupt output to the host (60_exceptions.md R282). -/

namespace Sys2Proof.Machine

/-- Settles O48: the gates of `State.irq` read as connectives, and its three error flags, which the model joins from
the left, regrouped as R282 lists them. -/
theorem irqFollowsStatusAndEnables : Obligations.IrqFollowsStatusAndEnables := by
  intro s
  simp only [State.irq, Bool.or_eq_true, Bool.and_eq_true, or_assoc]

end Sys2Proof.Machine
end

section
/-! SUPPORT. Decoding and encoding are inverse to each other (30_encoding.md R121-R126): what each decoder of an opcode
accepts, as numbers, and from it both directions of the round trip. -/

namespace Sys2Proof

/-! ## From a command to its word and back -/

theorem xchg_reservedBits (fwt : BitVec 16) : (encode (.xchg fwt)).extractLsb' 4 12 = 0 := by
  apply BitVec.eq_of_toNat_eq
  rw [field_toNat, encode_xchg_toNat]
  show _ = 0
  omega

theorem decode_encode_anticoll (bits : BitVec 6) (h : bits.toNat ≤ 40) :
    decode (encode (.anticoll bits)) = .instr (.anticoll bits) := by
  revert bits; decide

theorem decode_encode_xchg (fwt : BitVec 16) : decode (encode (.xchg fwt)) = .instr (.xchg fwt) := by
  simp [decode, decodeXchg, opField_xchg, fwtField_xchg, xchg_reservedBits]

/-- Settles O1: the words without operands are literals, the 64 of ANTICOLL are finitely many, and XCHG's fields are
those of its number. -/
theorem decodeInvertsEncode : Obligations.DecodeInvertsEncode := by
  intro i legal
  cases i with
  | sstart | sstop | reqa | wupa => decide
  | anticoll bits => exact decode_encode_anticoll bits (of_decide_eq_true legal)
  | xchg fwt => exact decode_encode_xchg fwt

/-! ## From a word to its command and back -/

theorem opField_toNat (w : Word) : (opField w).toNat = w.toNat % 16 := by
  rw [opField, field_toNat, Nat.pow_zero, Nat.div_one]
  rfl

theorem toNat_mod_of_opField {w : Word} {op : BitVec 4} (h : opField w = op) : w.toNat % 16 = op.toNat := by
  rw [← h, opField_toNat]

/-- A field that reads 0, as a fact about the word's number. -/
theorem field_eq_zero {w : Word} {lo n : Nat} (h : w.extractLsb' lo n = 0) : w.toNat / 2 ^ lo % 2 ^ n = 0 := by
  rw [← field_toNat, h]
  exact Nat.zero_mod _

/-- A word without operands is its opcode (R125). -/
theorem decodePlain_eq_instr {w : Word} {i j : Instr} (h : decodePlain w i = .instr j) :
    i = j ∧ w.toNat < 16 := by
  unfold decodePlain at h
  split at h
  case isTrue reserved =>
    have := field_eq_zero reserved
    exact ⟨Decoded.instr.inj h, by omega⟩
  case isFalse => cases h

/-- ANTICOLL's word is its bit count, at most 40, above its opcode (R125). -/
theorem decodeAnticoll_eq_instr {w : Word} {j : Instr} (h : decodeAnticoll w = .instr j) :
    j = .anticoll (bitsField w) ∧ (bitsField w).toNat ≤ 40 ∧ w.toNat / 16 = 16 * (bitsField w).toNat := by
  unfold decodeAnticoll at h
  split at h
  case isTrue reserved =>
    split at h
    case isTrue inRange =>
      have high := field_eq_zero reserved.1
      have low := field_eq_zero reserved.2
      refine ⟨(Decoded.instr.inj h).symm, inRange, ?_⟩
      rw [bitsField, field_toNat]
      omega
    case isFalse => cases h
  case isFalse => cases h

/-- XCHG's word is its frame-waiting time above its opcode (R125). -/
theorem decodeXchg_eq_instr {w : Word} {j : Instr} (h : decodeXchg w = .instr j) :
    j = .xchg (fwtField w) ∧ w.toNat / 16 = 4096 * (fwtField w).toNat := by
  unfold decodeXchg at h
  split at h
  case isTrue reserved =>
    have := field_eq_zero reserved
    refine ⟨(Decoded.instr.inj h).symm, ?_⟩
    rw [fwtField, field_toNat]
    omega
  case isFalse => cases h

/-- Settles O2: below each opcode the word's number is the one that its command's word has. -/
theorem decodedWordIsTheEncoding : Obligations.DecodedWordIsTheEncoding := by
  intro w i decoded
  have plain {op : BitVec 4} {j : Instr} (hop : opField w = op) (legal : j.wellFormed = true)
      (word : (encode j).toNat = op.toNat) (h : decodePlain w j = .instr i) :
      i.wellFormed = true ∧ encode i = w := by
    obtain ⟨rfl, small⟩ := decodePlain_eq_instr h
    have := toNat_mod_of_opField hop
    exact ⟨legal, BitVec.eq_of_toNat_eq (by omega)⟩
  unfold decode at decoded
  split at decoded
  case isTrue hop => exact plain hop rfl rfl decoded
  split at decoded
  case isTrue hop => exact plain hop rfl rfl decoded
  split at decoded
  case isTrue hop => exact plain hop rfl rfl decoded
  split at decoded
  case isTrue hop => exact plain hop rfl rfl decoded
  split at decoded
  case isTrue hop =>
    obtain ⟨rfl, inRange, rest⟩ := decodeAnticoll_eq_instr decoded
    have low : w.toNat % 16 = 6 := toNat_mod_of_opField hop
    refine ⟨decide_eq_true inRange, BitVec.eq_of_toNat_eq ?_⟩
    rw [encode_anticoll_toNat]
    omega
  split at decoded
  case isTrue hop =>
    obtain ⟨rfl, rest⟩ := decodeXchg_eq_instr decoded
    have low : w.toNat % 16 = 7 := toNat_mod_of_opField hop
    refine ⟨rfl, BitVec.eq_of_toNat_eq ?_⟩
    rw [encode_xchg_toNat]
    omega
  case isFalse => cases decoded

/-! ## The opcode map -/

theorem decode_eq_instr_iff (w : Word) (i : Instr) :
    decode w = .instr i ↔ i.wellFormed = true ∧ encode i = w := by
  refine ⟨decodedWordIsTheEncoding w i, ?_⟩
  rintro ⟨legal, rfl⟩
  exact decodeInvertsEncode i legal

theorem decode_illegal_iff (w : Word) : (∃ why, decode w = .illegal why) ↔ ¬ ∃ i, decode w = .instr i := by
  cases decode w <;> simp

/-- A field that a mask keeps whole reads as the match value's. -/
theorem field_of_masked {w mask value : Word} {lo n : Nat} (kept : mask.extractLsb' lo n = BitVec.allOnes n)
    (row : w &&& mask = value) : w.extractLsb' lo n = value.extractLsb' lo n := by
  rw [← row, BitVec.extractLsb'_and, kept, BitVec.and_allOnes]

/-- ANTICOLL's row: the match value under the mask leaves the bit count alone (R123). -/
theorem anticoll_row_iff (w : Word) : w &&& 0xFFFFC0FF = 0x00000006 ↔ ∃ bits, encode (.anticoll bits) = w := by
  constructor
  · intro row
    have op : opField w = 6 := field_of_masked (by decide) row
    have low : w.extractLsb' 4 4 = 0 := field_of_masked (by decide) row
    have high : w.extractLsb' 14 18 = 0 := field_of_masked (by decide) row
    have opNat : w.toNat % 16 = 6 := toNat_mod_of_opField op
    have lowNat := field_eq_zero low
    have highNat := field_eq_zero high
    refine ⟨bitsField w, BitVec.eq_of_toNat_eq ?_⟩
    rw [encode_anticoll_toNat, bitsField, field_toNat]
    omega
  · rintro ⟨bits, rfl⟩
    revert bits; decide

/-- XCHG's row: the match value under the mask leaves the frame-waiting time alone (R123). -/
theorem xchg_row_iff (w : Word) : w &&& 0x0000FFFF = 0x00000007 ↔ ∃ fwt, encode (.xchg fwt) = w := by
  have mask : (w &&& 0x0000FFFF).toNat = w.toNat % 2 ^ 16 := Nat.and_two_pow_sub_one_eq_mod w.toNat 16
  constructor
  · intro row
    rw [row] at mask
    have low : 7 = w.toNat % 2 ^ 16 := mask
    refine ⟨fwtField w, BitVec.eq_of_toNat_eq ?_⟩
    rw [encode_xchg_toNat, fwtField, field_toNat]
    omega
  · rintro ⟨fwt, rfl⟩
    rw [encode_xchg_toNat] at mask
    exact BitVec.eq_of_toNat_eq (mask.trans (show _ = 7 by omega))

/-- A bit count read off a word that is ANTICOLL's. -/
theorem bits_of_anticoll_word {w : Word} {bits : BitVec 6} (h : encode (.anticoll bits) = w) :
    w.toNat / 2 ^ 8 % 2 ^ 6 = bits.toNat := by
  rw [← h, encode_anticoll_toNat]
  have := bits.isLt
  omega

/-- Settles O3: a word is legal exactly when it is the word of a well-formed command, and each row holds the words of
one command. -/
theorem illegalExactlyWithoutMatchingRow : Obligations.IllegalExactlyWithoutMatchingRow := by
  intro w
  have whole : w &&& 0xFFFFFFFF = w := BitVec.and_allOnes
  rw [decode_illegal_iff, whole, anticoll_row_iff, xchg_row_iff]
  refine not_congr ?_
  simp only [decode_eq_instr_iff]
  constructor
  · rintro ⟨i, legal, word⟩
    cases i with
    | sstart => exact .inl word.symm
    | sstop => exact .inr (.inl word.symm)
    | reqa => exact .inr (.inr (.inl word.symm))
    | wupa => exact .inr (.inr (.inr (.inl word.symm)))
    | anticoll bits =>
      refine .inr (.inr (.inr (.inr (.inl ⟨⟨bits, word⟩, ?_⟩))))
      rw [bits_of_anticoll_word word]
      exact of_decide_eq_true legal
    | xchg fwt => exact .inr (.inr (.inr (.inr (.inr ⟨fwt, word⟩))))
  · rintro (rfl | rfl | rfl | rfl | ⟨⟨bits, word⟩, inRange⟩ | ⟨fwt, word⟩)
    · exact ⟨.sstart, rfl, rfl⟩
    · exact ⟨.sstop, rfl, rfl⟩
    · exact ⟨.reqa, rfl, rfl⟩
    · exact ⟨.wupa, rfl, rfl⟩
    · rw [bits_of_anticoll_word word] at inRange
      exact ⟨.anticoll bits, decide_eq_true inRange, word⟩
    · exact ⟨.xchg fwt, rfl, word⟩

/-- Settles O4: twelve written words, evaluated. -/
theorem writtenWordsDecode : Obligations.WrittenWordsDecode := by
  unfold Obligations.WrittenWordsDecode
  decide

end Sys2Proof
end

section
/-! SUPPORT. The step as the delivery of the next event (00_scope.md R6), and the acceptance and rejection of each
command word (30_encoding.md R127-R130). -/

namespace Sys2Proof.Machine

/-! ## The step -/

/-- Settles O5: the two ways in which the next event is given. -/
theorem stepDeliversNextEvent : Obligations.StepDeliversNextEvent :=
  ⟨step_of_inputs, step_of_no_inputs⟩

/-- Settles O6: the word's write is the next event, and executing its command is what the write does. -/
theorem stepRunsDecodedCommand : Obligations.StepRunsDecodedCommand := by
  intro s w i es next decoded
  rw [step_of_inputs s _ es next]
  exact deliver_commandEvent _ decoded

/-- A word that does not decode is rejected once the bus has answered its write (R128). -/
theorem deliver_commandEvent_illegal (s : State) {w : Word} {why : IllegalWord} (hd : decode w = .illegal why) :
    deliver (commandEvent w) s = .next (s.respond .done).reject := by
  have issued : deliver (commandEvent w) s = issueCommand w (s.respond .done) := rfl
  rw [issued, issueCommand, hd]

/-- Settles O7: the word's write is the next event, and it is rejected. -/
theorem stepRejectsIllegalWord : Obligations.StepRejectsIllegalWord := by
  intro s w why es next illegal
  rw [step_of_inputs s _ es next]
  exact deliver_commandEvent_illegal _ illegal

/-! ## The request that acceptance latches -/

/-- REQ of an accepted command: its opcode and operands, and TXLEN and RXCAP as they are (R130). -/
def latchedRequest (s : State) : Instr → Request
  | .sstart => { op := opSstart, txlen := s.txlen, rxcap := s.rxcap }
  | .sstop => { op := opSstop, txlen := s.txlen, rxcap := s.rxcap }
  | .reqa => { op := opReqa, txlen := s.txlen, rxcap := s.rxcap }
  | .wupa => { op := opWupa, txlen := s.txlen, rxcap := s.rxcap }
  | .anticoll bits => { op := opAnticoll, bits := bits, txlen := s.txlen, rxcap := s.rxcap }
  | .xchg fwt => { op := opXchg, fwt := fwt, txlen := s.txlen, rxcap := s.rxcap }

/-- Latching a command's word puts its opcode and operands in REQ. -/
theorem latch_encode_req (s : State) (i : Instr) : (s.latch (encode i)).req = latchedRequest s i := by
  cases i with
  | sstart | sstop | reqa | wupa => rfl
  | anticoll bits =>
    rw [State.latch_req, opField_anticoll, bitsField_anticoll, fwtField_anticoll]
    rfl
  | xchg fwt =>
    rw [State.latch_req, opField_xchg, bitsField_xchg, fwtField_xchg]
    rfl

/-- The whole state that the acceptance of an exchange leaves. -/
theorem acceptExchange_encode (s : State) (i : Instr) :
    s.acceptExchange (encode i) = { s with
      req := latchedRequest s i, status := { s.status with done := false }, result := {}, bitcount := 0
      rxcount := 0, fifostat := {}, collpos := {}, sub := 0, pc := .xPredelay, tmr := 0 } := by
  rw [← latch_encode_req]
  rfl

/-! ## The obligations on acceptance -/

/-- Settles O8: SSTART's preconditions hold, and S_MODE is not a timed state. -/
theorem sstartAccepted : Obligations.SstartAccepted :=
  fun _ notBusy noSession => exec_of_preconditions (i := .sstart) ⟨notBusy, noSession⟩

/-- Settles O9: SSTOP's preconditions hold, and T_STOP is not a timed state. -/
theorem sstopAccepted : Obligations.SstopAccepted :=
  fun _ notBusy session => exec_of_preconditions (i := .sstop) ⟨notBusy, session⟩

/-- Settles O10: the preconditions of both hold, and X_PREDELAY is a timed state. -/
theorem reqaAndWupaAccepted : Obligations.ReqaAndWupaAccepted := by
  intro s notBusy session capacity
  refine ⟨(exec_of_preconditions (i := .reqa) ⟨notBusy, session, capacity⟩).trans ?_,
    (exec_of_preconditions (i := .wupa) ⟨notBusy, session, capacity⟩).trans ?_⟩
  · exact congrArg _ (acceptExchange_encode s .reqa)
  · exact congrArg _ (acceptExchange_encode s .wupa)

/-- Settles O11: ANTICOLL's preconditions hold. -/
theorem anticollAccepted : Obligations.AnticollAccepted := by
  intro s bits notBusy session capacity legal loaded txlen
  refine (exec_of_preconditions (i := .anticoll bits) ⟨notBusy, session, capacity, legal, loaded, txlen⟩).trans ?_
  exact congrArg _ (acceptExchange_encode s (.anticoll bits))

/-- Settles O12: XCHG's preconditions hold. -/
theorem xchgAccepted : Obligations.XchgAccepted := by
  intro s fwt notBusy session capacity txlen
  refine (exec_of_preconditions (i := .xchg fwt) ⟨notBusy, session, capacity, txlen⟩).trans ?_
  exact congrArg _ (acceptExchange_encode s (.xchg fwt))

/-- Settles O13: a command that is not accepted is rejected. -/
theorem rejectionOnlySetsCmderr : Obligations.RejectionOnlySetsCmderr := by
  intro s i unmet
  obtain ⟨met, -⟩ | ⟨-, rejected⟩ := exec_cases i s
  · exact absurd met unmet
  · exact rejected

end Sys2Proof.Machine
end

section
/-! SUPPORT. The exchange's turns of SEQ that chip answers sway: the three waits (41_exchange_sequence.md R177-R185), the
snapshot with its checks (R186), and step 10 after its check (43_fifo_read.md R244-R254). -/

namespace Sys2Proof.Machine

/-- X_POSTCHK's snapshot and its three checks, as a state (R186). -/
def postchkChecks (a : ChipAnswers) (s : State) : State :=
  if a.fifoStatus.ovr then (s.takeSnapshot (a.fifoStatus.narrow s.hw)).raise .fifoOverflow false
  else if a.fifoStatus.unf then (s.takeSnapshot (a.fifoStatus.narrow s.hw)).raise .fifoUnderflow false
  else if a.fifoStatus.nplb then
    (s.takeSnapshot (a.fifoStatus.narrow s.hw)).raise .framingLastByteMissingParity false
  else (s.takeSnapshot (a.fifoStatus.narrow s.hw)).enter .xCount

/-! ## The waits and the snapshot, one equation per state -/

section

variable {s : State} (a : ChipAnswers)

/-- X_TXWAIT (R177). -/
theorem deliver_txwait (h : s.pc = .xTxwait) :
    deliver (.seq a) s = .next (if IrqFlags.txe (s.cache ||| a.irq) then (s.irqRefresh a.irq).enter .xRxswait
      else s.irqRefresh a.irq) := by
  simp only [deliver, seqStep, h, seqTxwait, State.irqRefresh_cache, apply_ite Host.Outcome.next]
  rfl

/-- X_RXSWAIT (R179, R180). -/
theorem deliver_rxswait (h : s.pc = .xRxswait) :
    deliver (.seq a) s = .next (if IrqFlags.rxs (s.cache ||| a.irq) then (s.irqRefresh a.irq).enter .xPoll
      else if s.elapsed s.req.fwtMs then (s.irqRefresh a.irq).raise .timeout false else s.irqRefresh a.irq) := by
  simp only [deliver, seqStep, h, seqRxswait, State.irqRefresh_cache, apply_ite Host.Outcome.next]
  rfl

theorem deliver_txwaitStays (h : s.pc = .xTxwait) (hc : IrqFlags.txe (s.cache ||| a.irq) = false) :
    deliver (.seq a) s = .next (s.irqRefresh a.irq) :=
  (deliver_txwait a h).trans (congrArg _ (if_neg (ne_true_of_eq_false hc)))

theorem deliver_txwaitEnds (h : s.pc = .xTxwait) (hc : IrqFlags.txe (s.cache ||| a.irq) = true) :
    deliver (.seq a) s = .next ((s.irqRefresh a.irq).enter .xRxswait) :=
  (deliver_txwait a h).trans (congrArg _ (if_pos hc))

theorem deliver_rxswaitEnds (h : s.pc = .xRxswait) (hc : IrqFlags.rxs (s.cache ||| a.irq) = true) :
    deliver (.seq a) s = .next ((s.irqRefresh a.irq).enter .xPoll) :=
  (deliver_rxswait a h).trans (congrArg _ (if_pos hc))

theorem deliver_rxswaitExpires (h : s.pc = .xRxswait) (hc : IrqFlags.rxs (s.cache ||| a.irq) = false)
    (ht : s.elapsed s.req.fwtMs) : deliver (.seq a) s = .next ((s.irqRefresh a.irq).raise .timeout false) :=
  (deliver_rxswait a h).trans (congrArg _ ((if_neg (ne_true_of_eq_false hc)).trans (if_pos ht)))

theorem deliver_rxswaitStays (h : s.pc = .xRxswait) (hc : IrqFlags.rxs (s.cache ||| a.irq) = false)
    (ht : ¬ s.elapsed s.req.fwtMs) : deliver (.seq a) s = .next (s.irqRefresh a.irq) :=
  (deliver_rxswait a h).trans (congrArg _ ((if_neg (ne_true_of_eq_false hc)).trans (if_neg ht)))

theorem deliver_seq_xPoll (h : s.pc = .xPoll) : deliver (.seq a) s = seqPoll a s := by
  simp only [deliver, seqStep, h]

/-- An iteration of X_POLL (R181). -/
theorem deliver_poll (h : s.pc = .xPoll) (hs : s.sub = 0) :
    deliver (.seq a) s = .next (pollChecks (s.irqRefresh a.irq)) := by
  simp only [deliver_seq_xPoll a h, seqPoll, hs]

/-- The end of a Yield (R185). -/
theorem deliver_yieldEnds (h : s.pc = .xPoll) (hs : s.sub = 1) :
    deliver (.seq a) s = .next { s with sub := 0 } := by
  simp only [deliver_seq_xPoll a h, seqPoll, hs]

/-- X_POSTCHK (R186). -/
theorem deliver_postchk (h : s.pc = .xPostchk) : deliver (.seq a) s = .next (postchkChecks a s) := by
  simp only [deliver, seqStep, h, seqPostchk, postchkChecks, FifoStatus.narrow_ovr, FifoStatus.narrow_unf,
    FifoStatus.narrow_nplb, apply_ite Host.Outcome.next]
  rfl

end

/-! ## Step 10 after its check, one equation per position -/

section

variable {s : State} (a : ChipAnswers)

theorem deliver_extractPlain (h : s.pc = .xExtract) (hq : ¬ s.req.isAnticoll) :
    deliver (.seq a) s = extractPlain a s :=
  (deliver_seq_xExtract a h).trans (if_neg hq)

/-- The FIFO read (R244). -/
theorem deliver_plainReads (h : s.pc = .xExtract) (hq : ¬ s.req.isAnticoll) (hs : s.sub = 1) :
    deliver (.seq a) s = .next (fifoReadTo a s.work.n.toNat 0 s).nextSub := by
  simp only [deliver_extractPlain a h hq, extractPlain, hs]

/-- The completion (R245). -/
theorem deliver_plainEnds (h : s.pc = .xExtract) (hq : ¬ s.req.isAnticoll) (hs : s.sub = 2) :
    deliver (.seq a) s = .next (s.complete (8 * s.work.n.toNat)) := by
  simp only [deliver_extractPlain a h hq, extractPlain, hs]

theorem deliver_extractAnticoll (h : s.pc = .xExtract) (hq : s.req.isAnticoll) :
    deliver (.seq a) s = extractAnticoll a s :=
  (deliver_seq_xExtract a h).trans (if_pos hq)

/-- The copy of the whole bytes sent (R248). -/
theorem deliver_prefixCopies (h : s.pc = .xExtract) (hq : s.req.isAnticoll) (hs : s.sub = 1) :
    deliver (.seq a) s = .next (prefixCopy s).nextSub := by
  simp only [deliver_extractAnticoll a h hq, extractAnticoll, hs]

/-- The FIFO read after them (R249). -/
theorem deliver_anticollReads (h : s.pc = .xExtract) (hq : s.req.isAnticoll) (hs : s.sub = 2) :
    deliver (.seq a) s = .next (anticollRead a s).nextSub := by
  simp only [deliver_extractAnticoll a h hq, extractAnticoll, hs]

/-- The partial-byte merge (R250). -/
theorem deliver_merges (h : s.pc = .xExtract) (hq : s.req.isAnticoll) (hs : s.sub = 3) :
    deliver (.seq a) s = .next (partialMerge s).nextSub := by
  simp only [deliver_extractAnticoll a h hq, extractAnticoll, hs]

/-- The collision test (R251). -/
theorem deliver_collisionReads (h : s.pc = .xExtract) (hq : s.req.isAnticoll) (hs : s.sub = 4) :
    deliver (.seq a) s = .next (collisionRead a s).nextSub := by
  simp only [deliver_extractAnticoll a h hq, extractAnticoll, hs]

/-- The completion (R254). -/
theorem deliver_anticollEnds (h : s.pc = .xExtract) (hq : s.req.isAnticoll) (hs : s.sub = 5) :
    deliver (.seq a) s = .next (s.complete (anticollBitCount s)) := by
  simp only [deliver_extractAnticoll a h hq, extractAnticoll, hs]

end

/-! ## The answer's low bits -/

theorem lowBits_eq_ofNat (k : Nat) (b : Byte) : lowBits k b = BitVec.ofNat 8 (b.toNat % 2 ^ k) := by
  apply BitVec.eq_of_toNat_eq
  have := Nat.mod_le b.toNat (2 ^ k)
  have := b.isLt
  rw [lowBits_toNat, BitVec.toNat_ofNat, Nat.mod_eq_of_lt (a := b.toNat % 2 ^ k) (by omega)]

/-! ## The partial byte -/

/-- The byte at FULL takes the low bits sent there, if any were sent; no other byte changes (R250). -/
theorem partialMerge_rxByte {s : State} (h : s.work.rem ≠ 0 → s.work.full.toNat < s.hw.rxbufSize) (k : Nat) :
    (partialMerge s).rxByte k = s.rxByte k |||
      (if s.work.rem ≠ 0 ∧ k = s.work.full.toNat then lowBits s.work.rem.toNat (s.txByte k) else 0) := by
  unfold partialMerge
  by_cases hr : s.work.rem = 0
  case pos => simp [hr]
  case neg =>
    rw [if_neg hr]
    dsimp only
    rw [State.rxByte_rxStore]
    by_cases hk : k = s.work.full.toNat
    · have inBuffer := h hr
      subst hk
      rw [if_pos ⟨Nat.le_refl _, Nat.lt_succ_self _, inBuffer⟩, if_pos ⟨hr, rfl⟩, Nat.sub_self]
      rfl
    · rw [if_neg (by simp only [List.length_singleton]; omega), if_neg (fun hc => hk hc.2)]
      exact BitVec.or_zero.symm

/-! ## The obligations -/

/-- Settles O23: X_RXSWAIT is a timed state. -/
theorem txwaitEvaluation : Obligations.TxwaitEvaluation :=
  fun _ a h => deliver_txwait a h

/-- Settles O24: the frame-waiting time is REQ's, and Timeout alone has a KIND. -/
theorem rxswaitEvaluation : Obligations.RxswaitEvaluation := by
  rintro s a f h rfl
  exact deliver_rxswait a h

/-- Settles O25: the obligation's chain of checks is that of `pollChecks`, error by error. -/
theorem pollChecksInPriorityOrder : Obligations.PollChecksInPriorityOrder := by
  rintro s a r fail h hs rfl hfail
  have yields : (s.irqRefresh a.irq).nextSub = { s.irqRefresh a.irq with sub := 1 } := State.nextSub_of_sub hs
  rw [deliver_poll a h hs, pollChecks, yields]
  simp only [hfail]
  rfl

/-- Settles O26: the Yield's turn returns to position 0. -/
theorem yieldHasNoEffect : Obligations.YieldHasNoEffect :=
  fun _ a h hs => deliver_yieldEnds a h hs

/-- Settles O27: the obligation's snapshot is the answer narrowed to CNT_HI_BITS. -/
theorem postchkReadsAndChecksOnce : Obligations.PostchkReadsAndChecksOnce := by
  intro s a f r fail h _ hf hr hfail
  obtain rfl : f = a.fifoStatus.narrow s.hw := by rw [hf, FifoStatus.narrow, lowBits_eq_ofNat]
  subst hr
  simp only [hfail]
  exact deliver_postchk a h

/-- The mask of the low n bits, as a byte less one. -/
theorem lowMask_eq (n : BitVec 3) : (1#8 <<< n.toNat) - 1 = BitVec.ofNat 8 (2 ^ n.toNat - 1) := by
  revert n; decide

/-- Settles O31: the byte merged in is masked with the low REM bits. -/
theorem partialByteMergeKeepsLowBits : Obligations.PartialByteMergeKeepsLowBits := by
  intro s a hpc hsub hop hfull
  refine ⟨_, deliver_merges a hpc hop hsub, congrArg (· + 1) ((partialMerge_sub s).trans hsub), partialMerge_trace s,
    partialMerge_txbuf s, partialMerge_work s, fun i => ?_⟩
  rw [lowMask_eq]
  refine (partialMerge_rxByte (fun _ => hfull) i).trans ?_
  split
  · rfl
  · exact BitVec.or_zero

end Sys2Proof.Machine
end

section
/-! SUPPORT. Every event keeps states legal: one lemma per kind of change (what no rule of legality speaks of, a
position of `sub`, a move within a command, a completion, a position of step 10, an acceptance, reset), and the moves of
Laws/Moves.lean sorted into these kinds. -/

namespace Sys2Proof.Machine

/-! ## The parts of legality -/

/-- What a completion takes over from the state before it. -/
abbrev State.Kept (s : State) : Prop := s.hw.ok ∧ s.BuffersOk ∧ s.WidthsOk

section

variable {s : State} (h : s.Legal)
include h

theorem State.Legal.kept : s.Kept := by
  obtain ⟨hw, buffers, -, -, -, -, widths, -⟩ := h
  exact ⟨hw, buffers, widths⟩

theorem State.Legal.session_of_pc {p : FsmState} (hp : s.pc = p) : s.session = p.inSession := by
  obtain ⟨-, -, session, -⟩ := h
  rw [session, hp]

theorem State.Legal.sub_lt : s.sub < s.subCount := by
  obtain ⟨-, -, -, sub, -⟩ := h
  exact sub

theorem State.Legal.requestOk : s.RequestOk := by
  obtain ⟨-, -, -, -, request, -⟩ := h
  exact request

theorem State.Legal.done_of_busy (hb : s.busy = true) : s.status.done = false := by
  obtain ⟨-, -, -, -, -, ⟨busy, -⟩, -⟩ := h
  exact (busy hb).2.2

theorem State.Legal.result_of_busy (hb : s.busy = true) : s.result = {} := by
  obtain ⟨-, -, -, -, -, ⟨busy, -⟩, -⟩ := h
  exact (busy hb).1

theorem State.Legal.snapshotOk : s.SnapshotOk := by
  obtain ⟨-, -, -, -, -, -, -, snapshot, -⟩ := h
  exact snapshot

theorem State.Legal.extractOk : s.ExtractOk := by
  obtain ⟨-, -, -, -, -, -, -, -, extract⟩ := h
  exact extract

end

/-! ## Changes legality does not see -/

/-- Legality speaks of none of these fields but DONE, which is clear while BUSY. -/
theorem State.Legal.frame {s : State} (h : s.Legal) {status : StatusBits} {txlen rxcap : BitVec 16}
    {irqen : IrqEnable} {cache : IrqFlags} {tmr : BitVec 32} {trace : List ChipTxn}
    {responses : List HostResponse} {inputs : List Event} {draws : Nat}
    (hd : s.busy = true → status.done = false) :
    State.Legal { s with
      status := status, txlen := txlen, rxcap := rxcap, irqen := irqen, cache := cache, tmr := tmr, trace := trace
      responses := responses, inputs := inputs, draws := draws } := by
  obtain ⟨hw, buffers, session, sub, request, ⟨busy, result⟩, widths, snapshot, extract⟩ := h
  exact ⟨hw, buffers, session, sub, request, ⟨fun hb => ⟨(busy hb).1, (busy hb).2.1, hd hb⟩, result⟩, widths, snapshot,
    extract⟩

section

variable {s : State} (h : s.Legal)
include h

theorem State.Legal.perform (x : ChipTxn) : (s.perform x).Legal := h.frame h.done_of_busy
theorem State.Legal.irqRefresh (l : IrqFlags) : (s.irqRefresh l).Legal := h.frame h.done_of_busy
theorem State.Legal.irqClearAll : s.irqClearAll.Legal := h.frame h.done_of_busy
theorem State.Legal.clearCache : s.clearCache.Legal := h.frame h.done_of_busy
theorem State.Legal.respond (r : HostResponse) : (s.respond r).Legal := h.frame h.done_of_busy
theorem State.Legal.tick : s.tick.Legal := h.frame h.done_of_busy
theorem State.Legal.pending (es : List Event) (n : Nat) : State.Legal { s with inputs := es, draws := n } :=
  h.frame h.done_of_busy

end

/-! ## Positions of `sub` -/

section

variable {s : State}

theorem State.subCount_sField (h : s.pc = .sField) : s.subCount = 2 := by simp only [State.subCount, h]
theorem State.subCount_tStop (h : s.pc = .tStop) : s.subCount = 2 := by simp only [State.subCount, h]
theorem State.subCount_xReset (h : s.pc = .xReset) : s.subCount = 3 := by simp only [State.subCount, h]
theorem State.subCount_xPoll (h : s.pc = .xPoll) : s.subCount = 2 := by simp only [State.subCount, h]

theorem State.subCount_xProgram {v : Variant} (h : s.pc = .xProgram) (hv : s.req.variant = some v) :
    s.subCount = (programTxns s v).length := by
  simp only [State.subCount, h, hv]

theorem State.subCount_notBusy (hb : s.busy = false) : s.subCount = 1 := by
  cases hp : s.pc with
  | idle | ready => simp only [State.subCount, hp]
  | _ => rw [State.busy, hp] at hb; cases hb

theorem State.subCount_plain (h : s.pc = .xExtract) (hq : ¬ s.req.isAnticoll) : s.subCount = 3 := by
  simp only [State.subCount, h, if_neg hq]

theorem State.subCount_anticoll (h : s.pc = .xExtract) (hq : s.req.isAnticoll) : s.subCount = 6 := by
  simp only [State.subCount, h, if_pos hq]

end

/-- Outside X_EXTRACT, whose positions have facts of their own, any position of the state will do. -/
theorem State.Legal.withSub {s : State} (h : s.Legal) {k : Nat} (hp : s.pc ≠ .xExtract) (hk : k < s.subCount) :
    State.Legal { s with sub := k } := by
  obtain ⟨hw, buffers, session, -, request, result, widths, snapshot, -⟩ := h
  exact ⟨hw, buffers, session, hk, request, result, widths, snapshot, fun he => absurd he hp⟩

theorem State.Legal.nextSub {s : State} (h : s.Legal) {p : FsmState} {n : Nat} (hp : s.pc = p) (hx : p ≠ .xExtract)
    (hc : s.subCount = n) (hk : s.sub + 1 < n) : s.nextSub.Legal :=
  h.withSub (hp ▸ hx) (hc ▸ hk)

/-- Every state has a first position: X_PROGRAM's list is not empty. -/
theorem State.subCount_pos {s : State} (h : s.pc.exchange = true → s.req.variant ≠ none) : 0 < s.subCount := by
  unfold State.subCount
  split
  case h_3 hp =>
    split
    case h_1 none => exact absurd none (h (by rw [hp]; rfl))
    case h_2 v _ => cases v <;> exact Nat.succ_pos _
  case h_5 => split <;> decide
  all_goals decide

/-- Nothing is asked of the snapshot before X_COUNT. -/
theorem State.snapshotOk_of_pc {s : State} (h : s.pc ≠ .xCount ∧ s.pc ≠ .xExtract) : s.SnapshotOk :=
  ⟨fun he => he.elim (absurd · h.1) (absurd · h.2), fun he => absurd he h.2⟩

/-! ## Moves within a command -/

/-- Two states of one command, the second entered from the first. -/
def FsmState.continues (p q : FsmState) : Bool :=
  p.busy && q.busy && p.opening == q.opening && p.exchange == q.exchange && p.inSession == q.inSession
    && q != .tStop

/-- A move within a command, with the registers of steps 8 and 9 as the move leaves them. -/
theorem State.Legal.enter_with {s : State} (h : s.Legal) {p q : FsmState} {work : WorkRegs} {fifostat : FifoStatReg}
    {rxcount : BitVec 16} {trace : List ChipTxn} (hp : s.pc = p) (hc : p.continues q = true)
    (hw : State.WidthsOk { s with work := work, fifostat := fifostat })
    (hs : State.SnapshotOk { s with pc := q, work := work, fifostat := fifostat, rxcount := rxcount }) :
    (State.enter q { s with work := work, fifostat := fifostat, rxcount := rxcount, trace := trace }).Legal := by
  obtain ⟨params, buffers, session, -, ⟨opens, -, exchanges⟩, ⟨busy, result⟩, -⟩ := h
  simp only [FsmState.continues, Bool.and_eq_true, beq_iff_eq, bne_iff_ne] at hc
  obtain ⟨⟨⟨⟨⟨pBusy, -⟩, opening⟩, exchange⟩, inSession⟩, notStop⟩ := hc
  rw [hp] at session opens exchanges
  have running : s.busy = true := (congrArg FsmState.busy hp).trans pBusy
  have request (hx : q.exchange = true) := exchanges (exchange.trans hx)
  exact ⟨params, buffers, session.trans inSession, State.subCount_pos fun hx => (request hx).1,
    ⟨fun ho => opens (opening.trans ho), fun hq => absurd hq notStop, request⟩,
    ⟨fun _ => busy running, result⟩, hw, hs, fun _ hsub => absurd hsub (Nat.not_succ_le_zero 0)⟩

/-- A move to a state before the snapshot. -/
theorem State.Legal.enter {s : State} (h : s.Legal) {p q : FsmState} (hp : s.pc = p)
    (hc : p.continues q = true) (hq : q ≠ .xCount ∧ q ≠ .xExtract) : (s.enter q).Legal :=
  h.enter_with hp hc h.kept.2.2 (State.snapshotOk_of_pc hq)

/-! ## Completions -/

/-- RESULT's codes and BITCOUNT as R131, R132, R276 and R44 allow them. -/
abbrev ResultReg.Coded (r : ResultReg) (b : Word) : Prop :=
  r.err.toNat ≤ 10 ∧ r.serr.toNat ≤ 1 ∧ r.kind = decide (r.err = 1) ∧ (r.tosrc = true → r.err = 1)
    ∧ (r.err ≠ 0 ∨ r.serr ≠ 0 → b = 0)

theorem State.Kept.finish {s : State} (h : s.Kept) {r : ResultReg} {b : Word} {p : FsmState}
    (hp : p = .idle ∨ p = .ready) (hs : s.session = p.inSession) (hr : r.Coded b) : (s.finish r b p).Legal := by
  obtain ⟨hw, buffers, widths⟩ := h
  rcases hp with rfl | rfl
  all_goals
    refine ⟨hw, buffers, hs, Nat.one_pos, ⟨?_, ?_, ?_⟩, ⟨?_, hr⟩, widths, ⟨?_, ?_⟩, ?_⟩ <;>
      simp [State.busy, FsmState.busy, FsmState.opening, FsmState.exchange]

theorem ResultReg.coded_noError (op : BitVec 4) (b : Word) : ResultReg.Coded { op := op } b :=
  ⟨Nat.zero_le _, Nat.zero_le _, rfl, by simp, by simp⟩

theorem ResultReg.coded_startFailed (op : BitVec 4) : ResultReg.Coded { serr := serrFieldCollision, op := op } 0 :=
  ⟨Nat.zero_le _, Nat.le_refl 1, rfl, by simp, fun _ => rfl⟩

theorem ExchangeError.code_le (e : ExchangeError) : e.code.toNat ≤ 10 := by cases e <;> decide

theorem ExchangeError.code_eq_one_iff (e : ExchangeError) : e.code = 1 ↔ e = .timeout := by cases e <;> decide

theorem ExchangeError.coded (e : ExchangeError) {src : Bool} (hs : src = true → e = .timeout) (op : BitVec 4) :
    ResultReg.Coded { err := e.code, kind := decide (e = .timeout), tosrc := src, op := op } 0 :=
  ⟨e.code_le, Nat.zero_le _, decide_eq_decide.mpr e.code_eq_one_iff.symm,
    fun h => e.code_eq_one_iff.mpr (hs h), fun _ => rfl⟩

theorem State.Kept.raise {s : State} (h : s.Kept) (hs : s.session = true) {e : ExchangeError} {src : Bool}
    (he : src = true → e = .timeout) : (s.raise e src).Legal :=
  h.finish (.inr rfl) hs (e.coded he _)

theorem State.Kept.complete {s : State} (h : s.Kept) (hs : s.session = true) (b : Nat) : (s.complete b).Legal :=
  h.finish (.inr rfl) hs (ResultReg.coded_noError _ _)

/-! ## Steps 8 to 10 -/

/-- The snapshot is taken within CNT_HI_BITS (R186). -/
theorem State.Legal.kept_takeSnapshot {s : State} (h : s.Legal) (f : FifoStatus) :
    (s.takeSnapshot (f.narrow s.hw)).Kept := by
  obtain ⟨hw, buffers, ⟨-, -, collpos, cpos⟩⟩ := h.kept
  exact ⟨hw, buffers, f.narrow_cntHi_lt s.hw, f.narrow_cntHi_lt s.hw, collpos, cpos⟩

/-- The snapshot is clean and shown when X_COUNT is entered (R186). -/
theorem State.Legal.takeSnapshot_enter {s : State} (h : s.Legal) (hp : s.pc = .xPostchk) {f : FifoStatus}
    (hf : f.ovr = false ∧ f.unf = false ∧ f.nplb = false) :
    ((s.takeSnapshot (f.narrow s.hw)).enter .xCount).Legal :=
  h.enter_with hp rfl (h.kept_takeSnapshot f).2.2 ⟨fun _ => ⟨rfl, hf⟩, fun he => absurd he (by simp)⟩

/-- COUNT is the snapshot's and shown when X_EXTRACT is entered (R187). -/
theorem State.Legal.composeCount_enter {s : State} (h : s.Legal) (hp : s.pc = .xCount) :
    (s.composeCount.enter .xExtract).Legal := by
  obtain ⟨clean, -⟩ := h.snapshotOk
  exact h.enter_with hp rfl h.kept.2.2 ⟨fun _ => clean (.inl hp), fun _ => ⟨rfl, rfl⟩⟩

/-- A further position of X_EXTRACT, with the registers of step 10 as the position leaves them. -/
theorem State.Legal.extract {s : State} (h : s.Legal) {k : Nat} {work : WorkRegs}
    {collpos : CollPosReg} {rxbuf : Memory} {trace : List ChipTxn} (hk : k < s.subCount)
    (same : work.snap = s.work.snap ∧ work.count = s.work.count) (hb : rxbuf.wf ∧ rxbuf.within s.hw.rxbufSize)
    (hc : collpos.pos.cbyte.toNat < 2 ^ s.hw.cbyteBits ∧ work.cpos.cbyte.toNat < 2 ^ s.hw.cbyteBits)
    (hx : State.ExtractOk { s with sub := 1, work := work }) :
    State.Legal { s with sub := k, work := work, collpos := collpos, rxbuf := rxbuf, trace := trace } := by
  obtain ⟨hw, ⟨txWf, txWithin, -⟩, session, -, request, result, ⟨shown, held, -⟩, snapshot, -⟩ := h
  obtain ⟨sameSnap, sameCount⟩ := same
  refine ⟨hw, ⟨txWf, txWithin, hb⟩, session, hk, request, result, ⟨shown, ?_, hc⟩, ?_,
    fun he _ => hx he (Nat.le_refl 1)⟩
  · exact (congrArg (·.cntHi.toNat < 2 ^ s.hw.cntHiBits) sameSnap).mpr held
  · simpa only [State.SnapshotOk, sameSnap, sameCount] using snapshot

/-! ### What each operation of step 10 leaves of the buffers -/

section

variable {s : State} (h : s.Legal)
include h

theorem State.Legal.rxbuf_ok : s.rxbuf.wf ∧ s.rxbuf.within s.hw.rxbufSize := by
  obtain ⟨-, ⟨-, -, rx⟩, -⟩ := h
  exact rx

theorem State.Legal.rxStore_ok (i : Nat) (bs : List Byte) :
    (bufWriteList s.hw.rxbufSize s.rxbuf i bs).wf
      ∧ (bufWriteList s.hw.rxbufSize s.rxbuf i bs).within s.hw.rxbufSize :=
  bufWriteList_ok _ bs _ i h.rxbuf_ok.1 h.rxbuf_ok.2

theorem State.Legal.fifoReadTo_eq (a : ChipAnswers) (n i : Nat) :
    ∃ m trace, (m.wf ∧ m.within s.hw.rxbufSize) ∧ fifoReadTo a n i s = { s with rxbuf := m, trace := trace } := by
  unfold fifoReadTo
  split
  · exact ⟨s.rxbuf, s.trace, h.rxbuf_ok, rfl⟩
  · exact ⟨_, _, h.rxStore_ok i _, rfl⟩

theorem State.Legal.partialMerge_eq :
    ∃ m, (m.wf ∧ m.within s.hw.rxbufSize) ∧ partialMerge s = { s with rxbuf := m } := by
  unfold partialMerge
  split
  · exact ⟨s.rxbuf, h.rxbuf_ok, rfl⟩
  · refine ⟨_, ?_, rfl⟩
    exact h.rxStore_ok _ _

theorem State.Legal.cpos_lt :
    s.collpos.pos.cbyte.toNat < 2 ^ s.hw.cbyteBits ∧ s.work.cpos.cbyte.toNat < 2 ^ s.hw.cbyteBits := by
  obtain ⟨-, -, -, -, cpos⟩ := h.kept
  exact cpos

theorem State.Legal.collisionRead_eq (a : ChipAnswers) :
    ∃ (c : CollPosReg) (p : CollPos) (trace : List ChipTxn),
      (c.pos.cbyte.toNat < 2 ^ s.hw.cbyteBits ∧ p.cbyte.toNat < 2 ^ s.hw.cbyteBits)
        ∧ collisionRead a s = { s with collpos := c, work := { s.work with cpos := p }, trace := trace } := by
  unfold collisionRead
  split
  · exact ⟨_, _, _, ⟨CollPos.narrow_cbyte_lt _ _, CollPos.narrow_cbyte_lt _ _⟩, rfl⟩
  · exact ⟨s.collpos, s.work.cpos, s.trace, h.cpos_lt, rfl⟩

/-! ### The positions of step 10 -/

theorem State.Legal.plainFits (hp : s.pc = .xExtract) (hq : ¬ s.req.isAnticoll) (hs : s.sub = 0)
    (hc : ¬ s.req.isRaw → Config.crcLen ≤ s.work.count.toNat) (hr : (plainLength s).toNat ≤ s.req.rxcap.toNat) :
    (s.setN (plainLength s)).nextSub.Legal := by
  refine h.extract ?_ ⟨rfl, rfl⟩ h.rxbuf_ok h.cpos_lt fun _ _ => ?_
  · rw [State.subCount_plain hp hq, State.setN_sub, hs]; decide
  · rw [if_neg hq]; exact ⟨plainLength_toNat s hc, hc, hr⟩

theorem State.Legal.plainReads (a : ChipAnswers) (hp : s.pc = .xExtract) (hq : ¬ s.req.isAnticoll) (hs : s.sub = 1) :
    (fifoReadTo a s.work.n.toNat 0 s).nextSub.Legal := by
  obtain ⟨m, trace, ok, read⟩ := h.fifoReadTo_eq a s.work.n.toNat 0
  rw [read]
  refine h.extract ?_ ⟨rfl, rfl⟩ ok h.cpos_lt fun _ _ => h.extractOk hp hs.ge
  show s.sub + 1 < _
  rw [State.subCount_plain hp hq, hs]; decide

theorem State.Legal.anticollFits (hp : s.pc = .xExtract) (hq : s.req.isAnticoll) (hs : s.sub = 0)
    (hc : anticollNeed s.req.fullBytes s.req.remBits s.work.count.toNat ≤ s.req.rxcap.toNat) :
    s.splitPrefix.nextSub.Legal := by
  refine h.extract ?_ ⟨rfl, rfl⟩ h.rxbuf_ok h.cpos_lt fun _ _ => ?_
  · rw [State.subCount_anticoll hp hq, State.splitPrefix_sub, hs]; decide
  · rw [if_pos hq]; exact ⟨splitPrefix_full_toNat s, splitPrefix_rem_toNat s, hc⟩

/-- Past the check, ANTICOLL's positions keep FULL, REM and COUNT. -/
theorem State.Legal.anticoll_next (hp : s.pc = .xExtract) (hq : s.req.isAnticoll) (h1 : 1 ≤ s.sub) (h5 : s.sub < 5)
    {n : BitVec 16} {cpos : CollPos} {collpos : CollPosReg} {rxbuf : Memory} {trace : List ChipTxn}
    (hb : rxbuf.wf ∧ rxbuf.within s.hw.rxbufSize)
    (hc : collpos.pos.cbyte.toNat < 2 ^ s.hw.cbyteBits ∧ cpos.cbyte.toNat < 2 ^ s.hw.cbyteBits) :
    State.Legal { s with
      sub := s.sub + 1, work := { s.work with n := n, cpos := cpos }, collpos := collpos, rxbuf := rxbuf
      trace := trace } := by
  refine h.extract ?_ ⟨rfl, rfl⟩ hb hc fun _ _ => ?_
  · rw [State.subCount_anticoll hp hq]; omega
  · have past := h.extractOk hp h1
    rw [if_pos hq] at past ⊢
    exact past

theorem State.Legal.prefixCopies (hp : s.pc = .xExtract) (hq : s.req.isAnticoll) (hs : s.sub = 1) :
    (prefixCopy s).nextSub.Legal :=
  h.anticoll_next hp hq (by omega) (by omega) (h.rxStore_ok 0 _) h.cpos_lt

theorem State.Legal.anticollReads (a : ChipAnswers) (hp : s.pc = .xExtract) (hq : s.req.isAnticoll) (hs : s.sub = 2) :
    (anticollRead a s).nextSub.Legal := by
  obtain ⟨m, trace, ok, read⟩ := h.fifoReadTo_eq a s.work.count.toNat s.work.full.toNat
  rw [anticollRead, read]
  exact h.anticoll_next hp hq (by omega) (by omega) ok h.cpos_lt

theorem State.Legal.merges (hp : s.pc = .xExtract) (hq : s.req.isAnticoll) (hs : s.sub = 3) :
    (partialMerge s).nextSub.Legal := by
  obtain ⟨m, ok, merge⟩ := h.partialMerge_eq
  rw [merge]
  exact h.anticoll_next hp hq (by omega) (by omega) ok h.cpos_lt

theorem State.Legal.collisionReads (a : ChipAnswers) (hp : s.pc = .xExtract) (hq : s.req.isAnticoll)
    (hs : s.sub = 4) : (collisionRead a s).nextSub.Legal := by
  obtain ⟨c, p, trace, ok, read⟩ := h.collisionRead_eq a
  rw [read]
  exact h.anticoll_next hp hq (by omega) (by omega) h.rxbuf_ok ok

end

/-! ## Turns of SEQ -/

theorem SeqMove.legal {a : ChipAnswers} {s t : State} (h : s.Legal) (hm : SeqMove a s t) : t.Legal := by
  cases hm with
  | rest | guardHolds | predelayHolds => exact h
  | modeOn hp => exact (h.perform _).enter hp rfl (by simp)
  | fieldOn hp => exact (h.perform _).enter hp rfl (by simp)
  | fieldCollision hp hs =>
    exact (h.nextSub hp (by simp) (State.subCount_sField hp) (by omega)).perform _
  | startFails hp hs =>
    exact h.kept.finish (.inl rfl) (h.session_of_pc hp :) (ResultReg.coded_startFailed _)
  | startEnds hp => exact State.Kept.finish (s := s.setSession true) h.kept (.inr rfl) rfl (ResultReg.coded_noError _ _)
  | fieldOff hp hs => exact (h.nextSub hp (by simp) (State.subCount_tStop hp) (by omega)).perform _
  | stopEnds hp =>
    exact State.Kept.finish (s := (s.perform .modeOff).setSession false) h.kept (.inl rfl) rfl (ResultReg.coded_noError _ _)
  | predelayEnds hp => exact h.enter hp rfl (by simp)
  | resetStop hp hs => exact (h.nextSub hp (by simp) (State.subCount_xReset hp) (by omega)).perform _
  | resetGain hp hs => exact (h.nextSub hp (by simp) (State.subCount_xReset hp) (by omega)).perform _
  | resetClear hp hs => exact h.irqClearAll.enter hp rfl (by simp)
  | program v x hp hv hx hl =>
    obtain ⟨inList, -⟩ := List.getElem?_eq_some_iff.mp hx
    exact (h.nextSub hp (by simp) (State.subCount_xProgram hp hv) (by omega)).perform x
  | programEnds v x hp => exact (h.perform x).enter hp rfl (by simp)
  | dispatch v hp => exact (h.perform _).clearCache.enter hp rfl (by simp)
  | txwaitStays => exact h.irqRefresh _
  | txwaitEnds hp => exact (h.irqRefresh _).enter hp rfl (by simp)
  | rxswaitEnds hp => exact (h.irqRefresh _).enter hp rfl (by simp)
  | rxswaitExpires hp => exact (h.irqRefresh _).kept.raise (h.session_of_pc hp) (fun _ => rfl)
  | rxswaitStays => exact h.irqRefresh _
  | pollFails e src hp _ he => exact (h.irqRefresh _).kept.raise (h.session_of_pc hp) he
  | pollEnds hp => exact (h.irqRefresh _).enter hp rfl (by simp)
  | pollYields hp hs => exact (h.nextSub hp (by simp) (State.subCount_xPoll hp) (by omega)).irqRefresh _
  | yieldEnds hp => exact h.withSub (by simp [hp]) (by rw [State.subCount_xPoll hp]; decide)
  | postchkFails e hp => exact (h.kept_takeSnapshot _).raise (h.session_of_pc hp) (by simp)
  | postchkEnds hp hf => exact h.takeSnapshot_enter hp hf
  | count hp => exact h.composeCount_enter hp
  | plainTooShort hp => exact h.kept.raise (h.session_of_pc hp) (by simp)
  | plainTooLong hp => exact State.Kept.raise (s := s.setN (plainLength s)) h.kept (h.session_of_pc hp) (by simp)
  | plainFits hp hq hs hc hr => exact h.plainFits hp hq hs hc hr
  | plainReads hp hq hs => exact h.plainReads a hp hq hs
  | plainEnds hp => exact h.kept.complete (h.session_of_pc hp) _
  | anticollFails hp => exact State.Kept.raise (s := s.splitPrefix) h.kept (h.session_of_pc hp) (by simp)
  | anticollFits hp hq hs hc => exact h.anticollFits hp hq hs hc
  | prefixCopies hp hq hs => exact h.prefixCopies hp hq hs
  | anticollReads hp hq hs => exact h.anticollReads a hp hq hs
  | merges hp hq hs => exact h.merges hp hq hs
  | collisionReads hp hq hs => exact h.collisionReads a hp hq hs
  | anticollEnds hp => exact h.kept.complete (h.session_of_pc hp) _

/-! ## Acceptance -/

/-- The acceptance of a command, with RXCOUNT, FIFOSTAT and COLLPOS as the command's kind leaves them. -/
theorem State.Kept.accept {s : State} {p : FsmState} {req : Request} {rxcount : BitVec 16} {fifostat : FifoStatReg}
    {collpos : CollPosReg} {tmr : BitVec 32} (h : State.Kept { s with fifostat := fifostat, collpos := collpos })
    (hs : s.session = p.inSession) (hp : p = .sMode ∨ p = .tStop ∨ p = .xPredelay)
    (hr : State.RequestOk { s with pc := p, req := req }) :
    State.Legal { s with
      req := req, status := { s.status with done := false }, result := {}, bitcount := 0
      rxcount := rxcount, fifostat := fifostat, collpos := collpos, sub := 0, pc := p, tmr := tmr } := by
  obtain ⟨hw, buffers, widths⟩ := h
  obtain ⟨opens, stops, exchanges⟩ := hr
  refine ⟨hw, buffers, hs, State.subCount_pos fun hx => (exchanges hx).1, ⟨opens, stops, exchanges⟩,
    ⟨fun _ => ⟨rfl, rfl, rfl⟩, ResultReg.coded_noError 0 0⟩, widths, ?_, fun _ hsub => absurd hsub (by simp)⟩
  refine State.snapshotOk_of_pc ?_
  rcases hp with rfl | rfl | rfl <;> simp

/-- The diagnostics that an exchange's acceptance clears are within their widths. -/
theorem State.Kept.clearDiagnostics {s : State} (h : s.Kept) :
    State.Kept { s with fifostat := {}, collpos := {} } := by
  obtain ⟨hw, buffers, ⟨-, snap, -, cpos⟩⟩ := h
  exact ⟨hw, buffers, Nat.two_pow_pos _, snap, Nat.two_pow_pos _, cpos⟩

theorem State.Legal.acceptSession_sstart {s : State} (h : s.Legal) (hp : preconditions s .sstart) :
    (s.acceptSession (encode .sstart) .sMode).Legal :=
  h.kept.accept hp.2 (.inl rfl) ⟨fun _ => rfl, nofun, nofun⟩

theorem State.Legal.acceptSession_sstop {s : State} (h : s.Legal) (hp : preconditions s .sstop) :
    (s.acceptSession (encode .sstop) .tStop).Legal :=
  h.kept.accept hp.2 (.inr (.inl rfl)) ⟨nofun, fun _ => rfl, nofun⟩

/-- The latched request of an exchange is within the limits that its preconditions set (R55, R129). -/
theorem latchedRequest_ok {s : State} {i : Instr} (hi : i ≠ .sstart ∧ i ≠ .sstop) (hp : preconditions s i) :
    State.RequestOk { s with pc := .xPredelay, req := latchedRequest s i } := by
  refine ⟨nofun, nofun, fun _ => ?_⟩
  cases i with
  | sstart => exact absurd rfl hi.1
  | sstop => exact absurd rfl hi.2
  | reqa =>
    obtain ⟨-, -, capacity⟩ := hp
    have hv : (latchedRequest s .reqa).variant = some .reqa := Request.variant_of_op rfl
    exact ⟨by simp [hv], capacity, by simp [hv], by simp [hv]⟩
  | wupa =>
    obtain ⟨-, -, capacity⟩ := hp
    have hv : (latchedRequest s .wupa).variant = some .wupa := Request.variant_of_op rfl
    exact ⟨by simp [hv], capacity, by simp [hv], by simp [hv]⟩
  | anticoll bits =>
    obtain ⟨-, -, capacity, limits⟩ := hp
    have hv : (latchedRequest s (.anticoll bits)).variant = some .anticoll := Request.variant_of_op rfl
    exact ⟨by simp [hv], capacity, fun _ => limits, by simp [hv]⟩
  | xchg fwt =>
    obtain ⟨-, -, capacity, limit⟩ := hp
    have hv : (latchedRequest s (.xchg fwt)).variant = some .xchg := Request.variant_of_op rfl
    exact ⟨by simp [hv], capacity, by simp [hv], fun _ => limit⟩

/-- An exchange needs an open session (R129). -/
theorem session_of_preconditions {s : State} {i : Instr} (hi : i ≠ .sstart ∧ i ≠ .sstop) (hp : preconditions s i) :
    s.session = true := by
  cases i with
  | sstart => exact absurd rfl hi.1
  | sstop => exact absurd rfl hi.2
  | reqa | wupa | anticoll _ | xchg _ => exact hp.2.1

theorem State.Legal.acceptExchange {s : State} (h : s.Legal) {i : Instr} (hi : i ≠ .sstart ∧ i ≠ .sstop)
    (hp : preconditions s i) : (s.acceptExchange (encode i)).Legal := by
  rw [acceptExchange_encode]
  exact h.kept.clearDiagnostics.accept (session_of_preconditions hi hp) (.inr (.inr rfl)) (latchedRequest_ok hi hp)

/-! ## Host accesses, ticks and reset -/

/-- While no command runs, legality of the buffers is all that a window write touches. -/
theorem State.Legal.buffers {s : State} (h : s.Legal) {txbuf rxbuf : Memory} (hb : s.busy = false)
    (ht : txbuf.wf ∧ txbuf.within s.hw.txbufSize) (hr : rxbuf.wf ∧ rxbuf.within s.hw.rxbufSize) :
    State.Legal { s with txbuf := txbuf, rxbuf := rxbuf } := by
  obtain ⟨hw, -, session, sub, request, result, widths, snapshot, extract⟩ := h
  have onePosition := (State.subCount_notBusy hb).trans
    (State.subCount_notBusy (s := { s with txbuf := txbuf, rxbuf := rxbuf }) hb).symm
  exact ⟨hw, ⟨ht.1, ht.2, hr⟩, session, Nat.lt_of_lt_of_eq sub onePosition, request, result, widths, snapshot, extract⟩

theorem State.Legal.txbuf_ok {s : State} (h : s.Legal) : s.txbuf.wf ∧ s.txbuf.within s.hw.txbufSize := by
  obtain ⟨-, ⟨wf, within, -⟩, -⟩ := h
  exact ⟨wf, within⟩

theorem HostMove.legal {a : HostAccess} {s t : State} (h : s.Legal) (hm : HostMove a s t) : t.Legal := by
  have answered : (s.respond .done).Legal := h.respond .done
  cases hm with
  | busError => exact h.frame h.done_of_busy
  | answers r => exact h.respond r
  | drops => exact h.frame h.done_of_busy
  | rejects => exact h.frame h.done_of_busy
  | starts w _ _ hp => exact answered.acceptSession_sstart hp
  | stops w _ _ hp => exact answered.acceptSession_sstop hp
  | exchanges w i _ _ hi hp => exact answered.acceptExchange hi ((preconditions_respond .done s i).mpr hp)
  | clears v => exact h.frame fun hb => by rw [StatusBits.clearBy, State.respond_status, h.done_of_busy hb]; rfl
  | setsTxlen v => exact h.frame h.done_of_busy
  | setsRxcap v => exact h.frame h.done_of_busy
  | setsIrqen v => exact h.frame h.done_of_busy
  | writesTx i bs hb =>
    exact answered.buffers hb (bufWriteList_ok _ bs _ i h.txbuf_ok.1 h.txbuf_ok.2) h.rxbuf_ok
  | writesRx i bs hb => exact answered.buffers hb h.txbuf_ok (h.rxStore_ok i bs)

theorem resetStep_legal {s : State} (hw : s.hw.ok) (tx rx : List Byte) : (s.resetStep tx rx).Legal := by
  have blank (size : Nat) (bs : List Byte) :
      (bufWriteList size [] 0 bs).wf ∧ (bufWriteList size [] 0 bs).within size :=
    bufWriteList_ok size bs [] 0 Memory.wf_nil (by simp)
  have tx := blank s.hw.txbufSize tx
  refine ⟨hw, ⟨tx.1, tx.2, blank s.hw.rxbufSize rx⟩, rfl, Nat.one_pos,
    ⟨nofun, nofun, nofun⟩,
    ⟨nofun, ResultReg.coded_noError 0 0⟩,
    ⟨Nat.two_pow_pos _, Nat.two_pow_pos _, Nat.two_pow_pos _, Nat.two_pow_pos _⟩, State.snapshotOk_of_pc ?_, nofun⟩
  exact ⟨nofun, nofun⟩

/-! ## Progress -/

/-- A position inside the list has its transaction. -/
theorem performAt_next {txns : List ChipTxn} {s : State} (p : FsmState) (h : s.sub < txns.length) :
    ∃ t, performAt txns p s = .next t := by
  unfold performAt
  rw [List.getElem?_eq_getElem h]
  dsimp only
  split <;> exact ⟨_, rfl⟩

/-- From a legal state a turn of SEQ has a rule: `sub` is in range and REQ is the executing command's. -/
theorem State.Legal.seq_next {s : State} (h : s.Legal) (a : ChipAnswers) : ∃ t, deliver (.seq a) s = .next t := by
  have position := h.sub_lt
  obtain ⟨-, -, exchanges⟩ := h.requestOk
  cases hp : s.pc with
  | idle | ready => exact ⟨s, by simp only [deliver, seqStep, hp]⟩
  | sMode => exact ⟨_, deliver_modeOn a hp⟩
  | sField =>
    rw [State.subCount_sField hp] at position
    obtain hs | hs : s.sub = 0 ∨ s.sub = 1 := by omega
    · cases ha : a.field with
      | ok => exact ⟨_, deliver_fieldOn a hp hs ha⟩
      | fieldCollision => exact ⟨_, deliver_fieldCollision a hp hs ha⟩
    · exact ⟨_, deliver_startFails a hp hs⟩
  | sGuard =>
    rcases Decidable.em (s.elapsed Config.tGuardMs) with ht | ht
    · exact ⟨_, deliver_startEnds a hp ht⟩
    · exact ⟨_, deliver_guardHolds a hp ht⟩
  | xPredelay =>
    rcases Decidable.em (s.elapsed Config.tIfsMs) with ht | ht
    · exact ⟨_, deliver_predelayEnds a hp ht⟩
    · exact ⟨_, deliver_predelayHolds a hp ht⟩
  | xReset =>
    rw [State.subCount_xReset hp] at position
    obtain hs | hs | hs : s.sub = 0 ∨ s.sub = 1 ∨ s.sub = 2 := by omega
    · exact ⟨_, deliver_resetStop a hp hs⟩
    · exact ⟨_, deliver_resetGain a hp hs⟩
    · exact ⟨_, deliver_resetClear a hp hs⟩
  | xProgram =>
    obtain ⟨v, hv⟩ := Option.ne_none_iff_exists'.mp (exchanges (by rw [hp]; rfl)).1
    rw [State.subCount_xProgram hp hv] at position
    rw [deliver_seq_xProgram a hp hv]
    exact performAt_next _ position
  | xDispatch =>
    obtain ⟨v, hv⟩ := Option.ne_none_iff_exists'.mp (exchanges (by rw [hp]; rfl)).1
    exact ⟨_, deliver_dispatch a hp hv⟩
  | xTxwait => exact ⟨_, deliver_txwait a hp⟩
  | xRxswait => exact ⟨_, deliver_rxswait a hp⟩
  | xPoll =>
    rw [State.subCount_xPoll hp] at position
    obtain hs | hs : s.sub = 0 ∨ s.sub = 1 := by omega
    · exact ⟨_, deliver_poll a hp hs⟩
    · exact ⟨_, deliver_yieldEnds a hp hs⟩
  | xPostchk => exact ⟨_, deliver_postchk a hp⟩
  | xCount => exact ⟨_, deliver_count a hp⟩
  | xExtract =>
    rcases Decidable.em s.req.isAnticoll with hq | hq
    · rw [State.subCount_anticoll hp hq] at position
      obtain hs | hs | hs | hs | hs | hs :
        s.sub = 0 ∨ s.sub = 1 ∨ s.sub = 2 ∨ s.sub = 3 ∨ s.sub = 4 ∨ s.sub = 5 := by omega
      · exact ⟨_, deliver_anticollCheck a hp hs hq⟩
      · exact ⟨_, deliver_prefixCopies a hp hq hs⟩
      · exact ⟨_, deliver_anticollReads a hp hq hs⟩
      · exact ⟨_, deliver_merges a hp hq hs⟩
      · exact ⟨_, deliver_collisionReads a hp hq hs⟩
      · exact ⟨_, deliver_anticollEnds a hp hq hs⟩
    · rw [State.subCount_plain hp hq] at position
      obtain hs | hs | hs : s.sub = 0 ∨ s.sub = 1 ∨ s.sub = 2 := by omega
      · exact ⟨_, deliver_plainCheck a hp hs hq⟩
      · exact ⟨_, deliver_plainReads a hp hq hs⟩
      · exact ⟨_, deliver_plainEnds a hp hq hs⟩
  | tStop =>
    rw [State.subCount_tStop hp] at position
    obtain hs | hs : s.sub = 0 ∨ s.sub = 1 := by omega
    · exact ⟨_, deliver_fieldOff a hp hs⟩
    · exact ⟨_, deliver_stopEnds a hp hs⟩

/-- From a legal state every event has its step. -/
theorem State.Legal.deliver_next {s : State} (h : s.Legal) (e : Event) : ∃ t, deliver e s = .next t := by
  cases e with
  | host a =>
    obtain ⟨t, ht, -⟩ := hostStep_move a s
    exact ⟨t, ht⟩
  | seq a => exact h.seq_next a
  | tick => exact ⟨_, rfl⟩
  | rst tx rx => exact ⟨_, rfl⟩

/-! ## The obligations -/

theorem deliver_legal {e : Event} {s t : State} (h : s.Legal) (hd : deliver e s = .next t) : t.Legal := by
  cases deliver_move e s t hd with
  | host a t hm => exact hm.legal h
  | seq a t hm => exact hm.legal h
  | tick => exact h.tick
  | rst tx rx => exact resetStep_legal h.kept.1 tx rx

/-- Settles O52: a step delivers one event, and taking it is nothing that legality speaks of. -/
theorem stepKeepsLegal : Obligations.StepKeepsLegal := by
  intro s t legal hstep
  obtain ⟨e, es, n, delivers⟩ := step_eq_deliver s
  exact deliver_legal (legal.pending es n) (delivers.symm.trans hstep)

/-- Settles O53: whatever the next event, it has its step. -/
theorem legalStepNeverStops : Obligations.LegalStepNeverStops := by
  intro s legal
  obtain ⟨e, es, n, delivers⟩ := step_eq_deliver s
  rw [delivers]
  exact (legal.pending es n).deliver_next e

/-- Settles O51: the reset state is what a reset with no contents leaves of itself, and its trace is empty. -/
theorem resetIsLegal : Obligations.ResetIsLegal := by
  have params : State.reset.hw.ok := by decide
  exact ⟨resetStep_legal params [] [], by decide⟩

end Sys2Proof.Machine
end

section
/-! SUPPORT. What the moves of Laws/Moves.lean change, register by register: the parameters and TXBUF, the trace,
SESSION, `pc`, DONE and RXBUF; and the rules of the whole machine that follow from it. -/

namespace Sys2Proof.Machine

/-! ## Parameters and TXBUF -/

theorem SeqMove.hw_txbuf {a : ChipAnswers} {s t : State} (hm : SeqMove a s t) : t.hw = s.hw ∧ t.txbuf = s.txbuf := by
  cases hm with
  | plainReads | anticollReads | merges | collisionReads => simp
  | _ => exact ⟨rfl, rfl⟩

theorem HostMove.hw {a : HostAccess} {s t : State} (hm : HostMove a s t) : t.hw = s.hw := by
  cases hm <;> rfl

theorem Move.hw {s t : State} {e : Event} (hm : Move s e t) : t.hw = s.hw := by
  cases hm with
  | host a t hm => exact hm.hw
  | seq a t hm => exact hm.hw_txbuf.1
  | tick | rst => rfl

/-- Settles O60: no move changes the parameters. -/
theorem parametersNeverChange : Obligations.ParametersNeverChange := by
  intro s t hstep
  obtain ⟨e, es, n, delivers⟩ := step_eq_deliver s
  exact (deliver_move e _ t (delivers.symm.trans hstep)).hw

/-! ## The trace -/

theorem fifoReadTo_trace_cases (a : ChipAnswers) (n i : Nat) (s : State) :
    (fifoReadTo a n i s).trace = s.trace ∨ ∃ bs, (fifoReadTo a n i s).trace = s.trace ++ [.fifoRead n bs] := by
  unfold fifoReadTo
  split
  · exact .inl rfl
  · exact .inr ⟨_, rfl⟩

theorem collisionRead_trace_cases (a : ChipAnswers) (s : State) :
    (collisionRead a s).trace = s.trace ∨ ∃ p, (collisionRead a s).trace = s.trace ++ [.readCollPos p] := by
  unfold collisionRead
  split
  · exact .inr ⟨_, rfl⟩
  · exact .inl rfl

/-- A turn of SEQ makes at most one transaction (R31). -/
theorem SeqMove.trace {a : ChipAnswers} {s t : State} (hm : SeqMove a s t) :
    t.trace = s.trace ∨ ∃ x, t.trace = s.trace ++ [x] := by
  cases hm with
  | plainReads => exact (fifoReadTo_trace_cases a _ _ s).imp id fun ⟨bs, h⟩ => ⟨_, h⟩
  | anticollReads => exact (fifoReadTo_trace_cases a _ _ s).imp id fun ⟨bs, h⟩ => ⟨_, h⟩
  | collisionReads => exact (collisionRead_trace_cases a s).imp id fun ⟨p, h⟩ => ⟨_, h⟩
  | merges => exact .inl (partialMerge_trace s)
  | rest | guardHolds | startEnds | predelayHolds | predelayEnds | yieldEnds | count | plainTooShort | plainTooLong
  | plainFits | plainEnds | anticollFails | anticollFits | prefixCopies | anticollEnds => exact .inl rfl
  | _ => exact .inr ⟨_, rfl⟩

theorem HostMove.trace {a : HostAccess} {s t : State} (hm : HostMove a s t) : t.trace = s.trace := by
  cases hm <;> rfl

/-- A turn of SEQ in IDLE or READY changes nothing (R32). -/
theorem deliver_seq_notBusy {s : State} (a : ChipAnswers) (hb : s.busy = false) : deliver (.seq a) s = .next s := by
  cases hp : s.pc with
  | idle | ready => simp only [deliver, seqStep, hp]
  | _ => rw [State.busy, hp] at hb; cases hb

/-- Settles O55: only a turn of SEQ adds to the trace, one transaction, and none with BUSY = 0. -/
theorem oneTransactionPerSeqTurn : Obligations.OneTransactionPerSeqTurn := by
  intro s t e delivers
  cases deliver_move e s t delivers with
  | host a t hm => exact .inl hm.trace
  | tick | rst => exact .inl rfl
  | seq a t hm =>
    by_cases hb : s.busy = true
    · exact hm.trace.imp id fun ⟨x, hx⟩ => ⟨a, x, rfl, hb, hx⟩
    · rw [deliver_seq_notBusy a (Bool.eq_false_iff.mpr hb)] at delivers
      exact .inl (congrArg State.trace (Host.Outcome.next.inj delivers).symm)

/-! ## SESSION -/

theorem SeqMove.session {a : ChipAnswers} {s t : State} (hm : SeqMove a s t) :
    t.session = s.session ∨ (s.pc = .sGuard ∧ t.session = true ∧ t.pc = .ready)
      ∨ (s.pc = .tStop ∧ s.sub = 1 ∧ t.session = false ∧ t.pc = .idle) := by
  cases hm with
  | startEnds hp => exact .inr (.inl ⟨hp, rfl, rfl⟩)
  | stopEnds hp hs => exact .inr (.inr ⟨hp, hs, rfl, rfl⟩)
  | plainReads | anticollReads | merges | collisionReads => exact .inl (by simp)
  | _ => exact .inl rfl

theorem HostMove.session {a : HostAccess} {s t : State} (hm : HostMove a s t) : t.session = s.session := by
  cases hm <;> rfl

/-- Settles O58: the ends of SSTART and SSTOP are the only moves that write SESSION. -/
theorem sessionChangesOnlyInSessionCommands : Obligations.SessionChangesOnlyInSessionCommands := by
  intro s t e notReset delivers changed
  cases deliver_move e s t delivers with
  | host a t hm => exact absurd hm.session changed
  | seq a t hm => exact hm.session.resolve_left changed
  | tick => exact absurd rfl changed
  | rst => cases notReset

/-! ## `pc` -/

/-- A move of `pc` from p to q by a turn of SEQ. -/
theorem seq_moves {s t : State} {p q : FsmState} (hp : s.pc = p) (hq : (p.busy && p.successors.contains q) = true)
    (ht : t.pc = q ∧ t.sub = 0) : t.pc ∈ s.pc.successors ∧ t.sub = 0 ∧ s.busy = true := by
  obtain ⟨busy, along⟩ := Bool.and_eq_true_iff.mp hq
  rw [ht.1, hp, State.busy, hp]
  exact ⟨List.contains_iff_mem.mp along, ht.2, busy⟩

theorem SeqMove.pc {a : ChipAnswers} {s t : State} (hm : SeqMove a s t) :
    t.pc = s.pc ∨ (t.pc ∈ s.pc.successors ∧ t.sub = 0 ∧ s.busy = true) := by
  cases hm with
  | rest | fieldCollision | guardHolds | fieldOff | predelayHolds | resetStop | resetGain | program | txwaitStays
  | rxswaitStays | pollYields | yieldEnds | plainFits | anticollFits | prefixCopies => exact .inl rfl
  | plainReads | anticollReads | merges | collisionReads => exact .inl (by simp)
  | _ => exact .inr (seq_moves ‹s.pc = _› rfl ⟨rfl, rfl⟩)

/-- Without a session, SEQ rests in IDLE; with one, in READY (R30). -/
theorem State.Legal.pc_of_notBusy {s : State} (h : s.Legal) (hb : s.busy = false) :
    s.pc = if s.session then .ready else .idle := by
  cases hp : s.pc with
  | idle | ready => rw [h.session_of_pc hp]; rfl
  | _ => rw [State.busy, hp] at hb; cases hb

/-- Every command needs BUSY = 0 (R129). -/
theorem notBusy_of_preconditions {s : State} {i : Instr} (hp : preconditions s i) : s.busy = false := by
  cases i with
  | sstart | sstop | reqa | wupa | anticoll _ | xchg _ => exact hp.1

theorem HostMove.pc {a : HostAccess} {s t : State} (h : s.Legal) (hm : HostMove a s t) :
    t.pc = s.pc ∨ (t.pc ∈ s.pc.successors ∧ t.sub = 0 ∧ s.busy = false
      ∧ ∃ w i, a = .writeWord 0 w ∧ decode w = .instr i ∧ preconditions s i) := by
  cases hm with
  | starts w hw hd hp =>
    refine .inr ⟨?_, rfl, hp.1, w, _, hw, hd, hp⟩
    rw [h.pc_of_notBusy hp.1, hp.2]
    exact List.mem_singleton.mpr rfl
  | stops w hw hd hp =>
    refine .inr ⟨?_, rfl, hp.1, w, _, hw, hd, hp⟩
    rw [h.pc_of_notBusy hp.1, hp.2]
    exact List.mem_cons_of_mem _ (List.mem_singleton.mpr rfl)
  | exchanges w i hw hd hi hp =>
    have hb := notBusy_of_preconditions hp
    refine .inr ⟨?_, rfl, hb, w, i, hw, hd, hp⟩
    rw [h.pc_of_notBusy hb, session_of_preconditions hi hp]
    exact List.mem_cons_self
  | _ => exact .inl rfl

/-- Settles O54: the moves of `pc` are those of SEQ's turns and of the three kinds of acceptance. -/
theorem pcMovesOnlyAlongTheRules : Obligations.PcMovesOnlyAlongTheRules := by
  refine ⟨fun s t e legal notReset delivers => ?_, fun s a => deliver_seq_notBusy a⟩
  cases deliver_move e s t delivers with
  | host a t hm =>
    refine (hm.pc legal).imp id fun ⟨along, sub, notBusy, w, i, write, decoded, met⟩ => ?_
    exact ⟨along, sub, .inl ⟨notBusy, w, i, congrArg Event.host write, decoded, met⟩⟩
  | seq a t hm => exact hm.pc.imp id fun ⟨along, sub, busy⟩ => ⟨along, sub, .inr ⟨busy, a, rfl⟩⟩
  | tick => exact .inl rfl
  | rst => cases notReset

/-! ## DONE -/

theorem HostMove.done {a : HostAccess} {s t : State} (hm : HostMove a s t) (hd : t.status.done = true) :
    s.status.done = true := by
  cases hm with
  | starts | stops | exchanges => cases hd
  | clears v => exact (Bool.and_eq_true_iff.mp hd).1
  | _ => exact hd

/-- The opcode in REQ is that of the executing command (R55). -/
theorem State.Legal.opcode_of_opening {s : State} (h : s.Legal) {p : FsmState} (hp : s.pc = p)
    (ho : p.opening = true) : opSstart = s.req.op := by
  obtain ⟨opens, -⟩ := h.requestOk
  exact (opens (by rw [hp, ho])).symm

theorem State.Legal.opcode_of_tStop {s : State} (h : s.Legal) (hp : s.pc = .tStop) : opSstop = s.req.op := by
  obtain ⟨-, stops, -⟩ := h.requestOk
  exact (stops hp).symm

/-- A completion writes RESULT with the command's opcode and leaves RXBUF (R38). -/
theorem SeqMove.done {a : ChipAnswers} {s t : State} (h : s.Legal) (hm : SeqMove a s t) :
    t.status.done = s.status.done ∨ (s.busy = true ∧ t.busy = false ∧ t.result.op = s.req.op ∧ t.rxbuf = s.rxbuf) := by
  have busy {p : FsmState} (hp : s.pc = p) (hb : p.busy = true) : s.busy = true := (congrArg FsmState.busy hp).trans hb
  cases hm with
  | startFails hp => exact .inr ⟨busy hp rfl, rfl, h.opcode_of_opening hp rfl, rfl⟩
  | startEnds hp => exact .inr ⟨busy hp rfl, rfl, h.opcode_of_opening hp rfl, rfl⟩
  | stopEnds hp => exact .inr ⟨busy hp rfl, rfl, h.opcode_of_tStop hp, rfl⟩
  | rxswaitExpires | pollFails | postchkFails | plainTooShort | plainTooLong | plainEnds | anticollFails
  | anticollEnds => exact .inr ⟨busy ‹s.pc = _› rfl, rfl, rfl, rfl⟩
  | plainReads | anticollReads | merges | collisionReads => exact .inl (by simp)
  | _ => exact .inl rfl

/-- Settles O57: of all moves only completions set DONE. -/
theorem doneRisesOnlyAtCompletion : Obligations.DoneRisesOnlyAtCompletion := by
  intro s t e legal delivers clear done
  have rises : t.status.done ≠ s.status.done := by rw [clear, done]; decide
  cases deliver_move e s t delivers with
  | host a t hm => exact absurd (hm.done done) (by rw [clear]; decide)
  | seq a t hm => exact ⟨⟨a, rfl⟩, (hm.done legal).resolve_left rises⟩
  | tick => exact absurd rfl rises
  | rst => cases done

/-! ## RXBUF -/

/-- The bytes after a FIFO read (R244, R249). -/
theorem fifoReadTo_rxByte (a : ChipAnswers) (n i k : Nat) (s : State) :
    (fifoReadTo a n i s).rxByte k =
      if i ≤ k ∧ k < i + n ∧ k < s.hw.rxbufSize then a.fifo.getD (k - i) 0 else s.rxByte k := by
  unfold fifoReadTo
  by_cases hn : n = 0
  · rw [if_pos hn, if_neg (by omega)]
  · rw [if_neg hn, State.rxByte_rxStore, ChipAnswers.fifoBytes_length]
    refine ite_congr rfl (fun hk => ?_) (fun _ => rfl)
    exact ChipAnswers.fifoBytes_getD a n (k - i) (by omega)

/-- The bytes after the copy of those sent (R248). -/
theorem prefixCopy_rxByte (s : State) (k : Nat) :
    (prefixCopy s).rxByte k =
      if k < s.work.full.toNat ∧ k < s.hw.rxbufSize then s.txByte k else s.rxByte k := by
  unfold prefixCopy
  rw [State.rxByte_rxStore, State.txPrefix_length]
  refine ite_congr (by simp) (fun hk => ?_) (fun _ => rfl)
  exact State.txPrefix_getD s _ k hk.1

/-- The receive capacity of an exchange is inside RXBUF (R129). -/
theorem State.Legal.rxcap_le {s : State} (h : s.Legal) {p : FsmState} (hp : s.pc = p) (hx : p.exchange = true) :
    s.req.rxcap.toNat ≤ s.hw.rxbufSize := by
  obtain ⟨-, -, exchanges⟩ := h.requestOk
  exact (exchanges (by rw [hp, hx])).2.1

/-- Past the check, ANTICOLL's bytes fit the receive capacity (R247). -/
theorem State.Legal.anticoll_fits {s : State} (h : s.Legal) (hp : s.pc = .xExtract) (hq : s.req.isAnticoll)
    (hs : 1 ≤ s.sub) : s.work.full.toNat + s.work.count.toNat ≤ s.req.rxcap.toNat
      ∧ (s.work.rem ≠ 0 → s.work.full.toNat + 1 ≤ s.req.rxcap.toNat) := by
  have past := h.extractOk hp hs
  rw [if_pos hq] at past
  obtain ⟨full, rem, fits⟩ := past
  unfold anticollNeed at fits
  rw [← full, ← rem] at fits
  refine ⟨by omega, fun hr => ?_⟩
  have : s.work.rem.toNat ≠ 0 := fun h0 => hr (BitVec.eq_of_toNat_eq h0)
  rw [if_pos this] at fits
  omega

/-- RXBUF changes in step 10 only, where a byte changes only below the receive capacity. -/
theorem SeqMove.rxbuf {a : ChipAnswers} {s t : State} (h : s.Legal) (hm : SeqMove a s t) :
    t.rxbuf = s.rxbuf
      ∨ (s.pc = .xExtract ∧ 1 ≤ s.sub ∧ ∀ i, t.rxByte i ≠ s.rxByte i → i < s.req.rxcap.toNat) := by
  cases hm with
  | plainReads hp hq hs =>
    have past := h.extractOk hp hs.ge
    rw [if_neg hq] at past
    obtain ⟨-, -, fits⟩ := past
    refine .inr ⟨hp, hs.ge, fun i hi => ?_⟩
    have := (ite_ne_right_iff.mp ((fifoReadTo_rxByte a s.work.n.toNat 0 i s).symm.trans_ne hi)).1
    omega
  | prefixCopies hp hq hs =>
    obtain ⟨fits, -⟩ := h.anticoll_fits hp hq hs.ge
    refine .inr ⟨hp, hs.ge, fun i hi => ?_⟩
    have := (ite_ne_right_iff.mp ((prefixCopy_rxByte s i).symm.trans_ne hi)).1
    omega
  | anticollReads hp hq hs =>
    obtain ⟨fits, -⟩ := h.anticoll_fits hp hq (by omega)
    refine .inr ⟨hp, by omega, fun i hi => ?_⟩
    have := (ite_ne_right_iff.mp
      ((fifoReadTo_rxByte a s.work.count.toNat s.work.full.toNat i s).symm.trans_ne hi)).1
    omega
  | merges hp hq hs =>
    obtain ⟨-, fits⟩ := h.anticoll_fits hp hq (by omega)
    have inBuffer (hr : s.work.rem ≠ 0) : s.work.full.toNat < s.hw.rxbufSize :=
      Nat.lt_of_lt_of_le (fits hr) (h.rxcap_le hp rfl)
    refine .inr ⟨hp, by omega, fun i hi => ?_⟩
    by_contra above
    refine hi ((partialMerge_rxByte inBuffer i).trans ?_)
    rw [if_neg fun ⟨hr, hi⟩ => above (hi ▸ fits hr)]
    exact BitVec.or_zero
  | collisionReads => exact .inl (collisionRead_rxbuf a s)
  | _ => exact .inl rfl

/-- Settles O56: TXBUF is no register of SEQ's, and RXBUF's changes are those of step 10. -/
theorem seqWritesStayBelowCapacity : Obligations.SeqWritesStayBelowCapacity := by
  intro s t a legal delivers
  have hm := seqStep_move a s t delivers
  obtain ⟨hw, txbuf⟩ := hm.hw_txbuf
  refine ⟨txbuf, fun i changed => ?_⟩
  rcases hm.rxbuf legal with same | ⟨hp, -, below⟩
  · exact absurd (by rw [State.rxByte, State.rxByte, same, hw]) changed
  · exact ⟨hp, below i changed⟩

end Sys2Proof.Machine
end

section
/-! SUPPORT. The chip's field as the transactions tell it (40_session.md R157; 70_reset_and_hazards.md R310, R311): the
three ways an event bears on it, and the ledger of releases. -/

namespace Sys2Proof.Machine

/-! ## When the release is due -/

/-- Whether a `FieldOff` is due at a position of a legal state: in S_GUARD, and in a session up to T_STOP's first
transaction. -/
def FsmState.releaseDue (p : FsmState) (sub : Nat) : Bool :=
  p == .sGuard || (p.inSession && !(p == .tStop && decide (1 ≤ sub)))

theorem State.Legal.releaseDue_iff {s : State} (h : s.Legal) : s.releaseDue ↔ s.pc.releaseDue s.sub = true := by
  simp [State.releaseDue, FsmState.releaseDue, h.session_of_pc rfl, imp_iff_not_or]

/-- What a turn of SEQ does to the field: nothing, without or with a transaction; it turns the field on, and its release
becomes due; or it turns the field off, which was due. -/
inductive FieldMove (s t : State) : Prop where
  | silent (trace : t.trace = s.trace) (due : t.pc.releaseDue t.sub = s.pc.releaseDue s.sub)
  | other (x : ChipTxn) (trace : t.trace = s.trace ++ [x]) (notOn : x ≠ .fieldOn .ok) (notOff : x ≠ .fieldOff)
      (due : t.pc.releaseDue t.sub = s.pc.releaseDue s.sub)
  | on (trace : t.trace = s.trace ++ [.fieldOn .ok]) (before : s.pc.releaseDue s.sub = false)
      (after : t.pc.releaseDue t.sub = true)
  | off (trace : t.trace = s.trace ++ [.fieldOff]) (before : s.pc.releaseDue s.sub = true)
      (after : t.pc.releaseDue t.sub = false)

/-- Outside T_STOP the position within a state does not matter. -/
theorem releaseDue_congr {s t : State} {p q : FsmState} (hs : s.pc = p) (ht : t.pc = q)
    (h : ∀ k l, q.releaseDue k = p.releaseDue l) : t.pc.releaseDue t.sub = s.pc.releaseDue s.sub := by
  rw [hs, ht, h]

/-- Step 3 leaves the field alone. -/
theorem programTxns_not_field {s : State} {v : Variant} {x : ChipTxn} {k : Nat} (hx : (programTxns s v)[k]? = some x) :
    x ≠ .fieldOn .ok ∧ x ≠ .fieldOff := by
  obtain ⟨f, n, rfl⟩ | ⟨bs, rfl⟩ := programTxns_kinds s v x (List.mem_of_getElem? hx) <;> simp

/-- The field is turned on by S_FIELD and off by T_STOP, and by no other turn of SEQ. -/
theorem SeqMove.field {a : ChipAnswers} {s t : State} (hm : SeqMove a s t) : FieldMove s t := by
  cases hm with
  | fieldOn hp => exact .on rfl (by rw [hp]; rfl) rfl
  | fieldOff hp hs => exact .off rfl (by rw [hp, hs]; rfl) (by rw [State.nextSub_pc, State.perform_pc, hp]; rfl)
  | stopEnds hp hs => exact .other _ rfl (by simp) (by simp) (by rw [hp, hs]; rfl)
  | program v x hp _ hx =>
    obtain ⟨notOn, notOff⟩ := programTxns_not_field hx
    exact .other x rfl notOn notOff (releaseDue_congr hp hp fun _ _ => rfl)
  | programEnds v x hp _ hx =>
    obtain ⟨notOn, notOff⟩ := programTxns_not_field hx
    exact .other x rfl notOn notOff (releaseDue_congr hp rfl fun _ _ => rfl)
  | plainReads hp =>
    have due := releaseDue_congr (t := (fifoReadTo a s.work.n.toNat 0 s).nextSub) hp ((fifoReadTo_pc ..).trans hp)
      fun _ _ => rfl
    rcases fifoReadTo_trace_cases a s.work.n.toNat 0 s with ht | ⟨bs, ht⟩
    · exact .silent ht due
    · exact .other _ ht (by simp) (by simp) due
  | anticollReads hp =>
    have due := releaseDue_congr (t := (anticollRead a s).nextSub) hp ((anticollRead_pc a s).trans hp) fun _ _ => rfl
    rcases fifoReadTo_trace_cases a s.work.count.toNat s.work.full.toNat s with ht | ⟨bs, ht⟩
    · exact .silent ht due
    · exact .other _ ht (by simp) (by simp) due
  | collisionReads hp =>
    have due := releaseDue_congr (t := (collisionRead a s).nextSub) hp ((collisionRead_pc a s).trans hp)
      fun _ _ => rfl
    rcases collisionRead_trace_cases a s with ht | ⟨p, ht⟩
    · exact .silent ht due
    · exact .other _ ht (by simp) (by simp) due
  | merges hp =>
    exact .silent (partialMerge_trace s) (releaseDue_congr hp ((partialMerge_pc s).trans hp) fun _ _ => rfl)
  | rest | guardHolds | predelayHolds => exact .silent rfl rfl
  | plainFits | anticollFits | prefixCopies | yieldEnds =>
    exact .silent rfl (releaseDue_congr ‹s.pc = _› ‹s.pc = _› fun _ _ => by rfl)
  | startEnds | predelayEnds | count | plainTooShort | plainTooLong | plainEnds | anticollFails | anticollEnds =>
    exact .silent rfl (releaseDue_congr ‹s.pc = _› rfl fun _ _ => by rfl)
  | fieldCollision | resetStop | resetGain | txwaitStays | rxswaitStays | pollYields =>
    exact .other _ rfl (by simp) (by simp) (releaseDue_congr ‹s.pc = _› ‹s.pc = _› fun _ _ => by rfl)
  | _ => exact .other _ rfl (by simp) (by simp) (releaseDue_congr ‹s.pc = _› rfl fun _ _ => by rfl)

/-- A host access makes no transaction, and an accepted command begins where its session stands. -/
theorem HostMove.field {a : HostAccess} {s t : State} (h : s.Legal) (hm : HostMove a s t) : FieldMove s t := by
  refine .silent hm.trace ?_
  cases hm with
  | starts w _ _ hp => rw [h.pc_of_notBusy hp.1, hp.2]; rfl
  | stops w _ _ hp => rw [h.pc_of_notBusy hp.1, hp.2]; rfl
  | exchanges w i _ _ hi hp =>
    rw [h.pc_of_notBusy (notBusy_of_preconditions hp), session_of_preconditions hi hp]
    rfl
  | _ => rfl

theorem Move.field {s t : State} {e : Event} (h : s.Legal) (hm : Move s e t) (he : e.notReset = true) :
    FieldMove s t := by
  cases hm with
  | host a t hm => exact hm.field h
  | seq a t hm => exact hm.field
  | tick => exact .silent rfl rfl
  | rst => cases he

/-! ## The ledger -/

theorem State.Legal.releaseLedger_iff {s : State} (h : s.Legal) :
    s.ReleaseLedger ↔ s.trace.count .fieldOff + (s.pc.releaseDue s.sub).toNat ≤ s.trace.count (.fieldOn .ok) := by
  simp only [State.ReleaseLedger, State.fieldOffs, State.fieldOns, h.releaseDue_iff]
  cases s.pc.releaseDue s.sub <;> rfl

/-- Each way keeps the ledger: what is turned on becomes due, and what is turned off was due. -/
theorem FieldMove.ledger {s t : State} (hf : FieldMove s t)
    (h : s.trace.count .fieldOff + (s.pc.releaseDue s.sub).toNat ≤ s.trace.count (.fieldOn .ok)) :
    t.trace.count .fieldOff + (t.pc.releaseDue t.sub).toNat ≤ t.trace.count (.fieldOn .ok) := by
  cases hf with
  | silent trace due => rwa [trace, due]
  | other x trace notOn notOff due =>
    rw [trace, due, List.count_append, List.count_append, List.count_singleton, List.count_singleton,
      if_neg (by simpa using notOff), if_neg (by simpa using notOn)]
    exact h
  | on trace before after =>
    rw [before] at h
    rw [trace, after, List.count_append, List.count_append]
    simp at h ⊢
    omega
  | off trace before after =>
    rw [before] at h
    rw [trace, after, List.count_append, List.count_append]
    simp at h ⊢
    omega

/-- Reset makes no transaction and leaves no release due. -/
theorem resetStep_ledger {s : State} (tx rx : List Byte) (h : s.ReleaseLedger) :
    (s.resetStep tx rx).ReleaseLedger := by
  have notDue : ¬ (s.resetStep tx rx).releaseDue := by simp [State.releaseDue]
  show s.fieldOffs + (if (s.resetStep tx rx).releaseDue then 1 else 0) ≤ s.fieldOns
  rw [if_neg notDue]
  exact Nat.le_trans (Nat.add_le_add_left (Nat.zero_le _) _) h

theorem Move.ledger {s t : State} {e : Event} (h : s.Legal) (ht : t.Legal) (hm : Move s e t) (hl : s.ReleaseLedger) :
    t.ReleaseLedger := by
  cases hm with
  | rst tx rx => exact resetStep_ledger tx rx hl
  | host a t hm => exact ht.releaseLedger_iff.mpr ((hm.field h).ledger (h.releaseLedger_iff.mp hl))
  | seq a t hm => exact ht.releaseLedger_iff.mpr (hm.field.ledger (h.releaseLedger_iff.mp hl))
  | tick => exact hl

/-! ## The field as due -/

theorem fieldAfter_other {x : ChipTxn} (notOn : x ≠ .fieldOn .ok) (notOff : x ≠ .fieldOff) (on : Bool) :
    fieldAfter on [x] = on := by
  cases x with
  | fieldOn answer =>
    cases answer with
    | ok => exact absurd rfl notOn
    | fieldCollision => rfl
  | fieldOff => exact absurd rfl notOff
  | _ => rfl

/-- Each way keeps the field on exactly while its release is due. -/
theorem FieldMove.asDue {s t : State} (hf : FieldMove s t) :
    fieldAfter (s.pc.releaseDue s.sub) (t.trace.drop s.trace.length) = t.pc.releaseDue t.sub := by
  cases hf with
  | silent trace due => rw [trace, List.drop_length, due]; rfl
  | other x trace notOn notOff due => rw [trace, List.drop_left, due, fieldAfter_other notOn notOff]
  | on trace _ after => rw [trace, List.drop_left, after]; rfl
  | off trace _ after => rw [trace, List.drop_left, after]; rfl

theorem State.Legal.fieldAsDue_iff {s : State} (h : s.Legal) (f : Bool) :
    s.FieldAsDue f ↔ f = s.pc.releaseDue s.sub := by
  simp only [State.FieldAsDue, h.releaseDue_iff, Bool.decide_eq_true]

/-- Settles O59: the ledger and the field follow the three ways an event bears on the field; over reset the ledger has
nothing due, and the platform's premise says that the field is off. -/
theorem stepKeepsReleaseLedger : Obligations.StepKeepsReleaseLedger := by
  constructor
  · intro s t legal ledger hstep
    obtain ⟨e, es, n, delivers⟩ := step_eq_deliver s
    have hd := delivers.symm.trans hstep
    have pending := legal.pending es n
    exact (deliver_move e _ t hd).ledger pending (deliver_legal pending hd) ledger
  · intro s t e f f' legal asDue delivers may platform
    have legal' := deliver_legal legal delivers
    rw [legal.fieldAsDue_iff] at asDue
    rw [legal'.fieldAsDue_iff]
    cases he : e.notReset with
    | true => rw [may he, asDue, ((deliver_move e s t delivers).field legal he).asDue]
    | false =>
      cases deliver_move e s t delivers with
      | rst tx rx => exact platform he
      | host | seq | tick => cases he

end Sys2Proof.Machine
end

section
/-! SUPPORT. SEQ does not see the host's side of the state (60_exceptions.md R278; 70_reset_and_hazards.md R314, R315):
its turns are the same whatever STATUS's own bits, IRQEN, the bus's answers and the events to come are; and a host access
changes nothing else while BUSY. -/

namespace Sys2Proof.Machine

/-- The state with another host's side. -/
def State.withHostSide (status : StatusBits) (irqen : IrqEnable) (responses : List HostResponse)
    (inputs : List Event) (draws : Nat) (s : State) : State :=
  { s with status := status, irqen := irqen, responses := responses, inputs := inputs, draws := draws }

/-- One condition decides two choices alike. -/
theorem ite_rel {α : Type} {P : α → α → Prop} {c : Prop} {d d' : Decidable c} {x y x' y' : α} (hx : P x x')
    (hy : P y y') : P (@ite _ c d x y) (@ite _ c d' x' y') := by
  by_cases h : c
  · rwa [if_pos h, if_pos h]
  · rwa [if_neg h, if_neg h]

/-! ## SEQ's turns -/

section

variable (b : StatusBits) (ie : IrqEnable) (rs : List HostResponse) (es : List Event) (n : Nat) (a : ChipAnswers)
  (s : State)

theorem fifoReadTo_withHostSide (m i : Nat) :
    fifoReadTo a m i (s.withHostSide b ie rs es n) = (fifoReadTo a m i s).withHostSide b ie rs es n :=
  ite_rel (P := fun (u v : State) => u = v.withHostSide b ie rs es n) rfl rfl

theorem partialMerge_withHostSide :
    partialMerge (s.withHostSide b ie rs es n) = (partialMerge s).withHostSide b ie rs es n :=
  ite_rel (P := fun (u v : State) => u = v.withHostSide b ie rs es n) rfl rfl

theorem collisionRead_withHostSide :
    collisionRead a (s.withHostSide b ie rs es n) = (collisionRead a s).withHostSide b ie rs es n :=
  ite_rel (P := fun (u v : State) => u = v.withHostSide b ie rs es n) rfl rfl

/-- The state u is v but for the host's side, where STATUS's bits are v's if they were so before a turn. -/
abbrev State.AgreesWith (before : StatusBits) (u v : State) : Prop :=
  ∃ b', u = v.withHostSide b' ie rs es n ∧ (b = before → b' = v.status)

theorem State.agreesWith_finish (r : ResultReg) (w : Word) (p : FsmState) :
    State.AgreesWith b ie rs es n s.status ((s.withHostSide b ie rs es n).finish r w p) (s.finish r w p) :=
  ⟨_, rfl, by rintro rfl; rfl⟩

/-- The same check decides, whatever the host's side. -/
theorem pollChecks_withHostSide :
    State.AgreesWith b ie rs es n s.status (pollChecks (s.withHostSide b ie rs es n)) (pollChecks s) :=
  have fails (r : ResultReg) := s.agreesWith_finish b ie rs es n r 0 .ready
  ite_rel (fails _) <| ite_rel (fails _) <| ite_rel (fails _) <| ite_rel (fails _) <|
    ite_rel ⟨b, rfl, id⟩ <| ite_rel (fails _) ⟨b, rfl, id⟩

/-- X_PROGRAM at any position but the last. -/
theorem deliver_program_at {s : State} {v : Variant} {x : ChipTxn} (hp : s.pc = .xProgram)
    (hv : s.req.variant = some v) (hx : (programTxns s v)[s.sub]? = some x)
    (hl : s.sub + 1 ≠ (programTxns s v).length) : deliver (.seq a) s = .next (s.perform x).nextSub := by
  simp only [deliver_seq_xProgram a hp hv, performAt, hx, if_neg hl]

/-- X_PROGRAM at its last position. -/
theorem deliver_program_last {s : State} {v : Variant} {x : ChipTxn} (hp : s.pc = .xProgram)
    (hv : s.req.variant = some v) (hx : (programTxns s v)[s.sub]? = some x)
    (hl : s.sub + 1 = (programTxns s v).length) : deliver (.seq a) s = .next ((s.perform x).enter .xDispatch) := by
  simp only [deliver_seq_xProgram a hp hv, performAt, hx, if_pos hl]

/-- The errors and the order of X_POSTCHK's checks are its own (R186). -/
theorem postchk_withHostSide :
    State.AgreesWith b ie rs es n s.status (postchkChecks a (s.withHostSide b ie rs es n)) (postchkChecks a s) :=
  have fails (r : ResultReg) :=
    (s.takeSnapshot (a.fifoStatus.narrow s.hw)).agreesWith_finish b ie rs es n r 0 .ready
  ite_rel (fails _) <| ite_rel (fails _) <| ite_rel (fails _) ⟨b, rfl, id⟩

/-- A turn of SEQ does the same whatever the host's side: only a completion writes there, which sets DONE. -/
theorem deliver_seq_withHostSide {t : State} (h : deliver (.seq a) s = .next t) :
    ∃ u, deliver (.seq a) (s.withHostSide b ie rs es n) = .next u
      ∧ State.AgreesWith b ie rs es n s.status u t := by
  have sameList (v : Variant) : programTxns s v = programTxns (s.withHostSide b ie rs es n) v :=
    programTxns_congr rfl rfl rfl v
  have polls := pollChecks_withHostSide b ie rs es n (s.irqRefresh a.irq)
  have postchk (hp : s.pc = .xPostchk) : State.AgreesWith b ie rs es n s.status _ t :=
    Host.Outcome.next.inj (h.symm.trans (deliver_postchk a hp)) ▸ postchk_withHostSide b ie rs es n a s
  cases seqStep_move a s t h with
  | rest hb => exact ⟨_, deliver_seq_notBusy a hb, ⟨b, rfl, id⟩⟩
  | modeOn hp => exact ⟨_, deliver_modeOn a hp, ⟨b, rfl, id⟩⟩
  | fieldOn hp hs ha => exact ⟨_, deliver_fieldOn a hp hs ha, ⟨b, rfl, id⟩⟩
  | fieldCollision hp hs ha => exact ⟨_, deliver_fieldCollision a hp hs ha, ⟨b, rfl, id⟩⟩
  | startFails hp hs => exact ⟨_, deliver_startFails a hp hs, ⟨_, rfl, by rintro rfl; rfl⟩⟩
  | guardHolds hp ht => exact ⟨_, deliver_guardHolds a hp ht, ⟨b, rfl, id⟩⟩
  | startEnds hp ht => exact ⟨_, deliver_startEnds a hp ht, ⟨_, rfl, by rintro rfl; rfl⟩⟩
  | fieldOff hp hs => exact ⟨_, deliver_fieldOff a hp hs, ⟨b, rfl, id⟩⟩
  | stopEnds hp hs => exact ⟨_, deliver_stopEnds a hp hs, ⟨_, rfl, by rintro rfl; rfl⟩⟩
  | predelayHolds hp ht => exact ⟨_, deliver_predelayHolds a hp ht, ⟨b, rfl, id⟩⟩
  | predelayEnds hp ht => exact ⟨_, deliver_predelayEnds a hp ht, ⟨b, rfl, id⟩⟩
  | resetStop hp hs => exact ⟨_, deliver_resetStop a hp hs, ⟨b, rfl, id⟩⟩
  | resetGain hp hs => exact ⟨_, deliver_resetGain a hp hs, ⟨b, rfl, id⟩⟩
  | resetClear hp hs => exact ⟨_, deliver_resetClear a hp hs, ⟨b, rfl, id⟩⟩
  | program v x hp hv hx hl => exact ⟨_, deliver_program_at a hp hv (sameList v ▸ hx) (sameList v ▸ hl), ⟨b, rfl, id⟩⟩
  | programEnds v x hp hv hx hl =>
    exact ⟨_, deliver_program_last a hp hv (sameList v ▸ hx) (sameList v ▸ hl), ⟨b, rfl, id⟩⟩
  | dispatch v hp hv => exact ⟨_, deliver_dispatch a hp hv, ⟨b, rfl, id⟩⟩
  | txwaitStays hp hc => exact ⟨_, deliver_txwaitStays a hp hc, ⟨b, rfl, id⟩⟩
  | txwaitEnds hp hc => exact ⟨_, deliver_txwaitEnds a hp hc, ⟨b, rfl, id⟩⟩
  | rxswaitEnds hp hc => exact ⟨_, deliver_rxswaitEnds a hp hc, ⟨b, rfl, id⟩⟩
  | rxswaitExpires hp hc ht => exact ⟨_, deliver_rxswaitExpires a hp hc ht, ⟨_, rfl, by rintro rfl; rfl⟩⟩
  | rxswaitStays hp hc ht => exact ⟨_, deliver_rxswaitStays a hp hc ht, ⟨b, rfl, id⟩⟩
  | pollFails e src hp hs _ hd => exact ⟨_, deliver_poll a hp hs, hd ▸ polls⟩
  | pollEnds hp hs _ hd => exact ⟨_, deliver_poll a hp hs, hd ▸ polls⟩
  | pollYields hp hs hd => exact ⟨_, deliver_poll a hp hs, hd ▸ polls⟩
  | yieldEnds hp hs => exact ⟨_, deliver_yieldEnds a hp hs, ⟨b, rfl, id⟩⟩
  | postchkFails e hp => exact ⟨_, deliver_postchk a hp, postchk hp⟩
  | postchkEnds hp => exact ⟨_, deliver_postchk a hp, postchk hp⟩
  | count hp => exact ⟨_, deliver_count a hp, ⟨b, rfl, id⟩⟩
  | plainTooShort hp hq hs hr hc => exact ⟨_, deliver_plainTooShort a hp hs hq ⟨hr, hc⟩, ⟨_, rfl, by rintro rfl; rfl⟩⟩
  | plainTooLong hp hq hs hc hr =>
    exact ⟨_, deliver_plainTooLong a hp hs hq (fun hl => Nat.not_lt.mpr (hc hl.1) hl.2) hr,
      ⟨_, rfl, by rintro rfl; rfl⟩⟩
  | plainFits hp hq hs hc hr =>
    exact ⟨_, deliver_plainFits a hp hs hq (fun hl => Nat.not_lt.mpr (hc hl.1) hl.2) hr, ⟨b, rfl, id⟩⟩
  | plainReads hp hq hs =>
    exact ⟨_, deliver_plainReads a hp hq hs, b, congrArg State.nextSub (fifoReadTo_withHostSide ..),
      fun hb => hb.trans (fifoReadTo_status ..).symm⟩
  | plainEnds hp hq hs => exact ⟨_, deliver_plainEnds a hp hq hs, ⟨_, rfl, by rintro rfl; rfl⟩⟩
  | anticollFails hp hq hs hc => exact ⟨_, deliver_anticollTooLong a hp hs hq hc, ⟨_, rfl, by rintro rfl; rfl⟩⟩
  | anticollFits hp hq hs hc => exact ⟨_, deliver_anticollFits a hp hs hq hc, ⟨b, rfl, id⟩⟩
  | prefixCopies hp hq hs => exact ⟨_, deliver_prefixCopies a hp hq hs, ⟨b, rfl, id⟩⟩
  | anticollReads hp hq hs => exact ⟨_, deliver_anticollReads a hp hq hs, b,
      congrArg (fun u => (u.setN s.work.count).nextSub) (fifoReadTo_withHostSide ..),
      fun hb => hb.trans (anticollRead_status a s).symm⟩
  | merges hp hq hs => exact ⟨_, deliver_merges a hp hq hs, b, congrArg State.nextSub (partialMerge_withHostSide ..),
      fun hb => hb.trans (partialMerge_status s).symm⟩
  | collisionReads hp hq hs =>
    exact ⟨_, deliver_collisionReads a hp hq hs, b, congrArg State.nextSub (collisionRead_withHostSide ..),
      fun hb => hb.trans (collisionRead_status a s).symm⟩
  | anticollEnds hp hq hs => exact ⟨_, deliver_anticollEnds a hp hq hs, ⟨_, rfl, by rintro rfl; rfl⟩⟩

end

/-! ## The events to come -/

/-- The state with other events to come. -/
def State.withInputs (es : List Event) (s : State) : State := { s with inputs := es }

/-- Two outcomes are the same next state but for the events to come. -/
abbrev SameNext (es : List Event) (x y : Outcome) : Prop := ∃ t, x = .next t ∧ y = .next (t.withInputs es)

section

variable (es : List Event) (s : State)

/-- The state u is v but for the events to come. -/
abbrev SameState (u v : State) : Prop := u = v.withInputs es

theorem exec_withInputs (i : Instr) : SameNext es (exec i s) (exec i (s.withInputs es)) := by
  rcases exec_cases i s with ⟨hp, he⟩ | ⟨hp, he⟩
  · refine ⟨_, he, (exec_of_preconditions ((preconditions_inputs es s i).mpr hp)).trans ?_⟩
    cases i <;> rfl
  · rcases exec_cases i (s.withInputs es) with ⟨hp', -⟩ | ⟨-, he'⟩
    · exact absurd ((preconditions_inputs es s i).mp hp') hp
    · exact ⟨_, he, he'⟩

theorem issueCommand_withInputs (w : Word) :
    SameNext es (issueCommand w s) (issueCommand w (s.withInputs es)) := by
  unfold issueCommand
  cases decode w with
  | instr i => exact exec_withInputs es s i
  | illegal why => exact ⟨_, rfl, rfl⟩

theorem unlessBusy_withInputs (t : State) :
    (s.withInputs es).unlessBusy (t.withInputs es) = (s.unlessBusy t).withInputs es :=
  ite_rel (P := SameState es) rfl rfl

theorem writeReg_withInputs (off : Nat) (v : Word) :
    SameNext es (writeReg off v s) (writeReg off v (s.withInputs es)) :=
  have stored (t : State) :
      SameNext es (.next (s.unlessBusy t)) (.next ((s.withInputs es).unlessBusy (t.withInputs es))) :=
    ⟨_, rfl, congrArg _ (unlessBusy_withInputs es s t)⟩
  ite_rel (issueCommand_withInputs es s v) <| ite_rel ⟨_, rfl, rfl⟩ <| ite_rel (stored (s.setTxlen v)) <|
    ite_rel (stored (s.setRxcap v)) <| ite_rel ⟨_, rfl, rfl⟩ ⟨_, rfl, rfl⟩

theorem writeWindow_withInputs (off : Nat) (bs : List Byte) :
    writeWindow off bs (s.withInputs es) = (writeWindow off bs s).withInputs es :=
  ite_rel (P := SameState es) (unlessBusy_withInputs es s (s.txStore _ bs))
    (ite_rel (P := SameState es) (unlessBusy_withInputs es s (s.rxStore _ bs)) rfl)

theorem hostStep_withInputs (a : HostAccess) : SameNext es (hostStep a s) (hostStep a (s.withInputs es)) := by
  refine ite_rel ⟨_, rfl, rfl⟩ ?_
  cases a with
  | readByte off | readWord off => exact ⟨_, rfl, rfl⟩
  | writeByte off v => exact ⟨_, rfl, congrArg _ (writeWindow_withInputs es (s.respond .done) _ _)⟩
  | writeWord off v =>
    exact ite_rel (writeReg_withInputs es (s.respond .done) _ _)
      ⟨_, rfl, congrArg _ (writeWindow_withInputs es (s.respond .done) _ _)⟩

/-- Of the host's side SEQ writes DONE only. -/
theorem SeqMove.hostSide {a : ChipAnswers} {s t : State} (hm : SeqMove a s t) :
    t.irqen = s.irqen ∧ t.responses = s.responses ∧ t.draws = s.draws := by
  cases hm with
  | plainReads | anticollReads | merges | collisionReads => simp
  | _ => exact ⟨rfl, rfl, rfl⟩

/-- An event does the same whatever comes after it. -/
theorem deliver_withInputs {e : Event} {t : State} (h : deliver e s = .next t) :
    deliver e (s.withInputs es) = .next (t.withInputs es) := by
  cases e with
  | host a =>
    obtain ⟨u, hu, same⟩ := hostStep_withInputs es s a
    obtain rfl := Host.Outcome.next.inj (h.symm.trans hu)
    exact same
  | seq a =>
    obtain ⟨u, hu, b, rfl, status⟩ := deliver_seq_withHostSide s.status s.irqen s.responses es s.draws a s h
    obtain ⟨irqen, responses, draws⟩ := (seqStep_move a s t h).hostSide
    refine hu.trans (congrArg _ ?_)
    rw [status rfl, ← irqen, ← responses, ← draws]
    rfl
  | tick | rst => cases h; rfl

end

/-! ## Runs, event by event -/

/-- A run of an event and more went through the event's next state. -/
theorem runEvents_cons_eq_next {e : Event} {es : List Event} {s t : State} (h : runEvents (e :: es) s = .next t) :
    ∃ u, deliver e { s with inputs := es } = .next u ∧ runEvents es u = .next t := by
  rw [runEvents_cons] at h
  split at h
  · exact ⟨_, ‹_›, h⟩
  · cases h
  · cases h

/-- A run of one event more goes on as the run from the event's next state does, but for the events to come. -/
theorem runEvents_cons_of_deliver {e : Event} {es : List Event} {s t u : State} (h : deliver e s = .next t)
    (hr : runEvents es t = .next u) : ∃ es', runEvents (e :: es) s = .next (u.withInputs es') := by
  have run : runEvents (e :: es) s = runEvents es (t.withInputs es) :=
    runEvents_cons_next _ _ _ _ (deliver_withInputs es s h)
  cases es with
  | nil =>
    obtain rfl := Host.Outcome.next.inj hr
    exact ⟨[], run⟩
  | cons e' es => exact ⟨u.inputs, run.trans hr⟩

/-- A run of two parts: the first leads to where the second begins. -/
theorem runEvents_append {xs ys : List Event} {s t : State} (h : runEvents xs s = .next t) (hy : ys ≠ []) :
    runEvents (xs ++ ys) s = runEvents ys t := by
  induction xs generalizing s with
  | nil =>
    obtain rfl := Host.Outcome.next.inj h
    rfl
  | cons e es ih =>
    obtain ⟨u, delivers, rest⟩ := runEvents_cons_eq_next h
    calc runEvents (e :: (es ++ ys)) s
      _ = runEvents (es ++ ys) (u.withInputs (es ++ ys)) :=
        runEvents_cons_next _ _ _ _ (deliver_withInputs (es ++ ys) (s.withInputs es) delivers)
      _ = runEvents (es ++ ys) u := runEvents_inputs _ _ u (List.append_ne_nil_of_right_ne_nil es hy)
      _ = runEvents ys t := ih rest

/-! ## Two runs -/

/-- States that agree on what a running command depends on differ in the host's side only. -/
theorem eq_withHostSide {s u : State} (h : s.commandPart = u.commandPart) :
    u = s.withHostSide u.status u.irqen u.responses u.inputs u.draws := by
  obtain ⟨⟩ := s
  obtain ⟨⟩ := u
  simp only [State.commandPart, State.mk.injEq] at h
  simp [State.withHostSide, h]

@[simp] theorem State.commandPart_withHostSide (b : StatusBits) (ie : IrqEnable) (rs : List HostResponse)
    (es : List Event) (n : Nat) (s : State) : (s.withHostSide b ie rs es n).commandPart = s.commandPart := rfl

theorem State.commandPart_inputs (es : List Event) (s : State) :
    State.commandPart { s with inputs := es } = s.commandPart := rfl

/-- Turns of SEQ and ticks do the same to states that agree on the command's part. -/
theorem deliver_commandPart {s u t : State} {e : Event} (he : e.notHost = true) (hr : e.notReset = true)
    (same : s.commandPart = u.commandPart) (h : deliver e s = .next t) :
    ∃ v, deliver e u = .next v ∧ t.commandPart = v.commandPart := by
  rw [eq_withHostSide same]
  cases e with
  | host => cases he
  | rst => cases hr
  | tick =>
    obtain rfl := Host.Outcome.next.inj h
    exact ⟨_, rfl, rfl⟩
  | seq a =>
    obtain ⟨v, delivers, b', rfl, -⟩ := deliver_seq_withHostSide u.status u.irqen u.responses u.inputs u.draws a s h
    exact ⟨_, delivers, rfl⟩

/-- With BUSY = 1 a host access reaches STATUS's own bits, IRQEN and the log of answers only (R91, R278). -/
theorem HostMove.of_busy {a : HostAccess} {s t : State} (hm : HostMove a s t) (hb : s.busy = true) :
    t = { s with status := t.status, irqen := t.irqen, responses := t.responses } := by
  cases hm with
  | starts _ _ _ hp | stops _ _ _ hp | exchanges _ _ _ _ _ hp =>
    rw [notBusy_of_preconditions hp] at hb; cases hb
  | setsTxlen _ h | setsRxcap _ h | writesTx _ _ h | writesRx _ _ h => rw [h] at hb; cases hb
  | _ => rfl

/-- Settles O46: every host access makes a move, and with BUSY = 1 only moves on the host's side are left. -/
theorem hostCannotTouchRunningCommand : Obligations.HostCannotTouchRunningCommand := by
  intro s a hb
  obtain ⟨t, delivers, hm⟩ := hostStep_move a s
  exact ⟨t, delivers, hm.of_busy hb, hm.done⟩

/-- Runs with and without the host's accesses, from states that agree on the command's part. -/
theorem runEvents_filter_notHost {evs : List Event} {s u t : State} (hr : ∀ e ∈ evs, e.notReset = true)
    (hb : ∀ k v, k < evs.length → runEvents (evs.take k) s = .next v → v.busy = true)
    (same : s.commandPart = u.commandPart) (run : runEvents evs s = .next t) :
    ∃ v, runEvents (evs.filter Event.notHost) u = .next v ∧ v.commandPart = t.commandPart := by
  induction evs generalizing s u with
  | nil =>
    obtain rfl := Host.Outcome.next.inj run
    exact ⟨u, rfl, same.symm⟩
  | cons e es ih =>
    have busy : s.busy = true := hb 0 s (Nat.succ_pos _) rfl
    obtain ⟨s', delivers, rest⟩ := runEvents_cons_eq_next run
    obtain ⟨hre, hres⟩ := List.forall_mem_cons.mp hr
    have hbs (k : Nat) (v : State) (hk : k < es.length) (hv : runEvents (es.take k) s' = .next v) :
        v.busy = true := by
      obtain ⟨es', run'⟩ := runEvents_cons_of_deliver (s := s.withInputs es) delivers hv
      exact hb (k + 1) (v.withInputs es') (Nat.succ_lt_succ hk) run'
    cases he : e.notHost with
    | true =>
      rw [List.filter_cons_of_pos he]
      obtain ⟨u', delivers', same'⟩ := deliver_commandPart (s := { s with inputs := es })
        (u := { u with inputs := es.filter Event.notHost }) he hre same delivers
      obtain ⟨v, rest', agree⟩ := ih hres hbs same' rest
      exact ⟨v, (runEvents_cons_next _ _ _ _ delivers').trans rest', agree⟩
    | false =>
      rw [List.filter_cons_of_neg (by simp [he])]
      refine ih hres hbs (Eq.trans ?_ same) rest
      cases deliver_move e _ s' delivers with
      | host a _ hm => rw [hm.of_busy busy]; rfl
      | seq | tick | rst => cases he

/-- Settles O47: the two runs start in one state. -/
theorem runningCommandIgnoresHost : Obligations.RunningCommandIgnoresHost :=
  fun _ _ _ noReset busy run => runEvents_filter_notHost noReset busy rfl run

end Sys2Proof.Machine
end

section
/-! SUPPORT. An exchange that ends with an error leaves RXBUF as it was (43_fifo_read.md R255; 70_reset_and_hazards.md
R318): RXBUF is written past the checks of step 10 only, and past them no error is raised. -/

namespace Sys2Proof.Machine

/-- An exchange so far, which found m in RXBUF: it is before the checks of step 10, or ended there, and RXBUF still holds
m; or it is past them, or ended past them, and no error is reported. -/
def State.RxbufHeld (m : Memory) (u : State) : Prop :=
  (u.rxbuf = m ∧ (u.pc = .ready ∨ u.pc.exchange = true ∧ ¬ (u.pc = .xExtract ∧ 1 ≤ u.sub)))
    ∨ (u.result.err = 0 ∧ (u.pc = .ready ∨ u.pc = .xExtract ∧ 1 ≤ u.sub))

/-- Nothing that `RxbufHeld` speaks of changed. -/
theorem State.RxbufHeld.of_eq {m : Memory} {u v : State} (h : u.RxbufHeld m)
    (same : v.rxbuf = u.rxbuf ∧ v.pc = u.pc ∧ v.sub = u.sub ∧ v.result = u.result) : v.RxbufHeld m := by
  obtain ⟨rxbuf, pc, sub, result⟩ := same
  unfold State.RxbufHeld
  rw [rxbuf, pc, sub, result]
  exact h

/-- A host read changes the log of answers, or BUSERR. -/
theorem deliver_hostRead {a : HostAccess} {s t : State} (ha : (Event.host a).passive = true)
    (h : deliver (.host a) s = .next t) : t.rxbuf = s.rxbuf ∧ t.pc = s.pc ∧ t.sub = s.sub ∧ t.result = s.result := by
  by_cases refused : a.refusedByBus = true
  · obtain rfl := Host.Outcome.next.inj (h.symm.trans (hostStep_of_refusedByBus a s refused))
    exact ⟨rfl, rfl, rfl, rfl⟩
  · have accepted := h.symm.trans (if_neg refused)
    cases a with
    | readByte off | readWord off =>
      obtain rfl := Host.Outcome.next.inj accepted
      exact ⟨rfl, rfl, rfl, rfl⟩
    | writeByte | writeWord => cases ha

/-- An exchange goes on as an exchange or ends in READY. -/
theorem FsmState.exchange_of_successor {p q : FsmState} (hp : p.exchange = true) (hq : q ∈ p.successors) :
    q = .ready ∨ q.exchange = true := by
  have all : (!p.exchange || p.successors.all fun q => q == .ready || q.exchange) = true := by cases p <;> rfl
  rw [hp, Bool.not_true, Bool.false_or, List.all_eq_true] at all
  simpa using all q hq

theorem State.Legal.err_of_exchange {s : State} (h : s.Legal) (hp : s.pc = .xExtract) : s.result.err = 0 := by
  rw [h.result_of_busy (by rw [State.busy, hp]; rfl)]

/-- Past the checks, step 10 goes on to its end without an error. -/
theorem State.Legal.extract_next {a : ChipAnswers} {s t : State} (h : s.Legal) (hp : s.pc = .xExtract)
    (hs : 1 ≤ s.sub) (hd : deliver (.seq a) s = .next t) :
    t.result.err = 0 ∧ (t.pc = .ready ∨ t.pc = .xExtract ∧ 1 ≤ t.sub) := by
  have err := h.err_of_exchange hp
  have position := h.sub_lt
  rcases Decidable.em s.req.isAnticoll with hq | hq
  · rw [State.subCount_anticoll hp hq] at position
    obtain hs | hs | hs | hs | hs : s.sub = 1 ∨ s.sub = 2 ∨ s.sub = 3 ∨ s.sub = 4 ∨ s.sub = 5 := by omega
    · obtain rfl := Host.Outcome.next.inj (hd.symm.trans (deliver_prefixCopies a hp hq hs))
      exact ⟨err, .inr ⟨hp, Nat.succ_pos _⟩⟩
    · obtain rfl := Host.Outcome.next.inj (hd.symm.trans (deliver_anticollReads a hp hq hs))
      exact ⟨by simpa using err, .inr ⟨by simpa using hp, Nat.succ_pos _⟩⟩
    · obtain rfl := Host.Outcome.next.inj (hd.symm.trans (deliver_merges a hp hq hs))
      exact ⟨by simpa using err, .inr ⟨by simpa using hp, Nat.succ_pos _⟩⟩
    · obtain rfl := Host.Outcome.next.inj (hd.symm.trans (deliver_collisionReads a hp hq hs))
      exact ⟨by simpa using err, .inr ⟨by simpa using hp, Nat.succ_pos _⟩⟩
    · obtain rfl := Host.Outcome.next.inj (hd.symm.trans (deliver_anticollEnds a hp hq hs))
      exact ⟨rfl, .inl rfl⟩
  · rw [State.subCount_plain hp hq] at position
    obtain hs | hs : s.sub = 1 ∨ s.sub = 2 := by omega
    · obtain rfl := Host.Outcome.next.inj (hd.symm.trans (deliver_plainReads a hp hq hs))
      exact ⟨by simpa using err, .inr ⟨by simpa using hp, Nat.succ_pos _⟩⟩
    · obtain rfl := Host.Outcome.next.inj (hd.symm.trans (deliver_plainEnds a hp hq hs))
      exact ⟨rfl, .inl rfl⟩

/-- Before the checks, RXBUF stays, whatever the turn leads to. -/
theorem State.Legal.held_before {a : ChipAnswers} {s t : State} (h : s.Legal) (hx : s.pc.exchange = true)
    (hs : ¬ (s.pc = .xExtract ∧ 1 ≤ s.sub)) (hd : deliver (.seq a) s = .next t) : t.RxbufHeld s.rxbuf := by
  have hm := seqStep_move a s t hd
  have rxbuf : t.rxbuf = s.rxbuf := (hm.rxbuf h).resolve_right fun past => hs ⟨past.1, past.2.1⟩
  have goesOn : t.pc = .ready ∨ t.pc.exchange = true := by
    rcases hm.pc with same | ⟨along, -, -⟩
    · exact .inr (by rw [same, hx])
    · exact FsmState.exchange_of_successor hx along
  by_cases past : t.pc = .xExtract ∧ 1 ≤ t.sub
  · exact .inr ⟨(deliver_legal h hd).err_of_exchange past.1, .inr past⟩
  · exact .inl ⟨rxbuf, goesOn.imp id fun hx => ⟨hx, past⟩⟩

theorem State.RxbufHeld.deliver {m : Memory} {e : Event} {s t : State} (h : s.RxbufHeld m) (legal : s.Legal)
    (he : e.passive = true) (hd : deliver e s = .next t) : t.RxbufHeld m := by
  cases e with
  | host a => exact h.of_eq (deliver_hostRead he hd)
  | tick =>
    obtain rfl := Host.Outcome.next.inj hd
    exact h.of_eq ⟨rfl, rfl, rfl, rfl⟩
  | rst => cases he
  | seq a =>
    have rests (hp : s.pc = .ready) : t = s :=
      Host.Outcome.next.inj (hd.symm.trans (deliver_seq_notBusy a (by rw [State.busy, hp]; rfl)))
    rcases h with ⟨rfl, hp | ⟨hx, before⟩⟩ | ⟨err, hp | ⟨hp, past⟩⟩
    · rw [rests hp]; exact .inl ⟨rfl, .inl hp⟩
    · exact legal.held_before hx before hd
    · rw [rests hp]; exact .inr ⟨err, .inl hp⟩
    · exact .inr (legal.extract_next hp past hd)

theorem State.RxbufHeld.runEvents {m : Memory} {evs : List Event} {s t : State} (h : s.RxbufHeld m) (legal : s.Legal)
    (passive : ∀ e ∈ evs, e.passive = true) (run : runEvents evs s = .next t) : t.RxbufHeld m ∧ t.Legal := by
  induction evs generalizing s with
  | nil =>
    obtain rfl := Host.Outcome.next.inj run
    exact ⟨h, legal⟩
  | cons e es ih =>
    obtain ⟨he, hes⟩ := List.forall_mem_cons.mp passive
    obtain ⟨u, hd, rest⟩ := runEvents_cons_eq_next run
    have pending := legal.pending es s.draws
    exact ih (State.RxbufHeld.deliver (s := { s with inputs := es }) h pending he hd)
      (deliver_legal pending hd) hes rest

/-- Settles O35: with an error reported, the exchange never got past the checks of step 10. -/
theorem errorLeavesRxbufUnchanged : Obligations.ErrorLeavesRxbufUnchanged := by
  intro s t evs legal exchange before passive run error
  have start : s.RxbufHeld s.rxbuf := .inl ⟨rfl, .inr ⟨exchange, before⟩⟩
  obtain ⟨⟨rxbuf, -⟩ | ⟨noError, -⟩, -⟩ := start.runEvents legal passive run
  · exact rxbuf
  · exact absurd noError error

end Sys2Proof.Machine
end

section
/-! SUPPORT. The TX-end wait (41_exchange_sequence.md R177; 70_reset_and_hazards.md R317; 60_exceptions.md R289 ENV1):
without TXE it goes on for ever, and a refresh that reports TXE ends it. -/

namespace Sys2Proof.Machine

/-! ## One event of the wait -/

/-- An event that is neither a turn of SEQ nor a reset leaves the wait and the command alone. -/
theorem deliver_aside_txwait {s : State} {e : Event} (hp : s.pc = .xTxwait) (he : e.notReset = true)
    (hs : ∀ a, e ≠ .seq a) : ∃ t, deliver e s = .next t ∧ t.pc = .xTxwait ∧ t.cache = s.cache
      ∧ t.result = s.result ∧ t.rxbuf = s.rxbuf ∧ t.trace = s.trace := by
  cases e with
  | host a =>
    obtain ⟨t, delivers, hm⟩ := hostStep_move a s
    refine ⟨t, delivers, ?_⟩
    rw [hm.of_busy (by rw [State.busy, hp]; rfl)]
    exact ⟨hp, rfl, rfl, rfl, rfl⟩
  | seq a => exact absurd rfl (hs a)
  | tick => exact ⟨_, rfl, hp, rfl, rfl, rfl, rfl⟩
  | rst => cases he

/-- TXE in CACHE after a refresh is TXE held or reported. -/
theorem txe_or (f l : IrqFlags) : IrqFlags.txe (f ||| l) = (f.txe || l.txe) := BitVec.getElem_or ..

/-! ## Without TXE -/

/-- X_TXWAIT with no TXE, and RESULT and RXBUF as s has them. -/
def State.HangsLike (s t : State) : Prop :=
  t.pc = .xTxwait ∧ t.cache.txe = false ∧ t.result = s.result ∧ t.rxbuf = s.rxbuf

theorem State.HangsLike.deliver {s t : State} {e : Event} (h : s.HangsLike t) (he : e.notReset = true)
    (ha : ∀ a, e = .seq a → a.irq.txe = false) : ∃ u, deliver e t = .next u ∧ s.HangsLike u := by
  obtain ⟨hp, hc, result, rxbuf⟩ := h
  by_cases hs : ∃ a, e = .seq a
  · obtain ⟨a, rfl⟩ := hs
    have noTxe : IrqFlags.txe (t.cache ||| a.irq) = false := by rw [txe_or, hc, ha a rfl]; rfl
    exact ⟨_, deliver_txwaitStays a hp noTxe, hp, noTxe, result, rxbuf⟩
  · obtain ⟨u, delivers, pc, cache, result', rxbuf', -⟩ := deliver_aside_txwait hp he (not_exists.mp hs)
    exact ⟨u, delivers, pc, by rw [cache, hc], result'.trans result, rxbuf'.trans rxbuf⟩

theorem State.HangsLike.runEvents {s t : State} {evs : List Event} (h : s.HangsLike t)
    (hevs : ∀ e ∈ evs, e.notReset = true ∧ ∀ a, e = .seq a → a.irq.txe = false) :
    ∃ u, runEvents evs t = .next u ∧ s.HangsLike u := by
  induction evs generalizing t with
  | nil => exact ⟨t, rfl, h⟩
  | cons e es ih =>
    obtain ⟨⟨he, ha⟩, hes⟩ := List.forall_mem_cons.mp hevs
    obtain ⟨u, delivers, hu⟩ := State.HangsLike.deliver (t := { t with inputs := es }) h he ha
    obtain ⟨v, run, hv⟩ := ih hu hes
    exact ⟨v, (runEvents_cons_next e es t u delivers).trans run, hv⟩

/-- Settles O36: no event of the run leaves X_TXWAIT, and none that stays touches RESULT or RXBUF. -/
theorem txwaitHangsWithoutTxe : Obligations.TxwaitHangsWithoutTxe := by
  intro s evs hp hc hevs
  obtain ⟨t, run, pc, -, result, rxbuf⟩ := State.HangsLike.runEvents (s := s) ⟨hp, hc, rfl, rfl⟩ hevs
  exact ⟨t, run, pc, result, rxbuf⟩

/-! ## With TXE -/

/-- Without reset an event of the wait goes on with it, reporting no TXE, or ends it. -/
theorem deliver_txwait_cases {s : State} {e : Event} (hp : s.pc = .xTxwait) (he : e.notReset = true) :
    ∃ t, deliver e s = .next t
      ∧ (t.pc = .xRxswait ∨ t.pc = .xTxwait ∧ (∀ a, e = .seq a → a.irq.txe = false)
          ∧ (t.trace = s.trace ∨ ∃ a, e = .seq a ∧ t.trace = s.trace ++ [.irqRefresh a.irq])) := by
  by_cases hs : ∃ a, e = .seq a
  · obtain ⟨a, rfl⟩ := hs
    cases hc : IrqFlags.txe (s.cache ||| a.irq) with
    | true => exact ⟨_, deliver_txwaitEnds a hp hc, .inl rfl⟩
    | false =>
      have noTxe : a.irq.txe = false := by
        rw [txe_or, Bool.or_eq_false_iff] at hc
        exact hc.2
      refine ⟨_, deliver_txwaitStays a hp hc, .inr ⟨hp, ?_, .inr ⟨a, rfl, rfl⟩⟩⟩
      rintro _ ⟨⟩
      exact noTxe
  · obtain ⟨t, delivers, pc, -, -, -, trace⟩ := deliver_aside_txwait hp he (not_exists.mp hs)
    exact ⟨t, delivers, .inr ⟨pc, fun a ha => absurd ⟨a, ha⟩ hs, .inl trace⟩⟩

/-- A run of the wait that holds a refresh reporting TXE passes through X_RXSWAIT. -/
theorem runEvents_txwait {s : State} {evs : List Event} {a : ChipAnswers} (hp : s.pc = .xTxwait)
    (hevs : ∀ e ∈ evs, e.notReset = true) (ha : .seq a ∈ evs) (htxe : a.irq.txe = true) :
    ∃ xs ys u, evs = xs ++ ys ∧ runEvents xs s = .next u ∧ u.pc = .xRxswait := by
  induction evs generalizing s with
  | nil => cases ha
  | cons e es ih =>
    obtain ⟨he, hes⟩ := List.forall_mem_cons.mp hevs
    obtain ⟨t, delivers, ends | ⟨waits, noTxe, -⟩⟩ := deliver_txwait_cases hp he
    · obtain ⟨es', run⟩ := runEvents_cons_of_deliver delivers (runEvents_nil t)
      exact ⟨[e], es, _, rfl, run, ends⟩
    · have later : .seq a ∈ es := by
        refine (List.mem_cons.mp ha).resolve_left fun h => ?_
        rw [noTxe a h.symm] at htxe
        cases htxe
      obtain ⟨xs, ys, u, rfl, run, pc⟩ := ih waits hes later
      obtain ⟨es', run'⟩ := runEvents_cons_of_deliver delivers run
      exact ⟨e :: xs, ys, _, rfl, run', pc⟩

/-! ## The wait on a timeline -/

/-- Only X_DISPATCH issues a transmit command, and it leads to X_TXWAIT (R176). -/
theorem SeqMove.pc_of_transmits {a : ChipAnswers} {s t : State} {c : ChipCmd} (hm : SeqMove a s t)
    (ht : t.trace = s.trace ++ [.cmd c]) (hc : c.transmits = true) : t.pc = .xTxwait := by
  cases hm with
  | dispatch => rfl
  | resetStop | resetGain =>
    obtain rfl : _ = c := by simpa using ht
    cases hc
  | program v x _ _ hx | programEnds v x _ _ hx =>
    obtain rfl : x = .cmd c := by simpa using ht
    obtain ⟨_, _, h⟩ | ⟨_, h⟩ := programTxns_kinds s v _ (List.mem_of_getElem? hx) <;> cases h
  | plainReads =>
    obtain h | ⟨_, h⟩ := fifoReadTo_trace_cases a s.work.n.toNat 0 s <;>
      simp [h] at ht
  | anticollReads =>
    obtain h | ⟨_, h⟩ := fifoReadTo_trace_cases a s.work.count.toNat s.work.full.toNat s <;>
      simp [anticollRead, h] at ht
  | collisionReads =>
    obtain h | ⟨_, h⟩ := collisionRead_trace_cases a s <;> simp [h] at ht
  | _ => simp [State.raise_eq_finish, State.complete_eq_finish] at ht

/-- An event that adds a transaction is a turn of SEQ. -/
theorem seqMove_of_performs {s t : State} {e : Event} {x : ChipTxn} (hd : deliver e s = .next t)
    (ht : t.trace = s.trace ++ [x]) : ∃ a, e = .seq a ∧ SeqMove a s t := by
  obtain same | ⟨a, -, rfl, -⟩ := oneTransactionPerSeqTurn s t e hd
  · rw [same] at ht
    simp at ht
  · exact ⟨a, rfl, seqStep_move a s t hd⟩

/-- The state that a run of one event more went through, and the event's step from it. -/
theorem Timeline.performs_step {σ : Timeline} {s : State} {n : Nat} {x : ChipTxn} (h : σ.performs s n x) :
    ∃ t u, σ.run s n = .next t ∧ σ.run s (n + 1) = .next u ∧ deliver (σ n).2 (t.withInputs []) = .next u
      ∧ u.trace = t.trace ++ [x] := by
  obtain ⟨t, u, run, run', trace⟩ := h
  exact ⟨t, u, run, run', (Timeline.run_succ run).symm.trans run', trace⟩

/-- From X_TXWAIT a run without reset waits on, or has passed through X_RXSWAIT. -/
theorem Timeline.txwait_or_ended {σ : Timeline} {s t : State} {n k : Nat} (noReset : ∀ k, (σ k).2.notReset = true)
    (run : σ.run s n = .next t) (hp : t.pc = .xTxwait) :
    (∃ m u, n < m ∧ σ.run s m = .next u ∧ u.pc = .xRxswait)
      ∨ ∃ u, σ.run s (n + k) = .next u ∧ u.pc = .xTxwait := by
  induction k with
  | zero => exact .inr ⟨t, run, hp⟩
  | succ k ih =>
    obtain ended | ⟨u, run, hp⟩ := ih
    · exact .inl ended
    · obtain ⟨v, delivers, ends | ⟨waits, -⟩⟩ :=
        deliver_txwait_cases (s := u.withInputs []) hp (noReset (n + k))
      · exact .inl ⟨n + k + 1, v, by omega, (Timeline.run_succ run).trans delivers, ends⟩
      · exact .inr ⟨v, (Timeline.run_succ run).trans delivers, waits⟩

/-- Settles O37: the wait goes on until the refresh that reports TXE, which ends it; under ENV1 that refresh comes. -/
theorem txwaitEndsUnderEnv1 : Obligations.TxwaitEndsUnderEnv1 := by
  refine ⟨fun s evs a hp hevs ha htxe => runEvents_txwait hp hevs ha htxe, ?_⟩
  intro s σ n c noReset env transmit transmits
  obtain ⟨t, u, -, run, delivers, trace⟩ := Timeline.performs_step transmit
  obtain ⟨a, -, hm⟩ := seqMove_of_performs delivers trace
  have waiting : u.pc = .xTxwait := hm.pc_of_transmits trace transmits
  obtain ⟨m, later, reset | ⟨l, htxe, refresh⟩⟩ := env n c transmit transmits
  · rw [noReset m] at reset
    cases reset
  obtain ⟨k, rfl⟩ : ∃ k, m = n + 1 + k := Nat.exists_eq_add_of_le later
  obtain ⟨v, w, run', run'', delivers', trace'⟩ := Timeline.performs_step refresh
  obtain ⟨m, x, hm, runs, ended⟩ | ⟨x, runs, stillWaits⟩ :=
    Timeline.txwait_or_ended (k := k) noReset run waiting
  · exact ⟨m, x, by omega, runs, ended⟩
  · obtain rfl := Host.Outcome.next.inj (run'.symm.trans runs)
    obtain ⟨y, delivers'', ends⟩ := deliver_txwait_cases (s := v.withInputs []) stillWaits (noReset (n + 1 + k))
    obtain rfl := Host.Outcome.next.inj (delivers'.symm.trans delivers'')
    refine ⟨n + 1 + k + 1, w, by omega, run'', ends.resolve_right ?_⟩
    rintro ⟨-, noTxe, same | ⟨b, hb, trace''⟩⟩
    · exact absurd (trace'.symm.trans same) (by simp [State.withInputs])
    · obtain rfl : b.irq = l := by simpa [State.withInputs] using trace''.symm.trans trace'
      rw [noTxe b hb] at htxe
      cases htxe

end Sys2Proof.Machine
end

section
/-! SUPPORT. The host's side: register reads and writes (10_state.md R35-R53), both buffer windows (20_memory.md R81-R91),
`tick` (10_state.md R57) and reset (R59). -/

namespace Sys2Proof.Machine

/-! ## Register words as numbers -/

/-- Bit strings side by side, as a sum. -/
theorem append_toNat {m n : Nat} (x : BitVec m) (y : BitVec n) : (x ++ y).toNat = x.toNat * 2 ^ n + y.toNat := by
  rw [BitVec.toNat_append, ← Nat.shiftLeft_add_eq_or_of_lt y.isLt, Nat.shiftLeft_eq]

theorem bit_toNat (b : Bool) : (bit b).toNat = b.toNat := by cases b <;> rfl

theorem statusWord_toNat (s : State) : s.statusWord.toNat =
    s.busy.toNat + 2 * s.session.toNat + 4 * s.status.done.toNat + 8 * s.status.cmderr.toNat
      + 16 * s.status.accerr.toNat + 32 * s.status.buserr.toNat + 256 * s.pc.code.toNat := by
  simp only [State.statusWord, append_toNat, bit_toNat, BitVec.toNat_ofNat]
  omega

theorem ResultReg.word_toNat (r : ResultReg) : r.word.toNat =
    r.err.toNat + 16 * r.serr.toNat + 64 * r.kind.toNat + 128 * r.tosrc.toNat + 256 * r.op.toNat := by
  simp only [ResultReg.word, append_toNat, bit_toNat, BitVec.toNat_ofNat]
  omega

theorem IrqEnable.word_toNat (e : IrqEnable) : e.word.toNat = e.doneIe.toNat + 2 * e.errIe.toNat := by
  simp only [IrqEnable.word, append_toNat, bit_toNat, BitVec.toNat_ofNat]
  omega

theorem FifoStatReg.word_toNat (f : FifoStatReg) : f.word.toNat =
    f.snap.cntLo.toNat + 256 * f.snap.cntHi.toNat + 65536 * f.snap.ovr.toNat + 131072 * f.snap.unf.toNat
      + 262144 * f.snap.nplb.toNat + 2147483648 * f.valid.toNat := by
  simp only [FifoStatReg.word, append_toNat, bit_toNat, BitVec.toNat_ofNat]
  omega

theorem CollPosReg.word_toNat (c : CollPosReg) : c.word.toNat =
    c.pos.cbit.toNat + 256 * c.pos.cbyte.toNat + 2147483648 * c.valid.toNat := by
  simp only [CollPosReg.word, append_toNat, bit_toNat, BitVec.toNat_ofNat]
  omega

theorem HwParams.word_toNat {h : HwParams} (hw : h.ok) : h.word.toNat = h.txbufSize + 65536 * h.rxbufSize := by
  obtain ⟨⟨-, tx⟩, ⟨-, rx⟩, -⟩ := hw
  simp only [HwParams.word, append_toNat, BitVec.toNat_ofNat]
  omega

/-! ## Register reads -/

/-- Above the registers, register space reads 0 (R88). -/
theorem readReg_reserved (s : State) {off : Nat} (h : 0x30 ≤ off) : s.readReg off = 0 := by
  have other {k : Nat} (hk : k < 0x30) : off ≠ k := by omega
  unfold State.readReg
  iterate 11 rw [if_neg (other (by decide))]

/-- CMD, the reserved offsets and the space above the windows read 0 (R36, R88). -/
theorem readWordAt_reserved (s : State) {off : Nat} (h : off = 0 ∨ 0x30 ≤ off ∧ off < 0x1000 ∨ 0x3000 ≤ off) :
    s.readWordAt off = 0 := by
  rcases h with rfl | ⟨low, high⟩ | high
  · rfl
  · exact (if_pos high).trans (readReg_reserved s low)
  · rw [State.readWordAt_window s off (by omega), State.windowByte_reserved s off high,
      State.windowByte_reserved s _ (Nat.le_add_right_of_le high),
      State.windowByte_reserved s _ (Nat.le_add_right_of_le high),
      State.windowByte_reserved s _ (Nat.le_add_right_of_le high)]
    rfl

theorem setWidth_toNat {n : Nat} (x : BitVec n) (h : n ≤ 32) : (x.setWidth 32).toNat = x.toNat :=
  BitVec.toNat_setWidth_of_le h

/-- Settles O40: a read answers the register's word, and each word's number is the sum of its fields. -/
theorem registerReadsShowTheFields : Obligations.RegisterReadsShowTheFields := by
  intro s off
  refine ⟨fun aligned => ⟨s.readWordAt off.toNat, hostStep_readWord s off aligned, ?_⟩, fun above => ?_⟩
  · refine ⟨?_, ?_, ?_, ?_, ?_, ?_, ?_, ?_, ?_, ?_, ?_, fun h => ?_⟩
    · rintro rfl; exact statusWord_toNat s
    · rintro rfl; exact s.result.word_toNat
    · rintro rfl; rfl
    · rintro rfl; exact setWidth_toNat s.txlen (by decide)
    · rintro rfl; exact setWidth_toNat s.rxcap (by decide)
    · rintro rfl; exact s.irqen.word_toNat
    · rintro rfl; exact setWidth_toNat s.rxcount (by decide)
    · rintro rfl; exact setWidth_toNat s.cache (by decide)
    · rintro rfl; exact s.fifostat.word_toNat
    · rintro rfl; exact s.collpos.word_toNat
    · rintro rfl hw; exact HwParams.word_toNat hw
    · exact readWordAt_reserved s (h.imp (congrArg BitVec.toNat) id)
  · rw [← State.windowByte_reserved s off.toNat above]
    exact hostStep_readByte s off (by omega)

/-- Settles O38: a read that the bus does not refuse is answered. -/
theorem hostReadsHaveNoSideEffect : Obligations.HostReadsHaveNoSideEffect :=
  fun s off => ⟨fun aligned => ⟨_, hostStep_readWord s off aligned⟩, fun window => ⟨_, hostStep_readByte s off window⟩⟩

/-! ## Register writes -/

/-- Settles O41: STATUS's write is `clearBy`, BUSY or not. -/
theorem statusIsWriteOneToClear : Obligations.StatusIsWriteOneToClear :=
  fun _ _ => rfl

theorem deliver_writeTxlen (s : State) (v : Word) : deliver (.host (.writeWord 0x010 v)) s =
    .next ((s.respond .done).unlessBusy ((s.respond .done).setTxlen v)) := rfl

theorem deliver_writeRxcap (s : State) (v : Word) : deliver (.host (.writeWord 0x014 v)) s =
    .next ((s.respond .done).unlessBusy ((s.respond .done).setRxcap v)) := rfl

/-- Read-only registers and reserved offsets ignore writes (R53, R88). -/
theorem writeReg_ignored (s : State) (v : Word) {off : Nat} (h : off = 0x008 ∨ off = 0x00C ∨ 0x01C ≤ off) :
    writeReg off v s = .next s := by
  have other {k : Nat} (hk : k < 0x1C ∧ k ≠ 0x008 ∧ k ≠ 0x00C) : off ≠ k := by omega
  unfold writeReg
  iterate 5 rw [if_neg (other (by decide))]

theorem deliver_writeWord_ignored (s : State) (v : Word) {off : BitVec 14} (aligned : off.toNat % 4 = 0)
    (h : off.toNat = 0x008 ∨ off.toNat = 0x00C ∨ 0x01C ≤ off.toNat ∧ off.toNat < 0x1000 ∨ 0x3000 ≤ off.toNat) :
    deliver (.host (.writeWord off v)) s = .next (s.respond .done) := by
  refine (hostStep_writeWord s off v aligned).trans ?_
  by_cases register : off.toNat < 0x1000
  · rw [if_pos register]
    exact writeReg_ignored _ v (by omega)
  · rw [if_neg register, writeWindow_reserved _ _ _ (by omega)]

theorem deliver_writeByte_reserved (s : State) (b : Byte) {off : BitVec 14} (h : 0x3000 ≤ off.toNat) :
    deliver (.host (.writeByte off b)) s = .next (s.respond .done) :=
  (hostStep_writeByte s off b (by omega)).trans (congrArg _ (writeWindow_reserved _ _ _ h))

theorem unlessBusy_of_notBusy {s : State} (t : State) (hb : s.busy = false) : s.unlessBusy t = t :=
  if_neg (ne_true_of_eq_false hb)

theorem unlessBusy_of_busy {s : State} (t : State) (hb : s.busy = true) : s.unlessBusy t = s.dropWrite :=
  if_pos hb

theorem setWidth_eq_ofNat_mod (v : Word) : v.setWidth 16 = BitVec.ofNat 16 (v.toNat % 65536) := by
  apply BitVec.eq_of_toNat_eq
  rw [BitVec.toNat_setWidth, BitVec.toNat_ofNat]
  omega

/-- Settles O42: with BUSY = 0 the two length registers store the low 16 bits; the other offsets ignore the write. -/
theorem registerWritesStoreTheField : Obligations.RegisterWritesStoreTheField := by
  rintro s r off v b rfl
  refine ⟨?_, ?_, ?_, ?_, deliver_writeByte_reserved s b⟩
  · rintro hb rfl
    rw [deliver_writeTxlen, unlessBusy_of_notBusy (s := s.respond .done) _ hb, State.setTxlen, setWidth_eq_ofNat_mod]
    rfl
  · rintro hb rfl
    rw [deliver_writeRxcap, unlessBusy_of_notBusy (s := s.respond .done) _ hb, State.setRxcap, setWidth_eq_ofNat_mod]
    rfl
  · rintro rfl
    rfl
  · intro h aligned
    exact deliver_writeWord_ignored s v aligned (h.imp (congrArg BitVec.toNat) (Or.imp (congrArg BitVec.toNat) id))

/-! ## Writes while BUSY -/

theorem writeWindow_of_busy {s : State} (bs : List Byte) {off : Nat} (hb : s.busy = true) (h1 : 0x1000 ≤ off)
    (h3 : off < 0x3000) : writeWindow off bs s = s.dropWrite := by
  obtain h2 | h2 := Nat.lt_or_ge off 0x2000
  · obtain ⟨i, rfl⟩ := Nat.exists_eq_add_of_le h1
    rw [writeWindow_tx s i bs (by omega), if_pos hb]
  · obtain ⟨i, rfl⟩ := Nat.exists_eq_add_of_le h2
    rw [writeWindow_rx s i bs (by omega), if_pos hb]

/-- Settles O43: each of the four writes is dropped. -/
theorem busyWritesAreDropped : Obligations.BusyWritesAreDropped := by
  rintro s t off b w hb rfl
  have busy : (s.respond .done).busy = true := hb
  refine ⟨fun h1 h3 => ?_, ?_⟩
  · exact (hostStep_writeByte s off b h1).trans (congrArg _ (writeWindow_of_busy [b] busy h1 h3))
  · rintro (⟨h1, h3⟩ | rfl | rfl) aligned
    · refine (hostStep_writeWord s off w aligned).trans ((if_neg (Nat.not_lt.mpr h1)).trans ?_)
      exact congrArg _ (writeWindow_of_busy _ busy h1 h3)
    · exact (deliver_writeTxlen s w).trans (congrArg _ (unlessBusy_of_busy _ busy))
    · exact (deliver_writeRxcap s w).trans (congrArg _ (unlessBusy_of_busy _ busy))

/-! ## The windows, word by word -/

/-- The word of four bytes in a row, the first in [7:0] (R86). -/
def wordAt (f : Nat → Byte) (i : Nat) : Word := wordOfBytes (f i) (f (i + 1)) (f (i + 2)) (f (i + 3))

theorem wordAt_byte (f : Nat → Byte) (i : Nat) {k : Nat} (hk : k < 4) :
    (wordAt f i).toNat / 2 ^ (8 * k) % 2 ^ 8 = (f (i + k)).toNat := by
  have h0 := (f i).isLt
  have h1 := (f (i + 1)).isLt
  have h2 := (f (i + 2)).isLt
  have h3 := (f (i + 3)).isLt
  rw [wordAt, wordOfBytes_toNat]
  obtain rfl | rfl | rfl | rfl : k = 0 ∨ k = 1 ∨ k = 2 ∨ k = 3 := by omega
  all_goals
    norm_num only [Nat.add_zero]
    omega

/-- Four bytes that are a word's are that word again. -/
theorem wordAt_of_bytes {f : Nat → Byte} {i : Nat} {v : Word}
    (h : ∀ k < 4, f (i + k) = (bytesOfWord v).getD k 0) : wordAt f i = v := by
  rw [wordAt, h 1 (by decide), h 2 (by decide), h 3 (by decide), ← Nat.add_zero i, h 0 (by decide)]
  exact wordOfBytes_bytesOfWord v

section

variable {s : State} {off : BitVec 14} {i : Nat}

theorem deliver_readWord_tx (hi : i < 0x1000) (h4 : i % 4 = 0) (ho : off.toNat = 0x1000 + i) :
    deliver (.host (.readWord off)) s = .next (s.respond (.word (wordAt s.txByte i))) := by
  refine (hostStep_readWord s off (by omega)).trans ?_
  rw [ho, State.readWordAt_window s _ (by omega), State.windowByte_tx s i hi, Nat.add_assoc, Nat.add_assoc,
    Nat.add_assoc, State.windowByte_tx s _ (by omega), State.windowByte_tx s _ (by omega),
    State.windowByte_tx s _ (by omega)]
  rfl

theorem deliver_readWord_rx (hi : i < 0x1000) (h4 : i % 4 = 0) (ho : off.toNat = 0x2000 + i) :
    deliver (.host (.readWord off)) s = .next (s.respond (.word (wordAt s.rxByte i))) := by
  refine (hostStep_readWord s off (by omega)).trans ?_
  rw [ho, State.readWordAt_window s _ (by omega), State.windowByte_rx s i hi, Nat.add_assoc, Nat.add_assoc,
    Nat.add_assoc, State.windowByte_rx s _ (by omega), State.windowByte_rx s _ (by omega),
    State.windowByte_rx s _ (by omega)]
  rfl

theorem deliver_writeWord_tx (v : Word) (hb : s.busy = false) (hi : i < 0x1000) (h4 : i % 4 = 0)
    (ho : off.toNat = 0x1000 + i) :
    deliver (.host (.writeWord off v)) s = .next ((s.respond .done).txStore i (bytesOfWord v)) := by
  refine (hostStep_writeWord s off v (by omega)).trans ((if_neg (by omega)).trans ?_)
  rw [ho, writeWindow_tx _ i _ hi]
  exact congrArg _ (if_neg (ne_true_of_eq_false hb))

theorem deliver_writeWord_rx (v : Word) (hb : s.busy = false) (hi : i < 0x1000) (h4 : i % 4 = 0)
    (ho : off.toNat = 0x2000 + i) :
    deliver (.host (.writeWord off v)) s = .next ((s.respond .done).rxStore i (bytesOfWord v)) := by
  refine (hostStep_writeWord s off v (by omega)).trans ((if_neg (by omega)).trans ?_)
  rw [ho, writeWindow_rx _ i _ hi]
  exact congrArg _ (if_neg (ne_true_of_eq_false hb))

theorem deliver_readByte_tx (hi : i < 0x1000) (ho : off.toNat = 0x1000 + i) :
    deliver (.host (.readByte off)) s = .next (s.respond (.byte (s.txByte i))) := by
  refine (hostStep_readByte s off (by omega)).trans ?_
  rw [ho, State.windowByte_tx s i hi]

theorem deliver_readByte_rx (hi : i < 0x1000) (ho : off.toNat = 0x2000 + i) :
    deliver (.host (.readByte off)) s = .next (s.respond (.byte (s.rxByte i))) := by
  refine (hostStep_readByte s off (by omega)).trans ?_
  rw [ho, State.windowByte_rx s i hi]

theorem deliver_writeByte_tx (b : Byte) (hb : s.busy = false) (hi : i < 0x1000) (ho : off.toNat = 0x1000 + i) :
    deliver (.host (.writeByte off b)) s = .next ((s.respond .done).txStore i [b]) := by
  refine (hostStep_writeByte s off b (by omega)).trans ?_
  rw [ho, writeWindow_tx _ i _ hi]
  exact congrArg _ (if_neg (ne_true_of_eq_false hb))

theorem deliver_writeByte_rx (b : Byte) (hb : s.busy = false) (hi : i < 0x1000) (ho : off.toNat = 0x2000 + i) :
    deliver (.host (.writeByte off b)) s = .next ((s.respond .done).rxStore i [b]) := by
  refine (hostStep_writeByte s off b (by omega)).trans ?_
  rw [ho, writeWindow_rx _ i _ hi]
  exact congrArg _ (if_neg (ne_true_of_eq_false hb))

end

theorem txByte_eq_ite (s : State) (i : Nat) : s.txByte i = if i < s.hw.txbufSize then s.txByte i else 0 := by
  unfold State.txByte bufRead
  split <;> rfl

theorem rxByte_eq_ite (s : State) (i : Nat) : s.rxByte i = if i < s.hw.rxbufSize then s.rxByte i else 0 := by
  unfold State.rxByte bufRead
  split <;> rfl

/-- The bytes that a word's store leaves in TXBUF. -/
theorem txStore_word_byte (s : State) (i k : Nat) (v : Word) :
    (s.txStore i (bytesOfWord v)).txByte k =
      if i ≤ k ∧ k < i + 4 ∧ k < s.hw.txbufSize then BitVec.ofNat 8 (v.toNat / 2 ^ (8 * (k - i))) else s.txByte k := by
  rw [State.txByte_txStore, bytesOfWord_length]
  exact ite_congr rfl (fun h => bytesOfWord_getD v _ (by omega)) fun _ => rfl

/-- The bytes that a word's store leaves in RXBUF. -/
theorem rxStore_word_byte (s : State) (i k : Nat) (v : Word) :
    (s.rxStore i (bytesOfWord v)).rxByte k =
      if i ≤ k ∧ k < i + 4 ∧ k < s.hw.rxbufSize then BitVec.ofNat 8 (v.toNat / 2 ^ (8 * (k - i))) else s.rxByte k := by
  rw [State.rxByte_rxStore, bytesOfWord_length]
  exact ite_congr rfl (fun h => bytesOfWord_getD v _ (by omega)) fun _ => rfl

/-- A word stored in TXBUF, all four bytes inside, is read back. -/
theorem wordAt_txStore (s : State) {i : Nat} (v : Word) (fits : i + 4 ≤ s.hw.txbufSize) :
    wordAt (s.txStore i (bytesOfWord v)).txByte i = v := by
  refine wordAt_of_bytes fun k hk => ?_
  rw [State.txByte_txStore, bytesOfWord_length, if_pos (by omega), Nat.add_sub_cancel_left]

/-- A word stored in RXBUF, all four bytes inside, is read back. -/
theorem wordAt_rxStore (s : State) {i : Nat} (v : Word) (fits : i + 4 ≤ s.hw.rxbufSize) :
    wordAt (s.rxStore i (bytesOfWord v)).rxByte i = v := by
  refine wordAt_of_bytes fun k hk => ?_
  rw [State.rxByte_rxStore, bytesOfWord_length, if_pos (by omega), Nat.add_sub_cancel_left]

/-- Settles O44: a store of the word's four bytes, and a read of the four bytes in a row. -/
theorem windowWordIsLittleEndian : Obligations.WindowWordIsLittleEndian := by
  intro s off v i hi h4
  refine ⟨fun hb ho => ?_, fun hb ho => ?_, fun ho => ?_, fun ho => ?_⟩
  · refine ⟨_, deliver_writeWord_tx v hb hi h4 ho, rfl, fun k => txStore_word_byte _ i k v, fun fits => ?_⟩
    rw [deliver_readWord_tx hi h4 ho, wordAt_txStore (s.respond .done) v fits]
    rfl
  · refine ⟨_, deliver_writeWord_rx v hb hi h4 ho, rfl, fun k => rxStore_word_byte _ i k v, fun fits => ?_⟩
    rw [deliver_readWord_rx hi h4 ho, wordAt_rxStore (s.respond .done) v fits]
    rfl
  · refine ⟨_, deliver_readWord_tx hi h4 ho, fun k hk => ?_⟩
    exact (wordAt_byte _ _ hk).trans ((congrArg BitVec.toNat (txByte_eq_ite s _)).trans (apply_ite ..))
  · refine ⟨_, deliver_readWord_rx hi h4 ho, fun k hk => ?_⟩
    exact (wordAt_byte _ _ hk).trans ((congrArg BitVec.toNat (rxByte_eq_ite s _)).trans (apply_ite ..))

/-- The bytes that a byte's store leaves in TXBUF. -/
theorem txStore_byte (s : State) (i k : Nat) (b : Byte) :
    (s.txStore i [b]).txByte k = if k = i ∧ i < s.hw.txbufSize then b else s.txByte k := by
  rw [State.txByte_txStore]
  refine ite_congr (propext ?_) (fun h => ?_) fun _ => rfl
  · simp only [List.length_singleton]
    omega
  · rw [h.1, Nat.sub_self]
    rfl

/-- The bytes that a byte's store leaves in RXBUF. -/
theorem rxStore_byte (s : State) (i k : Nat) (b : Byte) :
    (s.rxStore i [b]).rxByte k = if k = i ∧ i < s.hw.rxbufSize then b else s.rxByte k := by
  rw [State.rxByte_rxStore]
  refine ite_congr (propext ?_) (fun h => ?_) fun _ => rfl
  · simp only [List.length_singleton]
    omega
  · rw [h.1, Nat.sub_self]
    rfl

/-- The byte just stored, where TXBUF has one. -/
theorem txStore_byte_same (s : State) (i : Nat) (b : Byte) :
    (s.txStore i [b]).txByte i = if i < s.hw.txbufSize then b else 0 :=
  (txByte_eq_ite _ i).trans (ite_congr rfl (fun h => (txStore_byte s i i b).trans (if_pos ⟨rfl, h⟩)) fun _ => rfl)

/-- The byte just stored, where RXBUF has one. -/
theorem rxStore_byte_same (s : State) (i : Nat) (b : Byte) :
    (s.rxStore i [b]).rxByte i = if i < s.hw.rxbufSize then b else 0 :=
  (rxByte_eq_ite _ i).trans (ite_congr rfl (fun h => (rxStore_byte s i i b).trans (if_pos ⟨rfl, h⟩)) fun _ => rfl)

/-- Settles O45: a store of one byte, and a read of one byte. -/
theorem windowByteMovesOneByte : Obligations.WindowByteMovesOneByte := by
  intro s off b i hi
  refine ⟨fun hb ho => ?_, fun hb ho => ?_, fun ho => ?_, fun ho => ?_⟩
  · refine ⟨_, deliver_writeByte_tx b hb hi ho, rfl, fun k => txStore_byte _ i k b, ?_⟩
    rw [deliver_readByte_tx hi ho, txStore_byte_same]
    rfl
  · refine ⟨_, deliver_writeByte_rx b hb hi ho, rfl, fun k => rxStore_byte _ i k b, ?_⟩
    rw [deliver_readByte_rx hi ho, rxStore_byte_same]
    rfl
  · rw [← txByte_eq_ite]
    exact deliver_readByte_tx hi ho
  · rw [← rxByte_eq_ite]
    exact deliver_readByte_rx hi ho

/-! ## Ticks and reset -/

theorem FsmState.timed_iff (p : FsmState) :
    p.timed = true ↔ p = .sGuard ∨ p = .xPredelay ∨ p = .xRxswait ∨ p = .xPoll := by
  cases p <;> decide

/-- TMR plus one, as a number, unless it is at its end. -/
theorem tick_toNat (t : BitVec 32) :
    (if t.toNat < 2 ^ 32 - 1 then t + 1 else t).toNat = min (t.toNat + 1) (2 ^ 32 - 1) := by
  have := t.isLt
  split
  · rw [BitVec.toNat_add]
    change (t.toNat + 1) % 2 ^ 32 = _
    omega
  · omega

/-- Settles O49: the timed states are the four named ones. -/
theorem tickCountsInTimedStates : Obligations.TickCountsInTimedStates := by
  intro s
  refine ⟨_, rfl, fun timed => ?_, fun untimed => ?_⟩
  · rw [← tick_toNat]
    simp only [(FsmState.timed_iff s.pc).mpr timed, true_and]
  · exact if_neg fun h => untimed ((FsmState.timed_iff s.pc).mp h.1)

/-- The bytes that come up with reset. -/
theorem bufRead_contents {size i : Nat} (bs : List Byte) (hi : i < size) :
    bufRead size (bufWriteList size [] 0 bs) i = bs.getD i 0 := by
  rw [bufRead_bufWriteList, Nat.sub_zero]
  split
  · rfl
  · rw [bufRead, if_pos hi, List.getD_eq_default _ _ (by omega)]
    rfl

/-- Settles O50: reset puts every register, and the buffers hold the event's contents. -/
theorem resetPutsEveryRegister : Obligations.ResetPutsEveryRegister := by
  intro s tx rx
  exact ⟨s.resetStep tx rx, rfl, rfl, rfl, rfl, rfl, rfl, rfl, rfl, rfl, rfl, rfl, rfl, rfl, rfl, rfl, rfl, rfl, rfl, rfl,
    rfl, rfl, fun _ => bufRead_contents tx, fun _ => bufRead_contents rx⟩

end Sys2Proof.Machine
end

section
/-! SUPPORT. Runs of many events, part by part: the ticks, the two session commands (40_session.md), and the exchange
from the write of its word to RESULT (41_exchange_sequence.md, 43_fifo_read.md). -/

namespace Sys2Proof.Machine

/-! ## Runs in parts -/

/-- The events lead from s to t, whatever events come after them. -/
def Leads (es : List Event) (s t : State) : Prop :=
  ∀ rest, runEvents (es ++ rest) (s.withInputs (es ++ rest)) = runEvents rest (t.withInputs rest)

theorem Leads.refl (s : State) : Leads [] s s := fun _ => rfl

theorem Leads.trans {xs ys : List Event} {s t u : State} (h : Leads xs s t) (h' : Leads ys t u) :
    Leads (xs ++ ys) s u := by
  intro rest
  rw [List.append_assoc]
  exact (h (ys ++ rest)).trans (h' rest)

theorem Leads.cons {e : Event} {es : List Event} {s t u : State} (h : deliver e s = .next t) (h' : Leads es t u) :
    Leads (e :: es) s u :=
  fun rest => (runEvents_cons_next e (es ++ rest) _ _ (deliver_withInputs _ s h)).trans (h' rest)

theorem Leads.one {e : Event} {s t : State} (h : deliver e s = .next t) : Leads [e] s t :=
  .cons h (.refl t)

/-- A run of at least one event ends where the events lead, with no event to come. -/
theorem Leads.run {es : List Event} {s t : State} (h : Leads es s t) (hne : es ≠ []) :
    runEvents es s = .next (t.withInputs []) := by
  have whole := h []
  rw [List.append_nil] at whole
  exact (runEvents_inputs es es s hne).symm.trans whole

theorem Leads.of_run {es : List Event} {s t : State} (h : runEvents es s = .next t) (hne : es ≠ [])
    (ht : t.withInputs [] = t) : Leads es s t := by
  intro rest
  have ne : es ++ rest ≠ [] := List.append_ne_nil_of_left_ne_nil hne rest
  refine (runEvents_inputs _ _ s ne).trans ?_
  by_cases hr : rest = []
  · subst hr
    rw [List.append_nil, h, ht]
    rfl
  · rw [runEvents_append h hr]
    exact (runEvents_inputs rest rest t hr).symm

/-- In a timed state every edge counts, before TMR's end (R57). -/
theorem leads_ticks {s : State} (timed : s.pc.timed = true) {n : Nat} (room : s.tmr.toNat + n < 2 ^ 32) :
    Leads (ticks n) s { s with tmr := s.tmr + BitVec.ofNat 32 n } := by
  induction n generalizing s with
  | zero =>
    have same : s.tmr + BitVec.ofNat 32 0 = s.tmr := BitVec.add_zero _
    rw [same]
    exact .refl s
  | succ n ih =>
    have counts : s.tick = { s with tmr := s.tmr + 1 } := by
      rw [State.tick, if_pos ⟨timed, by omega⟩]
    have later : (s.tmr + 1).toNat = s.tmr.toNat + 1 := by
      rw [BitVec.toNat_add]
      exact Nat.mod_eq_of_lt (Nat.lt_of_le_of_lt (Nat.add_le_add_left (Nat.succ_pos n) _) room)
    have sum : s.tmr + 1 + BitVec.ofNat 32 n = s.tmr + BitVec.ofNat 32 (n + 1) := by
      rw [BitVec.add_assoc, Nat.add_comm, BitVec.ofNat_add]
      rfl
    refine .cons (congrArg Host.Outcome.next counts) ?_
    rw [← sum]
    exact ih (s := { s with tmr := s.tmr + 1 }) timed (by rw [later]; omega)

/-! ## Acceptance -/

/-- A command whose preconditions hold has a word that decodes to it (R125). -/
theorem decode_encode_of_preconditions {s : State} {i : Instr} (hp : preconditions s i) :
    decode (encode i) = .instr i := by
  cases i with
  | sstart | sstop | reqa | wupa => decide
  | anticoll bits => exact decode_encode_anticoll bits hp.2.2.2.1
  | xchg fwt => exact decode_encode_xchg fwt

/-- The write of a command whose preconditions hold (R130). -/
theorem leads_accepted {s : State} {i : Instr} (hp : preconditions s i) :
    Leads [commandEvent (encode i)] s (acceptedState (s.respond .done) i) :=
  .one (deliver_commandEvent_accepted (decode_encode_of_preconditions hp) hp)

/-! ## The session commands -/

/-- Settles O17: S_MODE, S_FIELD, six edges in S_GUARD, and its end. -/
theorem sstartRunOpensSession : Obligations.SstartRunOpensSession := by
  intro s a b c notBusy noSession fieldOk
  have accepted : Leads [commandEvent (encode .sstart)] s _ :=
    .one ((deliver_commandEvent s (i := .sstart) (by decide)).trans (sstartAccepted _ notBusy noSession))
  have run := accepted.trans <| Leads.cons (deliver_modeOn a rfl) <| .cons (deliver_fieldOn b rfl rfl fieldOk) <|
    .trans (leads_ticks (n := 6) rfl (show 0 + 6 < 2 ^ 32 by decide)) <| .one (deliver_startEnds c rfl (Nat.le_refl 6))
  exact ⟨_, run.run (List.cons_ne_nil _ _), rfl, rfl, rfl, rfl, rfl, List.append_assoc s.trace _ _, rfl, rfl, rfl⟩

/-- Settles O19: the two turns of T_STOP. -/
theorem sstopRunClosesSession : Obligations.SstopRunClosesSession := by
  intro s a b notBusy session
  have accepted : Leads [commandEvent (encode .sstop)] s _ :=
    .one ((deliver_commandEvent s (i := .sstop) (by decide)).trans (sstopAccepted _ notBusy session))
  have run := accepted.trans <| Leads.cons (deliver_fieldOff a rfl rfl) <| .one (deliver_stopEnds b rfl rfl)
  exact ⟨_, run.run (List.cons_ne_nil _ _), rfl, rfl, rfl, rfl, rfl, List.append_assoc s.trace _ _, rfl, rfl, rfl⟩

/-! ## Steps 1-9 of an exchange -/

theorem quietTurns_add (m n : Nat) : quietTurns (m + n) = quietTurns m ++ quietTurns n :=
  (List.replicate_append_replicate ..).symm

/-- The transactions of steps 1-4 (R171-R176), with those of step 3. -/
def transmitTxns (v : Variant) (txns : List ChipTxn) : List ChipTxn :=
  [ChipTxn.cmd .stop, ChipTxn.cmd .resetRxGain, ChipTxn.irqClearAll] ++ txns ++ [ChipTxn.cmd v.txCommand]

/-- The transactions of steps 1-9 of a script without a fault (R171-R187). -/
def exchangeTxns (v : Variant) (txns : List ChipTxn) (c : ChipScript) (f : FifoStatus) : List ChipTxn :=
  transmitTxns v txns ++ [ChipTxn.irqRefresh c.txEnd, ChipTxn.irqRefresh c.rxStart, ChipTxn.irqRefresh c.rxEnd,
    ChipTxn.readFifoStatus f]

/-- The pre-delay's end and step 2 (R171, R172). -/
theorem leads_reset {s : State} (hp : s.pc = .xPredelay) (ht : s.tmr = 0) :
    Leads (ticks 2 ++ quietTurns 4) s { s with
      pc := .xProgram, sub := 0, tmr := 2, cache := 0
      trace := s.trace ++ [ChipTxn.cmd .stop, ChipTxn.cmd .resetRxGain, ChipTxn.irqClearAll] } := by
  have waited := leads_ticks (s := s) (n := 2) (by rw [hp]; rfl) (by rw [ht]; decide)
  rw [ht] at waited
  refine .trans waited ?_
  rw [List.append_cons, List.append_cons (s.trace ++ _)]
  exact .cons (deliver_predelayEnds (s := { s with tmr := 2 }) {} hp (Nat.le_refl 2)) <|
    .cons (deliver_resetStop {} rfl rfl) <| .cons (deliver_resetGain {} rfl rfl) <| .one (deliver_resetClear {} rfl rfl)

/-- Step 3 (R175). -/
theorem leads_program {s : State} {v : Variant} {txns : List ChipTxn} (hp : s.pc = .xProgram) (hs : s.sub = 0)
    (hv : s.req.variant = some v) (htxns : programTxns s v = txns) :
    Leads (quietTurns txns.length) s { s with pc := .xDispatch, sub := 0, trace := s.trace ++ txns } := by
  subst htxns
  have someTxns : programTxns s v ≠ [] := by cases v <;> exact List.cons_ne_nil _ _
  have run := runEvents_programTxns (turns := List.replicate (programTxns s v).length {}) hp hs hv
    (List.length_replicate ..)
  rw [List.map_replicate] at run
  intro rest
  exact Leads.of_run run (by simpa [quietTurns] using someTxns) rfl rest

/-- Steps 1-4 of an exchange (R171-R176). -/
theorem leads_transmit {s : State} {v : Variant} (hp : s.pc = .xPredelay) (ht : s.tmr = 0)
    (hv : s.req.variant = some v) :
    Leads (ticks 2 ++ quietTurns ((programTxns s v).length + 5)) s { s with
      pc := .xTxwait, sub := 0, tmr := 2, cache := 0, trace := s.trace ++ transmitTxns v (programTxns s v) } := by
  have parts : ticks 2 ++ quietTurns ((programTxns s v).length + 5)
      = (ticks 2 ++ quietTurns 4) ++ (quietTurns (programTxns s v).length ++ [Event.seq {}]) := by
    rw [show (programTxns s v).length + 5 = 4 + ((programTxns s v).length + 1) by omega, quietTurns_add, quietTurns_add,
      List.append_assoc]
    rfl
  have trace : s.trace ++ transmitTxns v (programTxns s v) = s.trace
      ++ [ChipTxn.cmd .stop, ChipTxn.cmd .resetRxGain, ChipTxn.irqClearAll] ++ programTxns s v
      ++ [ChipTxn.cmd v.txCommand] := by
    simp [transmitTxns]
  rw [parts, trace]
  refine (leads_reset hp ht).trans ?_
  refine .trans (leads_program ?_ ?_ ?_ (programTxns_congr rfl rfl rfl v)) (.one (deliver_dispatch (v := v) {} ?_ ?_))
  · rfl
  · rfl
  · exact hv
  · rfl
  · exact hv

theorem pollChecks_ends {r : State} (frm : r.cache.frm = false) (par : r.cache.par = false) (crc : r.cache.crc = false)
    (col : r.req.isAnticoll ∨ r.cache.col = false) (rxe : r.cache.rxe = true) : pollChecks r = r.enter .xPostchk := by
  have noCollision : ¬ (¬ r.req.isAnticoll ∧ r.cache.col = true) := by
    rintro ⟨plain, collided⟩
    exact col.elim plain (ne_true_of_eq_false · collided)
  simp only [pollChecks, frm, par, crc, rxe, Bool.false_eq_true, ↓reduceIte, if_neg noCollision]

/-- Step 5, ended by its refresh (R177). -/
theorem leads_txwait {s : State} {l : IrqFlags} (hp : s.pc = .xTxwait) (txe : IrqFlags.txe (s.cache ||| l) = true) :
    Leads [.seq { irq := l }] s { s with
      pc := .xRxswait, sub := 0, tmr := 0, cache := s.cache ||| l, trace := s.trace ++ [ChipTxn.irqRefresh l] } :=
  .one (deliver_txwaitEnds _ hp txe)

/-- Step 6, ended by its refresh (R180). -/
theorem leads_rxswait {s : State} {l : IrqFlags} (hp : s.pc = .xRxswait) (rxs : IrqFlags.rxs (s.cache ||| l) = true) :
    Leads [.seq { irq := l }] s { s with
      pc := .xPoll, sub := 0, tmr := 0, cache := s.cache ||| l, trace := s.trace ++ [ChipTxn.irqRefresh l] } :=
  .one (deliver_rxswaitEnds _ hp rxs)

/-- Step 7, ended by its refresh without a fault (R181-R184). -/
theorem leads_poll {s : State} {l flags : IrqFlags} (hp : s.pc = .xPoll) (hs : s.sub = 0) (hl : s.cache ||| l = flags)
    (frm : flags.frm = false) (par : flags.par = false) (crc : flags.crc = false)
    (col : s.req.isAnticoll ∨ flags.col = false) (rxe : flags.rxe = true) :
    Leads [.seq { irq := l }] s { s with
      pc := .xPostchk, sub := 0, cache := flags, trace := s.trace ++ [ChipTxn.irqRefresh l] } := by
  subst hl
  exact .one ((deliver_poll _ hp hs).trans (congrArg Host.Outcome.next (pollChecks_ends frm par crc col rxe)))

/-- Steps 5-7, each ended by its first refresh (R177-R184). -/
theorem leads_waits {s : State} {c : ChipScript} (hp : s.pc = .xTxwait) (h0 : s.cache = 0) (hc : c.endsWaits)
    (hcol : s.req.isAnticoll ∨ c.flags.col = false) :
    Leads [.seq { irq := c.txEnd }, .seq { irq := c.rxStart }, .seq { irq := c.rxEnd }] s { s with
      pc := .xPostchk, sub := 0, tmr := 0, cache := c.flags
      trace := s.trace ++ [ChipTxn.irqRefresh c.txEnd, ChipTxn.irqRefresh c.rxStart, ChipTxn.irqRefresh c.rxEnd] } := by
  obtain ⟨txe, rxs, rxe, frm, par, crc⟩ := hc
  have sent : s.cache ||| c.txEnd = c.txEnd := by
    rw [h0]
    exact BitVec.zero_or
  have flags : s.cache ||| c.txEnd ||| c.rxStart ||| c.rxEnd = c.flags := by rw [h0, ChipScript.flags]
  rw [← sent] at txe rxs
  rw [List.append_cons, List.append_cons (s.trace ++ _)]
  refine .trans (leads_txwait hp txe) ?_
  refine .trans (leads_rxswait (l := c.rxStart) ?_ ?_) ?_
  · rfl
  · exact rxs
  · exact leads_poll (flags := c.flags) rfl rfl flags frm par crc hcol rxe

/-- Steps 8 and 9 without a fault (R186, R187). -/
theorem leads_count {s : State} {c : ChipScript} {f : FifoStatus} (hp : s.pc = .xPostchk) (hc : c.clean)
    (hf : f = c.status.narrow s.hw) :
    Leads [.seq { fifoStatus := c.status }, .seq {}] s { s with
      pc := .xExtract, sub := 0, work := { s.work with snap := f, count := f.count }
      fifostat := { snap := f, valid := true }, rxcount := f.count
      trace := s.trace ++ [ChipTxn.readFifoStatus f] } := by
  obtain ⟨ovr, unf, nplb⟩ := hc
  subst hf
  have checked : postchkChecks { fifoStatus := c.status } s
      = (s.takeSnapshot (c.status.narrow s.hw)).enter .xCount := by
    simp only [postchkChecks, ovr, unf, nplb, Bool.false_eq_true, ↓reduceIte]
  refine .cons (deliver_postchk _ hp) ?_
  rw [checked]
  exact .one (deliver_count {} rfl)

/-- Steps 1-9 of an exchange, from its acceptance to the entry of step 10 (R170). -/
theorem leads_toExtract {s : State} {v : Variant} {c : ChipScript} {f : FifoStatus} {txns : List ChipTxn}
    (hp : s.pc = .xPredelay) (ht : s.tmr = 0) (hv : s.req.variant = some v) (htxns : programTxns s v = txns)
    (hc : c.endsWaits) (hcol : s.req.isAnticoll ∨ c.flags.col = false) (clean : c.clean)
    (hf : f = c.status.narrow s.hw) :
    Leads (ticks 2 ++ quietTurns (txns.length + 5) ++
        [Event.seq { irq := c.txEnd }, Event.seq { irq := c.rxStart }, Event.seq { irq := c.rxEnd },
          Event.seq { fifoStatus := c.status }, Event.seq {}]) s { s with
      pc := .xExtract, sub := 0, tmr := 0, cache := c.flags, work := { s.work with snap := f, count := f.count }
      fifostat := { snap := f, valid := true }, rxcount := f.count, trace := s.trace ++ exchangeTxns v txns c f } := by
  subst htxns
  have trace : s.trace ++ exchangeTxns v (programTxns s v) c f = s.trace ++ transmitTxns v (programTxns s v)
      ++ [ChipTxn.irqRefresh c.txEnd, ChipTxn.irqRefresh c.rxStart, ChipTxn.irqRefresh c.rxEnd]
      ++ [ChipTxn.readFifoStatus f] := by
    simp [exchangeTxns]
  rw [trace]
  refine (leads_transmit hp ht hv).trans ?_
  refine .trans (xs := [.seq { irq := c.txEnd }, .seq { irq := c.rxStart }, .seq { irq := c.rxEnd }])
    (leads_waits ?_ ?_ hc ?_) ?_
  · rfl
  · rfl
  · exact hcol
  · exact leads_count rfl clean hf

/-- An exchange's acceptance (R130). -/
theorem acceptedState_exchange (s : State) {i : Instr} (hi : i ≠ .sstart ∧ i ≠ .sstop) :
    acceptedState s i = s.acceptExchange (encode i) := by
  cases i with
  | sstart => exact absurd rfl hi.1
  | sstop => exact absurd rfl hi.2
  | reqa | wupa | anticoll _ | xchg _ => rfl

/-- The state in which step 10 of an accepted exchange begins, with the chip's answers of the script. -/
def extractEntry (s : State) (i : Instr) (v : Variant) (c : ChipScript) (f : FifoStatus) : State :=
  { s.respond .done with
    req := latchedRequest s i, status := { s.status with done := false }, result := {}, bitcount := 0
    collpos := {}, pc := .xExtract, sub := 0, tmr := 0, cache := c.flags
    work := { s.work with snap := f, count := f.count }, fifostat := { snap := f, valid := true }, rxcount := f.count
    trace := s.trace ++ exchangeTxns v (programTxns { s with req := latchedRequest s i } v) c f }

/-- The word's write and steps 1-9 of an exchange (R170). -/
theorem leads_exchange {s : State} {i : Instr} {v : Variant} {c : ChipScript} {f : FifoStatus} {n : Nat}
    (hi : i ≠ .sstart ∧ i ≠ .sstop) (hp : preconditions s i) (hv : (latchedRequest s i).variant = some v)
    (hn : (programTxns { s with req := latchedRequest s i } v).length = n) (hc : c.endsWaits)
    (hcol : (latchedRequest s i).isAnticoll ∨ c.flags.col = false) (clean : c.clean) (hf : f = c.status.narrow s.hw) :
    Leads (exchangeEvents (encode i) n c) s (extractEntry s i v c f) := by
  subst hn
  refine .trans (xs := [commandEvent (encode i)]) (leads_accepted hp) ?_
  rw [acceptedState_exchange _ hi, acceptExchange_encode]
  exact leads_toExtract rfl rfl hv (programTxns_congr rfl rfl rfl v) hc hcol clean hf

/-! ## Step 10 of REQA, WUPA and XCHG -/

/-- A FIFO read of n bytes: RXBUF and one transaction, with 0 for the bytes the script does not give (log 4). -/
theorem fifoReadTo_eq (a : ChipAnswers) (n i : Nat) (s : State) : fifoReadTo a n i s = { s with
    rxbuf := (fifoReadTo a n i s).rxbuf
    trace := s.trace ++ if n = 0 then [] else [ChipTxn.fifoRead n ((List.range n).map fun k => a.fifo.getD k 0)] } := by
  unfold fifoReadTo
  split
  · rw [List.append_nil]
  · rfl

/-- The bytes of RXBUF after a FIFO read, read from the memory. -/
theorem bufRead_fifoReadTo (a : ChipAnswers) (n i k : Nat) (s : State) :
    bufRead s.hw.rxbufSize (fifoReadTo a n i s).rxbuf k =
      if i ≤ k ∧ k < i + n ∧ k < s.hw.rxbufSize then a.fifo.getD (k - i) 0 else s.rxByte k := by
  rw [← fifoReadTo_rxByte, State.rxByte, fifoReadTo_hw]

/-- Step 10 of REQA, WUPA and XCHG, with the count within the capacity (R242-R245). -/
theorem leads_plainExtraction {s : State} {n : Nat} (c : ChipScript) (hp : s.pc = .xExtract) (hs : s.sub = 0)
    (hq : ¬ s.req.isAnticoll) (hc : ¬ s.req.isRaw → 2 ≤ s.work.count.toNat) (hn : (plainLength s).toNat = n)
    (fits : n ≤ s.req.rxcap.toNat) :
    Leads (plainExtraction c) s { s with
      pc := .ready, sub := 0, work := (s.setN (plainLength s)).work
      status := { s.status with done := true }, result := { op := s.req.op }, bitcount := BitVec.ofNat 32 (8 * n)
      rxbuf := (fifoReadTo { fifo := c.fifo } n 0 (s.setN (plainLength s)).nextSub).rxbuf
      trace := s.trace
        ++ if n = 0 then [] else [ChipTxn.fifoRead n ((List.range n).map fun k => c.fifo.getD k 0)] } := by
  subst hn
  have enough : ¬ (¬ s.req.isRaw ∧ s.work.count.toNat < Config.crcLen) :=
    fun short => Nat.not_lt.mpr (hc short.1) short.2
  refine .cons (deliver_plainFits {} hp hs hq enough fits) ?_
  refine .cons (deliver_plainReads { fifo := c.fifo } hp hq (congrArg (· + 1) hs)) ?_
  rw [fifoReadTo_eq]
  exact .one (deliver_plainEnds {} hp hq (congrArg (· + 2) hs))

/-- An exchange is accepted with a capacity inside RXBUF (R129). -/
theorem rxcap_le_of_preconditions {s : State} {i : Instr} (hi : i ≠ .sstart ∧ i ≠ .sstop) (hp : preconditions s i) :
    s.rxcap.toNat ≤ s.hw.rxbufSize := by
  cases i with
  | sstart => exact absurd rfl hi.1
  | sstop => exact absurd rfl hi.2
  | reqa | wupa => exact hp.2.2
  | anticoll _ | xchg _ => exact hp.2.2.1

/-- REQA, WUPA and XCHG end to end, for any variant but ANTICOLL: its list of step 3, its command of step 4, and n
received bytes (R170-R189, R241-R245, R254). -/
theorem plainExchange {s : State} {i : Instr} {v : Variant} {c : ChipScript} {f : FifoStatus} {txns : List ChipTxn}
    {trace : List ChipTxn} {m n : Nat} (hi : i ≠ .sstart ∧ i ≠ .sstop) (hp : preconditions s i)
    (hv : (latchedRequest s i).variant = some v) (hq : ¬ (latchedRequest s i).isAnticoll)
    (htxns : programTxns { s with req := latchedRequest s i } v = txns) (hm : txns.length = m) (hc : c.endsWaits)
    (hcol : c.flags.col = false) (clean : c.clean) (hf : f = c.status.narrow s.hw)
    (hn : f.count.toNat = if (latchedRequest s i).isRaw then n else n + 2) (fits : n ≤ s.rxcap.toNat)
    (htrace : s.trace ++ exchangeTxns v txns c f
      ++ (if n = 0 then [] else [ChipTxn.fifoRead n ((List.range n).map fun k => c.fifo.getD k 0)]) = trace) :
    ∃ t, runEvents (exchangeEvents (encode i) m c ++ plainExtraction c) s = .next t
      ∧ t.pc = .ready ∧ t.session = true ∧ t.status = { s.status with done := true }
      ∧ t.result = { op := (latchedRequest s i).op } ∧ t.bitcount.toNat = 8 * n
      ∧ t.rxcount = f.count ∧ t.fifostat = { snap := f, valid := true } ∧ t.collpos = {} ∧ t.cache = c.flags
      ∧ t.txbuf = s.txbuf ∧ t.txlen = s.txlen ∧ t.rxcap = s.rxcap ∧ t.irqen = s.irqen
      ∧ (∀ k, t.rxByte k = if k < n then c.fifo.getD k 0 else s.rxByte k)
      ∧ t.trace = trace := by
  have enters := leads_exchange hi hp hv (by rw [htxns, hm]) hc (.inr hcol) clean hf
  have capacity : (latchedRequest s i).rxcap = s.rxcap := by cases i <;> rfl
  have enough : ¬ (latchedRequest s i).isRaw → 2 ≤ f.count.toNat := fun hr => by
    rw [hn, if_neg hr]
    omega
  have length : (plainLength (extractEntry s i v c f)).toNat = n := by
    refine (plainLength_toNat _ enough).trans ?_
    change (if (latchedRequest s i).isRaw then f.count.toNat else f.count.toNat - 2) = n
    split_ifs at hn ⊢ <;> omega
  have inBuffer : n ≤ s.hw.rxbufSize := fits.trans (rxcap_le_of_preconditions hi hp)
  have session := session_of_preconditions hi hp
  have run := enters.trans (leads_plainExtraction c rfl rfl hq enough length (capacity ▸ fits))
  refine ⟨_, run.run (List.cons_ne_nil _ _), rfl, session, rfl, rfl, ?bitcount, rfl, rfl, rfl, rfl,
    rfl, rfl, rfl, rfl, fun k => ?bytes, ?trace⟩
  case bitcount =>
    have := s.rxcap.isLt
    exact Nat.mod_eq_of_lt (by omega)
  case bytes =>
    refine (bufRead_fifoReadTo _ n 0 k ((extractEntry s i v c f).setN _).nextSub).trans
      (ite_congr ?_ (fun _ => rfl) fun _ => rfl)
    change (0 ≤ k ∧ k < 0 + n ∧ k < s.hw.rxbufSize) = (k < n)
    exact propext (by omega)
  case trace =>
    subst htxns
    exact htrace

/-- Settles O32: the list of step 3 is the same for both, and COUNT is not shortened. -/
theorem reqaAndWupaExchange : Obligations.ReqaAndWupaExchange := by
  rintro s c i op cmd f (⟨rfl, rfl, rfl⟩ | ⟨rfl, rfl, rfl⟩) hp waits noCollision clean hf fits
  · exact plainExchange (v := .reqa) (by simp) hp rfl (show opReqa ≠ opAnticoll by decide) rfl rfl waits noCollision
      clean hf rfl fits (by simp [exchangeTxns, transmitTxns, framingWrites, Variant.txCommand, programTxns])
  · exact plainExchange (v := .wupa) (by simp) hp rfl (show opWupa ≠ opAnticoll by decide) rfl rfl waits noCollision
      clean hf rfl fits (by simp [exchangeTxns, transmitTxns, framingWrites, Variant.txCommand, programTxns])

/-- A load of no bytes is not issued, with the condition for none (R97). -/
theorem fifoLoad_eq_ite_none (s : State) {n : Nat} {p : Prop} [Decidable p] (h : p ↔ n = 0) :
    fifoLoad s n = if p then [] else [.fifoWrite ((List.range n).map s.txByte)] :=
  if_congr h.symm rfl rfl

theorem eq_zero_iff_toNat {w : Nat} (x : BitVec w) : x = 0 ↔ x.toNat = 0 := by
  rw [BitVec.toNat_eq]
  rfl

/-- XCHG's list of step 3 (R175). -/
theorem programTxns_xchg_latched (s : State) (fwt : BitVec 16) :
    programTxns { s with req := latchedRequest s (.xchg fwt) } .xchg = [ChipTxn.write .txNbits (8 * s.txlen.toNat)]
      ++ (if s.txlen = 0 then [] else [ChipTxn.fifoWrite ((List.range s.txlen.toNat).map s.txByte)])
      ++ [ChipTxn.write .raw 0, ChipTxn.write .antcl 0, ChipTxn.write .agcEn 1, ChipTxn.write .squelchEn 1] := by
  rw [← fifoLoad_eq_ite_none s (eq_zero_iff_toNat s.txlen)]
  rfl

/-- Settles O33: XCHG's list of step 3, and COUNT without the CRC. -/
theorem xchgExchange : Obligations.XchgExchange := by
  intro s c fwt f n hp waits noCollision clean hf hn fits
  exact plainExchange (v := .xchg) (by simp) hp rfl (show opXchg ≠ opAnticoll by decide)
    (programTxns_xchg_latched s fwt) (by split <;> rfl) waits noCollision clean hf hn fits (by simp [exchangeTxns, transmitTxns, Variant.txCommand])

end Sys2Proof.Machine
end

section
/-! SUPPORT. ANTICOLL from the write of its word to RESULT, with and without a collision (43_fifo_read.md R246-R254). -/

namespace Sys2Proof.Machine

/-- The state after the bytes sent and the bytes received are in RXBUF (R246-R249). -/
def anticollReceived (c : ChipScript) (s : State) : State :=
  (anticollRead { fifo := c.fifo } (prefixCopy s.splitPrefix.nextSub).nextSub).nextSub

/-- The state that step 10 of ANTICOLL completes from, after the merge and the collision test (R250-R253). -/
def anticollEnd (c : ChipScript) (s : State) : State :=
  (collisionRead { collPos := c.collPos } (partialMerge (anticollReceived c s)).nextSub).nextSub

/-- Step 10 of ANTICOLL, with the bytes within the capacity. -/
theorem leads_anticollExtraction {s : State} (c : ChipScript) (hp : s.pc = .xExtract) (hs : s.sub = 0)
    (hq : s.req.isAnticoll)
    (hn : anticollNeed s.req.fullBytes s.req.remBits s.work.count.toNat ≤ s.req.rxcap.toNat) :
    Leads (anticollExtraction c) s ((anticollEnd c s).complete (anticollBitCount (anticollEnd c s))) := by
  refine .cons (deliver_anticollFits {} hp hs hq hn) ?_
  refine .cons (deliver_prefixCopies {} hp hq (congrArg (· + 1) hs)) ?_
  refine .cons (deliver_anticollReads { fifo := c.fifo } hp hq (congrArg (· + 2) hs)) ?_
  refine .cons (deliver_merges {} (by simpa using hp) (by simpa using hq) (by simp [hs])) ?_
  refine .cons (deliver_collisionReads { collPos := c.collPos } (by simpa using hp) (by simpa using hq)
    (by simp [hs])) ?_
  exact .one (deliver_anticollEnds {} (by simpa using hp) (by simpa using hq) (by simp [hs]))

theorem anticollRead_frame (a : ChipAnswers) (s : State) : ∃ rxbuf work trace,
    anticollRead a s = { s with rxbuf := rxbuf, work := work, trace := trace } := by
  rw [anticollRead, fifoReadTo_eq]
  exact ⟨_, _, _, rfl⟩

theorem partialMerge_frame (s : State) : ∃ rxbuf, partialMerge s = { s with rxbuf := rxbuf } := by
  unfold partialMerge
  split
  · exact ⟨_, rfl⟩
  · exact ⟨_, rfl⟩

theorem collisionRead_frame (a : ChipAnswers) (s : State) : ∃ work collpos trace,
    collisionRead a s = { s with work := work, collpos := collpos, trace := trace } := by
  unfold collisionRead
  split
  · exact ⟨_, _, _, rfl⟩
  · exact ⟨_, _, _, rfl⟩

theorem anticollReceived_frame (c : ChipScript) (s : State) : ∃ rxbuf work trace,
    anticollReceived c s = { s with sub := s.sub + 3, rxbuf := rxbuf, work := work, trace := trace } := by
  obtain ⟨_, _, _, reads⟩ := anticollRead_frame { fifo := c.fifo } (prefixCopy s.splitPrefix.nextSub).nextSub
  rw [anticollReceived, reads]
  exact ⟨_, _, _, rfl⟩

/-- What step 10 of ANTICOLL leaves unchanged. -/
theorem anticollEnd_eq (c : ChipScript) (s : State) : anticollEnd c s = { s with
    sub := s.sub + 5, work := (anticollEnd c s).work, collpos := (anticollEnd c s).collpos
    rxbuf := (anticollEnd c s).rxbuf, trace := (anticollEnd c s).trace } := by
  obtain ⟨rxbuf, work, collpos, trace, frame⟩ : ∃ rxbuf work collpos trace, anticollEnd c s = { s with
      sub := s.sub + 5, work := work, collpos := collpos, rxbuf := rxbuf, trace := trace } := by
    obtain ⟨_, _, _, receives⟩ := anticollReceived_frame c s
    obtain ⟨_, merges⟩ := partialMerge_frame (anticollReceived c s)
    obtain ⟨_, _, _, tests⟩ :=
      collisionRead_frame { collPos := c.collPos } (partialMerge (anticollReceived c s)).nextSub
    rw [anticollEnd, tests, merges, receives]
    exact ⟨_, _, _, _, rfl⟩
  rw [frame]

theorem anticollEnd_work (c : ChipScript) (s : State) : (anticollEnd c s).work = { s.splitPrefix.work with
    n := s.work.count, cpos := if s.cache.col then c.collPos.narrow s.hw else s.work.cpos } := by
  simp [anticollEnd, anticollReceived, collisionRead_work, anticollRead_work]

theorem collisionRead_collpos (a : ChipAnswers) (s : State) : (collisionRead a s).collpos =
    if s.cache.col then { pos := a.collPos.narrow s.hw, valid := true } else s.collpos := by
  unfold collisionRead
  split <;> rfl

theorem anticollEnd_collpos (c : ChipScript) (s : State) : (anticollEnd c s).collpos =
    if s.cache.col then { pos := c.collPos.narrow s.hw, valid := true } else s.collpos := by
  simp [anticollEnd, anticollReceived, collisionRead_collpos]

theorem collisionRead_trace (a : ChipAnswers) (s : State) : (collisionRead a s).trace = s.trace
    ++ if s.cache.col then [ChipTxn.readCollPos (a.collPos.narrow s.hw)] else [] := by
  unfold collisionRead
  split
  · rfl
  · exact (List.append_nil _).symm

theorem anticollRead_trace (a : ChipAnswers) (s : State) : (anticollRead a s).trace = s.trace
    ++ if s.work.count.toNat = 0 then []
      else [ChipTxn.fifoRead s.work.count.toNat ((List.range s.work.count.toNat).map fun k => a.fifo.getD k 0)] := by
  rw [anticollRead, fifoReadTo_eq]
  rfl

theorem anticollEnd_trace (c : ChipScript) (s : State) : (anticollEnd c s).trace = s.trace
    ++ (if s.work.count.toNat = 0 then []
        else [ChipTxn.fifoRead s.work.count.toNat ((List.range s.work.count.toNat).map fun k => c.fifo.getD k 0)])
    ++ (if s.cache.col then [ChipTxn.readCollPos (c.collPos.narrow s.hw)] else []) := by
  simp [anticollEnd, anticollReceived, collisionRead_trace, anticollRead_trace]

/-- The bit count, from the collision position when COL is flagged (R252, R253). -/
theorem anticollEnd_bitCount (c : ChipScript) (s : State) : anticollBitCount (anticollEnd c s) =
    if s.cache.col then 8 * (c.collPos.narrow s.hw).cbyte.toNat + (c.collPos.narrow s.hw).cbit.toNat
    else 8 * s.req.fullBytes + 8 * s.work.count.toNat := by
  have cache : (anticollEnd c s).cache = s.cache := by simp [anticollEnd, anticollReceived]
  have full : (anticollEnd c s).work.full.toNat = s.req.fullBytes := by
    rw [anticollEnd_work]
    exact splitPrefix_full_toNat s
  rw [anticollBitCount, cache, full, anticollEnd_work]
  split_ifs <;> rfl

/-! ## The bytes -/

theorem anticollReceived_work (c : ChipScript) (s : State) :
    (anticollReceived c s).work = { s.splitPrefix.work with n := s.work.count } := by
  simp [anticollReceived, anticollRead_work]

/-- RXBUF before the merge: the whole bytes sent, then the bytes received (R248, R249). -/
theorem anticollReceived_rxByte (c : ChipScript) (s : State) (k : Nat)
    (fits : s.req.fullBytes + s.work.count.toNat ≤ s.hw.rxbufSize) :
    (anticollReceived c s).rxByte k =
      if k < s.req.fullBytes then s.txByte k
      else if k < s.req.fullBytes + s.work.count.toNat then c.fifo.getD (k - s.req.fullBytes) 0 else s.rxByte k := by
  have full := splitPrefix_full_toNat s
  have received : (anticollReceived c s).rxByte k =
      if s.req.fullBytes ≤ k ∧ k < s.req.fullBytes + s.work.count.toNat ∧ k < s.hw.rxbufSize then
        c.fifo.getD (k - s.req.fullBytes) 0
      else (prefixCopy s.splitPrefix.nextSub).rxByte k := by
    rw [← full]
    exact fifoReadTo_rxByte { fifo := c.fifo } s.work.count.toNat _ k (prefixCopy s.splitPrefix.nextSub).nextSub
  have sent : (prefixCopy s.splitPrefix.nextSub).rxByte k =
      if k < s.req.fullBytes ∧ k < s.hw.rxbufSize then s.txByte k else s.rxByte k := by
    rw [← full]
    exact prefixCopy_rxByte s.splitPrefix.nextSub k
  rw [received, sent]
  obtain hk | hk := Nat.lt_or_ge k s.req.fullBytes
  · rw [if_neg (by omega), if_pos (by omega), if_pos hk]
  · rw [if_neg (Nat.not_lt.mpr hk), if_neg (c := k < s.req.fullBytes ∧ _) (by omega)]
    exact if_congr (by omega) rfl rfl

/-- RXBUF after step 10 of ANTICOLL: the low bits of the partial byte sent are ORed into the byte after the whole ones
(R250). -/
theorem bufRead_anticollEnd (c : ChipScript) (s : State) (k : Nat)
    (fits : anticollNeed s.req.fullBytes s.req.remBits s.work.count.toNat ≤ s.hw.rxbufSize) :
    bufRead s.hw.rxbufSize (anticollEnd c s).rxbuf k =
      if k < s.req.fullBytes then s.txByte k
      else (if k < s.req.fullBytes + s.work.count.toNat then c.fifo.getD (k - s.req.fullBytes) 0 else s.rxByte k)
        ||| (if k = s.req.fullBytes then s.txByte k &&& BitVec.ofNat 8 (2 ^ s.req.remBits - 1) else 0) := by
  have full : (anticollReceived c s).work.full.toNat = s.req.fullBytes := by
    rw [anticollReceived_work]
    exact splitPrefix_full_toNat s
  have rem : (anticollReceived c s).work.rem.toNat = s.req.remBits := by
    rw [anticollReceived_work]
    exact splitPrefix_rem_toNat s
  have hw : (anticollReceived c s).hw = s.hw := by simp [anticollReceived]
  have merged : bufRead s.hw.rxbufSize (anticollEnd c s).rxbuf k = (partialMerge (anticollReceived c s)).rxByte k := by
    simp [anticollEnd, State.rxByte, hw]
  have sameTx : (anticollReceived c s).txByte k = s.txByte k := by simp [anticollReceived, State.txByte]
  unfold anticollNeed at fits
  have remBits_eq (hr : (anticollReceived c s).work.rem = 0) : s.req.remBits = 0 := by
    rw [← rem, hr]
    rfl
  have inBuffer (hr : (anticollReceived c s).work.rem ≠ 0) : s.req.fullBytes < s.hw.rxbufSize := by
    have : s.req.remBits ≠ 0 := fun h0 => hr (BitVec.eq_of_toNat_eq (rem.trans h0))
    rw [if_pos this] at fits
    omega
  rw [merged, partialMerge_rxByte (by rwa [full, hw]), anticollReceived_rxByte c s k (by omega), full, rem, sameTx]
  obtain hk | hk := Nat.lt_or_ge k s.req.fullBytes
  · rw [if_pos hk, if_pos hk, if_neg fun h => Nat.ne_of_lt hk h.2]
    exact BitVec.or_zero
  · rw [if_neg (Nat.not_lt.mpr hk), if_neg (Nat.not_lt.mpr hk)]
    congr 1
    by_cases hr : (anticollReceived c s).work.rem = 0
    · rw [remBits_eq hr, if_neg fun h => h.1 hr]
      exact ((congrArg (ite _ · 0) BitVec.and_zero).trans (ite_self 0)).symm
    · simp only [hr, ne_eq, not_false_eq_true, true_and]
      rfl

/-! ## The whole exchange -/

/-- ANTICOLL's list of step 3 (R175). -/
theorem programTxns_anticoll_latched (s : State) (bits : BitVec 6) :
    programTxns { s with req := latchedRequest s (.anticoll bits) } .anticoll = [ChipTxn.write .txNbits bits.toNat]
      ++ (if bits = 0 then [] else [ChipTxn.fifoWrite ((List.range ((bits.toNat + 7) / 8)).map s.txByte)])
      ++ [ChipTxn.write .raw 1, ChipTxn.write .antcl 1, ChipTxn.write .agcEn 0, ChipTxn.write .squelchEn 1] := by
  have none : bits = 0 ↔ (bits.toNat + 7) / 8 = 0 := by
    rw [eq_zero_iff_toNat]
    omega
  rw [← fifoLoad_eq_ite_none s none]
  rfl

/-- Settles O34: step 10's check passes, and the fields of the state it completes from are given one by one. -/
theorem anticollExchange : Obligations.AnticollExchange := by
  rintro s c bits f p full rem n hw hp waits clean hf rfl rfl rfl rfl fits
  have enters := leads_exchange (v := .anticoll) (n := if bits = 0 then 5 else 6) (by simp) hp rfl
    (by rw [programTxns_anticoll_latched]; split <;> rfl) waits (.inl rfl) clean hf
  have run := enters.trans (leads_anticollExtraction c rfl rfl rfl fits)
  have session := session_of_preconditions (by simp) hp
  rw [anticollEnd_bitCount, anticollEnd_eq] at run
  refine ⟨_, run.run (List.cons_ne_nil _ _), rfl, session, rfl, rfl, ?bitcount, rfl, rfl, rfl, ?collpos, rfl,
    rfl, rfl, rfl, fun k => ?bytes, ?trace⟩
  case bitcount =>
    refine Nat.mod_eq_of_lt ?_
    have := (c.collPos.narrow s.hw).cbyte.isLt
    have := (c.collPos.narrow s.hw).cbit.isLt
    have := f.count.isLt
    have := bits.isLt
    split_ifs
    · change 8 * (c.collPos.narrow s.hw).cbyte.toNat + (c.collPos.narrow s.hw).cbit.toNat < 2 ^ 32
      omega
    · change 8 * (bits.toNat / 8) + 8 * f.count.toNat < 2 ^ 32
      omega
  case collpos => exact anticollEnd_collpos ..
  case bytes =>
    have inBuffer := fits.trans (rxcap_le_of_preconditions (by simp) hp)
    exact bufRead_anticollEnd c (extractEntry s (.anticoll bits) .anticoll c _) k inBuffer
  case trace =>
    refine (anticollEnd_trace ..).trans ?_
    simp [extractEntry, programTxns_anticoll_latched, exchangeTxns, transmitTxns, Variant.txCommand]

end Sys2Proof.Machine
end
